-- ==== Sys2Proof/Word.lean ====
section
/-! DEFINITION. The words of the datapath: nibbles, bytes, and the sequences the spec calls Block and BitVector (00_scope.md rule R10). -/

namespace Sys2Proof

/-- A nibble: an integer in 0..15 held as four bits (R10). -/
abbrev Nibble := BitVec 4

/-- A byte: a command word or a candidate entry (R80, R38). -/
abbrev Byte := BitVec 8

/-- A Block: an ordered sequence of nibbles, nibble 0 first. Its length is its arity (R10). -/
abbrev Block := List Nibble

/-- A BitVector of the spec: an ordered sequence of bits, position 0 first (R10, R11). -/
abbrev BitString := List Bool

end Sys2Proof
end

