-- ==== Sys2Proof/Config.lean ====
section
/-! DEFINITION. The values the spec leaves open (93_implementation_defined.md U1, U2). The capacities it fixes (00_scope.md rule R9: WMAX 4, NKREG 5, LENBITS 3, BLENBITS 5, CANDN 16, CANDW 8, CLENBITS 5, TRACEN 13) stand as numerals in the types of Machine/State.lean. -/

namespace Sys2Proof.Config

/-- FREE VALUE. The contents of the data cells after a reset event, which R45 and R201 leave
unspecified ("any value", U1). The first argument is the model's counter of free values, the
second the number of the register (R69; 0x80 for the working block ST). Log entry 4. -/
opaque resetWord : Nat → Nat → BitVec 21

/-- FREE VALUE. What a host read of an unmapped register number returns (R70, "any value", U2).
The first argument is the model's counter of free values, the second the register number.
Log entry 5. -/
opaque unmappedRead : Nat → Nat → Nat

end Sys2Proof.Config
end

