-- ==== Sys2Proof/Syntax.lean ====
section
/-! DEFINITION. The thirteen commands, one constructor for each row of the opcode map (30_encoding.md rule R81). -/

namespace Sys2Proof

/-- The topology bit `t` of a command: the 4-bit toy cipher or the 16-bit SPN cipher (R2). -/
inductive Topology where
  | toy
  | spn
deriving DecidableEq, Repr

/-- A command as decoded from the byte written to CMD. Only MIXKEY has an operand besides the
topology: the key index `k` (R84). -/
inductive Instr where
  /-- Convert BLK to RBITS (R103). -/
  | tobits (t : Topology)
  /-- Convert BITS to RES (R104). -/
  | tonib (t : Topology)
  /-- Validate CAND as an S-box and build SBOX, SINV (R113). It has no topology. -/
  | vsbox
  /-- Validate CAND as a P-box and build PBOX, PINV (R114). -/
  | vpbox (t : Topology)
  /-- Mix key `k` into BLK (R135). -/
  | mixkey (t : Topology) (k : BitVec 3)
  /-- Substitute BLK through SBOX (R136). -/
  | sub (t : Topology)
  /-- Substitute BLK through SINV (R137). -/
  | subi (t : Topology)
  /-- Permute the bits of BLK through PBOX (R138). -/
  | perm (t : Topology)
  /-- Permute the bits of BLK through PINV (R139). -/
  | permi (t : Topology)
  /-- Encrypt BLK (R153). -/
  | enc (t : Topology)
  /-- Encrypt BLK and record the trace (R172). -/
  | enct (t : Topology)
  /-- Decrypt BLK (R154). -/
  | dec (t : Topology)
  /-- Decrypt BLK and record the trace (R173). -/
  | dect (t : Topology)
deriving DecidableEq, Repr

end Sys2Proof
end

