-- ==== Sys2Proof/WellFormed.lean ====
section
/-! DEFINITION. Which terms of Instr stand for a legal command byte (30_encoding.md rules R83, R84). -/

namespace Sys2Proof

/-- The key index of MIXKEY is legal in 1..5 (R84): the check's first part refuses 0, its second
6 and 7. Every other operand is a topology, and both topologies are legal in every command that
has one (R81). -/
def Instr.wellFormed : Instr → Bool
  | .mixkey _ k => decide (1 ≤ k.toNat) && decide (k.toNat ≤ 5)
  | .tobits _ => true
  | .tonib _ => true
  | .vsbox => true
  | .vpbox _ => true
  | .sub _ => true
  | .subi _ => true
  | .perm _ => true
  | .permi _ => true
  | .enc _ => true
  | .enct _ => true
  | .dec _ => true
  | .dect _ => true

end Sys2Proof
end

