-- ==== Sys2Proof/Decode.lean ====
section
/-! DEFINITION. Decoding of the command byte, total on all 256 bytes, and its encoder (30_encoding.md rules R80 to R84). -/

namespace Sys2Proof

/-- Why a byte is no command (R83). All reasons behave alike: the accept step raises
IllegalCommand. -/
inductive DecodeError where
  /-- `op` is 0x0 or 0xA to 0xF. -/
  | reservedOperation
  /-- `op` is 0x3 with `t` = 1: VSBOX has no SPN form. -/
  | noSpnForm
  /-- The argument field `a` is not one the operation has. -/
  | badArgument
  /-- `op` is 0x5 with `a` in 0, 6, 7: no such key register. -/
  | badKeyIndex
deriving DecidableEq, Repr

/-- The field `op` = bits 7:4 (R80). -/
def opField (v : Byte) : BitVec 4 := v.extractLsb' 4 4

/-- The field `t` = bit 3 (R80). -/
def topologyBit (v : Byte) : Bool := v.getLsbD 3

/-- The field `a` = bits 2:0 (R80). -/
def argField (v : Byte) : BitVec 3 := v.extractLsb' 0 3

/-- `t` = 0 is toy, `t` = 1 is SPN (R80). -/
def topologyOfBit : Bool → Topology
  | false => .toy
  | true => .spn

/-- The bit that stands for a topology (R80). -/
def topologyToBit : Topology → Bool
  | .toy => false
  | .spn => true

/-- An operation whose argument must be 000. -/
def decodePlain (a : BitVec 3) (i : Instr) : Except DecodeError Instr :=
  if a = 0#3 then .ok i else .error .badArgument

/-- An operation whose argument is one flag: 000 gives the first command, 001 the second. -/
def decodeFlag (a : BitVec 3) (i j : Instr) : Except DecodeError Instr :=
  if a = 0#3 then .ok i else if a = 1#3 then .ok j else .error .badArgument

/-- `Decode(v)` (R82), naming the reason for an illegal byte (R83). -/
def decode (v : Byte) : Except DecodeError Instr :=
  let t := topologyOfBit (topologyBit v)
  let a := argField v
  match (opField v).toNat with
  | 1 => decodePlain a (.tobits t)
  | 2 => decodePlain a (.tonib t)
  | 3 => if topologyBit v then .error .noSpnForm else decodePlain a .vsbox
  | 4 => decodePlain a (.vpbox t)
  | 5 => if 1 ≤ a.toNat ∧ a.toNat ≤ 5 then .ok (.mixkey t a) else .error .badKeyIndex
  | 6 => decodeFlag a (.sub t) (.subi t)
  | 7 => decodeFlag a (.perm t) (.permi t)
  | 8 => decodeFlag a (.enc t) (.enct t)
  | 9 => decodeFlag a (.dec t) (.dect t)
  | _ => .error .reservedOperation

/-- The byte with the given fields (R80). -/
def commandByte (op : BitVec 4) (t : Topology) (a : BitVec 3) : Byte :=
  op ++ (BitVec.ofBool (topologyToBit t) ++ a)

/-- The byte of a command (R81). Of an ill-formed MIXKEY it is the illegal byte with that key
field. -/
def encode : Instr → Byte
  | .tobits t => commandByte 0x1 t 0
  | .tonib t => commandByte 0x2 t 0
  | .vsbox => commandByte 0x3 .toy 0
  | .vpbox t => commandByte 0x4 t 0
  | .mixkey t k => commandByte 0x5 t k
  | .sub t => commandByte 0x6 t 0
  | .subi t => commandByte 0x6 t 1
  | .perm t => commandByte 0x7 t 0
  | .permi t => commandByte 0x7 t 1
  | .enc t => commandByte 0x8 t 0
  | .enct t => commandByte 0x8 t 1
  | .dec t => commandByte 0x9 t 0
  | .dect t => commandByte 0x9 t 1

/-- The command in the low `nbits` bits of `w`. Every row of the opcode table has 8 bits and a
command is the value written to CMD (R80, R91), so there is one byte and no byte order. -/
def decodeTableWord (nbits w : Nat) : Option Instr :=
  match decode (BitVec.ofNat 8 (w % 2 ^ nbits)) with
  | .ok i => some i
  | .error _ => none

end Sys2Proof
end

