-- ==== Sys2Proof/Machine/State.lean ====
section
/-! DEFINITION. The state of the datapath, the reasons a step can stop, and the state after reset (10_state.md, 70_reset_and_hazards.md rule R201). -/

namespace Sys2Proof.Machine

/-- A block-valued register: the arity tag and four nibble cells (R20). -/
structure BlockReg where
  /-- The arity tag, 0..7. -/
  len : BitVec 3
  /-- The cells `nib[0]` to `nib[3]`. -/
  nib : Vector Nibble 4
deriving DecidableEq, Repr

/-- A bit-valued register: the length tag and sixteen bit cells (R21). -/
structure BitReg where
  /-- The length tag, 0..31. -/
  len : BitVec 5
  /-- The cells `bit[0]` to `bit[15]`, indexed by BitVector position. -/
  bit : Vector Bool 16
deriving DecidableEq, Repr

/-- A table store: sixteen 4-bit cells (R39, R40). -/
abbrev Table := Vector Nibble 16

/-- The errors of the datapath (R181). None is the absence of one. -/
inductive ErrorCode where
  /-- 1: a candidate is not a bijection over its domain. -/
  | invalidTable
  /-- 2: an arity or bit length does not match the topology. -/
  | invalidLength
  /-- 3: a needed table was not built by a successful validation. -/
  | tableNotReady
  /-- 4: the byte written to CMD is no command. -/
  | illegalCommand
deriving DecidableEq, Repr

/-- What the two agents do next, as an input of the machine (R72, R92, R191). -/
inductive Event where
  /-- `WR reg, v`: a host write of the unsigned value `v` to a register number. -/
  | write (reg : BitVec 7) (value : Nat)
  /-- `RD reg`: a host read of a register number. -/
  | read (reg : BitVec 7)
  /-- `WAIT`: the host polls STATUS until DONE = 1 or BUSY = 0. -/
  | wait
  /-- `RD TLEN; RD TRACE[j] for j < TLEN`: the host reads TLEN and then one snapshot for each number
  below the value it read (R93). -/
  | readTrace
  /-- The controller has the turn. -/
  | controller
  /-- The reset input is asserted (R200). -/
  | reset
deriving DecidableEq, Repr

/-- Why the machine would stop. The spec gives the hardware no internal fault (R186); these three
name an access to something the spec says does not exist, in states that no run from reset
reaches. All are safe: the model stops where the spec describes nothing. -/
inductive Fault where
  /-- Raised by the controller turn when BUSY = 1 and IR holds no command (R42). Safe. -/
  | busyWithoutCommand
  /-- Raised by the controller step when SC is past the stage list of the command (R26). Safe. -/
  | noSuchStage
  /-- Raised by a snapshot when TLEN names no cell of TRACE: TRACE[13..] does not exist (R171). Safe. -/
  | noSuchSnapshot
deriving DecidableEq, Repr

/-- Why the model would give an instruction no meaning. -/
inductive Refusal where
  /-- Raised by `exec` alone, for an instruction that is not modelled. No arm of `exec` answers it:
  every command has its meaning. Safe. -/
  | notModelled (mnemonic : String)
deriving DecidableEq, Repr

/-- The whole state: the registers and stores of 10_state.md section 1, then three fields of the
model's own (the pending inputs, the last word the host read, the counter of free values). -/
structure State where
  /-- BLK, the input block (R22). -/
  blk : BlockReg
  /-- K1 (R23). -/
  k1 : BlockReg
  /-- K2 (R23). -/
  k2 : BlockReg
  /-- K3 (R23). -/
  k3 : BlockReg
  /-- K4 (R23). -/
  k4 : BlockReg
  /-- K5 (R23). -/
  k5 : BlockReg
  /-- BITS, the input bit vector (R24). -/
  bits : BitReg
  /-- CANDLEN (R36). -/
  candlen : BitVec 5
  /-- CAND, the candidate buffer (R38). -/
  cand : Vector Byte 16
  /-- RES, the output block (R25). -/
  res : BlockReg
  /-- RBITS, the output bit vector (R24). -/
  rbits : BitReg
  /-- TRACE, the trace buffer (R41). -/
  trace : Vector BlockReg 13
  /-- TLEN, the number of snapshots written (R35). -/
  tlen : BitVec 4
  /-- SBOX, the forward S-box store (R39). -/
  sbox : Table
  /-- SINV, the inverse S-box store (R39). -/
  sinv : Table
  /-- PBOX, the forward P-box store (R40). -/
  pbox : Table
  /-- PINV, the inverse P-box store (R40). -/
  pinv : Table
  /-- STATUS.BUSY (R27). -/
  busy : Bool
  /-- STATUS.DONE (R28). -/
  done : Bool
  /-- STATUS.ERR, three bits (R29). -/
  err : BitVec 3
  /-- STATUS.SVALID (R30). -/
  svalid : Bool
  /-- STATUS.PVALID (R31). -/
  pvalid : Bool
  /-- STATUS.PT, the topology bit the P-box was built for (R31). -/
  pt : Bool
  /-- IR, the latched command word, which a read of CMD returns (R33, R42). -/
  ir : Byte
  /-- SC, the stage counter (R26). -/
  sc : BitVec 4
  /-- ST, the working block (R43). -/
  st : Vector Nibble 4
  /-- MODEL'S OWN: the inputs still to come, in the one total order of all steps (R72). Log entry 1. -/
  inputs : List Event
  /-- MODEL'S OWN: the word the last host read returned. Log entry 6. -/
  rdata : Option Nat
  /-- MODEL'S OWN: how many free values have been taken. Log entries 4 and 5. -/
  freeCount : Nat
deriving DecidableEq, Repr

/-- A block-valued register whose tag is 0 and whose cells hold the model's reset value, zero
(DESIGN CHOICE, log entry 3: R45 leaves the cells unspecified). -/
def BlockReg.zero : BlockReg := { len := 0, nib := Vector.replicate 4 0 }

/-- A bit-valued register whose tag is 0 and whose cells hold the model's reset value, zero
(DESIGN CHOICE, log entry 3). -/
def BitReg.zero : BitReg := { len := 0, bit := Vector.replicate 16 false }

/-- The machine right after reset (R45, R201). The flags, IR, SC, TLEN, CANDLEN and the tags are the
spec's; every data cell is zero by DESIGN CHOICE (log entry 3), since the spec leaves it
unspecified. -/
def State.reset : State where
  blk := .zero
  k1 := .zero
  k2 := .zero
  k3 := .zero
  k4 := .zero
  k5 := .zero
  bits := .zero
  candlen := 0
  cand := Vector.replicate 16 0
  res := .zero
  rbits := .zero
  trace := Vector.replicate 13 .zero
  tlen := 0
  sbox := Vector.replicate 16 0
  sinv := Vector.replicate 16 0
  pbox := Vector.replicate 16 0
  pinv := Vector.replicate 16 0
  busy := false
  done := false
  err := 0
  svalid := false
  pvalid := false
  pt := false
  ir := 0
  sc := 0
  st := Vector.replicate 4 0
  inputs := []
  rdata := none
  freeCount := 0

end Sys2Proof.Machine
end

