-- ==== Sys2Proof/Machine/Functions.lean ====
section
/-! DEFINITION. The pure functions of the datapath: the converter (R100, R101), the table check and inverse (R110, R111), the three round primitives (R125, R127, R129), the two ciphers and their traces (R149 to R152, R171). -/

namespace Sys2Proof.Machine

/-- `w`, the block arity of a topology: 1 for toy, 4 for SPN (R8). -/
def arity : Topology → Nat
  | .toy => 1
  | .spn => 4

/-! ## The nibble-to-bit converter -/

/-- `nbit(n, j) = (n >> (3 − j)) & 1`, with `j` = 0 the most significant bit (R11). -/
def nbit (n : Nibble) (j : Nat) : Bool := (n >>> (3 - j)).getLsbD 0

/-- The four bits of a nibble, most significant first (R62). -/
def nibbleBits (n : Nibble) : BitString := [nbit n 0, nbit n 1, nbit n 2, nbit n 3]

/-- `toBits(B)` (R100). -/
def toBits (B : Block) : BitString := B.flatMap nibbleBits

/-- The nibble `8·a + 4·b + 2·c + d` (R101). -/
def nibbleOfBits (a b c d : Bool) : Nibble :=
  BitVec.ofNat 4 (8 * a.toNat + 4 * b.toNat + 2 * c.toNat + d.toNat)

/-- The nibbles of a bit sequence, four bits each, without the length check (R101). -/
def packNibbles : BitString → Block
  | a :: b :: c :: d :: rest => nibbleOfBits a b c d :: packNibbles rest
  | _ => []

/-- `toNibbles(V)`, which fails with InvalidLength when the length is not divisible by 4 (R101). -/
def toNibbles (V : BitString) : Except ErrorCode Block :=
  if V.length % 4 = 0 then .ok (packNibbles V) else .error .invalidLength

/-! ## Tables -/

/-- `IsPerm(c, N)`: right length, every entry in range, all entries distinct (R110). -/
abbrev IsPerm (c : List Nat) (N : Nat) : Prop :=
  c.length = N ∧ (∀ x ∈ c, x < N) ∧ c.Nodup

/-- `inverse(T)`, the table `I` with `I[T[i]] = i` (R111). -/
def inverse (T : List Nibble) : List Nibble :=
  (List.range T.length).foldl (fun I i => I.set (T.getD i 0).toNat (BitVec.ofNat 4 i))
    (List.replicate T.length 0)

/-! ## Round primitives -/

/-- The elementwise exclusive-or of two blocks (R125). -/
def xorBlocks (B K : Block) : Block := List.zipWith (fun b k => b ^^^ k) B K

/-- `mixKey(B, K)`, which fails with InvalidLength when the arities differ (R125). -/
def mixKey (B K : Block) : Except ErrorCode Block :=
  if B.length = K.length then .ok (xorBlocks B K) else .error .invalidLength

/-- `substitute(B, S)` (R127). -/
def substitute (B : Block) (S : List Nibble) : Block := B.map fun n => S.getD n.toNat 0

/-- Every bit `i` of `V` moved to position `P[i]` of a zeroed vector: `P[i]` is the destination
(R129, R130). -/
def relocate (V : BitString) (P : List Nibble) : BitString :=
  (List.range V.length).foldl (fun O i => O.set (P.getD i 0).toNat (V.getD i false))
    (List.replicate V.length false)

/-- `permute(B, P)` (R129). -/
def permute (B : Block) (P : List Nibble) : Block := packNibbles (relocate (toBits B) P)

/-! ## The two ciphers, as functions -/

/-- `encrypt_toy` (R149). -/
def encryptToy (B : Block) (S : List Nibble) (k1 k2 : Block) : Block :=
  xorBlocks (substitute (xorBlocks B k1) S) k2

/-- `decrypt_toy` (R150); `Si` is the inverse S-box. -/
def decryptToy (C : Block) (Si : List Nibble) (k1 k2 : Block) : Block :=
  xorBlocks (substitute (xorBlocks C k2) Si) k1

/-- One full SPN round: key mix, substitution, permutation (R151). -/
def roundSpn (S P : List Nibble) (x k : Block) : Block := permute (substitute (xorBlocks x k) S) P

/-- One full SPN round undone: permutation, substitution, key mix (R152). -/
def unroundSpn (Si Pi : List Nibble) (x k : Block) : Block :=
  xorBlocks (substitute (permute x Pi) Si) k

/-- `encrypt_spn` (R151). -/
def encryptSpn (B : Block) (S P : List Nibble) (k1 k2 k3 k4 k5 : Block) : Block :=
  let x := roundSpn S P B k1
  let x := roundSpn S P x k2
  let x := roundSpn S P x k3
  let x := substitute (xorBlocks x k4) S
  xorBlocks x k5

/-- `decrypt_spn` (R152); `Si`, `Pi` are the inverse tables. -/
def decryptSpn (C : Block) (Si Pi : List Nibble) (k1 k2 k3 k4 k5 : Block) : Block :=
  let x := xorBlocks C k5
  let x := xorBlocks (substitute x Si) k4
  let x := unroundSpn Si Pi x k3
  let x := unroundSpn Si Pi x k2
  unroundSpn Si Pi x k1

/-! ## The snapshot sequences (R171) -/

/-- The snapshots of a toy encryption (R171). -/
def encryptToyTrace (B : Block) (S : List Nibble) (k1 k2 : Block) : List Block :=
  let a := xorBlocks B k1
  let b := substitute a S
  [B, a, b, xorBlocks b k2]

/-- The snapshots of a toy decryption (R171). -/
def decryptToyTrace (C : Block) (Si : List Nibble) (k1 k2 : Block) : List Block :=
  let a := xorBlocks C k2
  let b := substitute a Si
  [C, a, b, xorBlocks b k1]

/-- The snapshots of an SPN encryption (R171). -/
def encryptSpnTrace (B : Block) (S P : List Nibble) (k1 k2 k3 k4 k5 : Block) : List Block :=
  let a1 := xorBlocks B k1
  let b1 := substitute a1 S
  let c1 := permute b1 P
  let a2 := xorBlocks c1 k2
  let b2 := substitute a2 S
  let c2 := permute b2 P
  let a3 := xorBlocks c2 k3
  let b3 := substitute a3 S
  let c3 := permute b3 P
  let a4 := xorBlocks c3 k4
  let b4 := substitute a4 S
  [B, a1, b1, c1, a2, b2, c2, a3, b3, c3, a4, b4, xorBlocks b4 k5]

/-- The snapshots of an SPN decryption (R171). -/
def decryptSpnTrace (C : Block) (Si Pi : List Nibble) (k1 k2 k3 k4 k5 : Block) : List Block :=
  let a5 := xorBlocks C k5
  let b4 := substitute a5 Si
  let a4 := xorBlocks b4 k4
  let c3 := permute a4 Pi
  let b3 := substitute c3 Si
  let a3 := xorBlocks b3 k3
  let c2 := permute a3 Pi
  let b2 := substitute c2 Si
  let a2 := xorBlocks b2 k2
  let c1 := permute a2 Pi
  let b1 := substitute c1 Si
  [C, a5, b4, a4, c3, b3, a3, c2, b2, a2, c1, b1, xorBlocks b1 k1]

end Sys2Proof.Machine
end

