-- ==== Sys2Proof/Machine/Operands.lean ====
section
/-! DEFINITION. How stages and checks read and write registers, key registers, tables and the working block (20_memory.md rule R78), and the word layout of every register (30_encoding.md rules R85 to R90). -/

namespace Sys2Proof.Machine

/-! ## Blocks in cells -/

/-- The Block of arity `w` in the first `w` of four nibble cells (R20). -/
def blockOf (w : Nat) (v : Vector Nibble 4) : Block := v.toList.take w

/-- Replace the cells below the arity of `B`, keep the others (R132 to R134). -/
def storeBlock (B : Block) (v : Vector Nibble 4) : Vector Nibble 4 :=
  Vector.ofFn fun i => B.getD i.val v[i]

/-- The cells of a Block, zero at and above its arity (R145, R147). -/
def fitBlock (B : Block) : Vector Nibble 4 := Vector.ofFn fun i => B.getD i.val 0

/-- The cells of a BitVector, zero at and above its length (R103). -/
def fitBits (V : BitString) : Vector Bool 16 := Vector.ofFn fun p => V.getD p.val false

/-- A block-valued register as the controller writes it: `len = w`, cells at and above `w` zero
(R25, R41, R85). -/
def blockReg (t : Topology) (v : Vector Nibble 4) : BlockReg :=
  { len := BitVec.ofNat 3 (arity t), nib := fitBlock (blockOf (arity t) v) }

/-- A bit-valued register as the controller writes it: `len = 4w`, positions at and above `4w`
zero (R86, R103). -/
def bitReg (t : Topology) (V : BitString) : BitReg :=
  { len := BitVec.ofNat 5 (4 * arity t), bit := fitBits V }

/-- The register holds a Block of the arity of the topology (R20). -/
def BlockReg.hasArity (r : BlockReg) (t : Topology) : Bool := r.len.toNat == arity t

/-- The register holds a BitVector of length `4w` (R21, R104). -/
def BitReg.hasLength (r : BitReg) (t : Topology) : Bool := r.len.toNat == 4 * arity t

/-! ## Key select -/

/-- The five key registers, by D00's 1-based numbers (R23). -/
inductive KeyIndex where
  | k1
  | k2
  | k3
  | k4
  | k5
deriving DecidableEq, Repr

/-- The key register a `k` field names: 1..5, none for 0, 6, 7 (R84). -/
def keyIndex (k : BitVec 3) : Option KeyIndex :=
  match k.toNat with
  | 1 => some .k1
  | 2 => some .k2
  | 3 => some .k3
  | 4 => some .k4
  | 5 => some .k5
  | _ => none

/-- `K[k]` (R23, R78 c). -/
def State.key (s : State) : KeyIndex → BlockReg
  | .k1 => s.k1
  | .k2 => s.k2
  | .k3 => s.k3
  | .k4 => s.k4
  | .k5 => s.k5

/-! ## The candidate -/

/-- The candidate sequence `CAND[0..CANDLEN−1]`, entries as unsigned integers (R38, R113). A
CANDLEN above 16 cannot be backed by entries: the sequence is then all sixteen cells (R36). -/
def State.candidate (s : State) : List Nat :=
  (s.cand.toList.map fun c => c.toNat).take s.candlen.toNat

/-- The entry check of VSBOX and VPBOX: CANDLEN is `N` and `IsPerm(CAND[0..CANDLEN−1], N)`
(R36, R110, R183). -/
def State.candidateOk (s : State) (N : Nat) : Bool :=
  decide (s.candlen.toNat = N) && decide (IsPerm s.candidate N)

/-- Cells 0..N−1 of a store hold the low four bits of the first `N` candidate entries, cells
N..15 are 0 (R113, R114, R78 e). -/
def forwardStore (cand : Vector Byte 16) (N : Nat) : Table :=
  Vector.ofFn fun i => if i.val < N then (cand[i]).setWidth 4 else 0

/-- The inverse store after `MemWrite(store, CAND[i], i)` for `i` in 0..N−1; cells N..15 are then
0 (R113, R114, R78 e). For a checked candidate every cell below `N` is written exactly once, so
the old contents do not show. -/
def inverseStore (cand : Vector Byte 16) (N : Nat) (old : Table) : Table :=
  let T := (List.range N).foldl
    (fun (T : Table) i => T.setIfInBounds (cand.getD i 0).toNat (BitVec.ofNat 4 i)) old
  Vector.ofFn fun i => if i.val < N then T[i] else 0

/-! ## Register words -/

/-- The 16-bit data field of four nibble cells: `nib[0]` is bits 15:12 (R63). -/
def nibData (v : Vector Nibble 4) : BitVec 16 := v[0] ++ (v[1] ++ (v[2] ++ v[3]))

/-- The four nibble cells of a data field (R63). -/
def nibCells (d : BitVec 16) : Vector Nibble 4 :=
  #v[d.extractLsb' 12 4, d.extractLsb' 8 4, d.extractLsb' 4 4, d.extractLsb' 0 4]

/-- The 16-bit data field of sixteen bit cells: position `p` is bit `15 − p` (R63). -/
def bitData (v : Vector Bool 16) : BitVec 16 :=
  v.toList.foldl (fun d b => (d <<< 1) ||| (BitVec.ofBool b).setWidth 16) 0

/-- The sixteen bit cells of a data field (R63). -/
def bitCells (d : BitVec 16) : Vector Bool 16 := Vector.ofFn fun p => d.getLsbD (15 - p.val)

/-- Word of a block-valued register: `len` in bits 18:16, data in 15:0 (R85). -/
def BlockReg.toWord (r : BlockReg) : BitVec 19 := r.len ++ nibData r.nib

/-- The block-valued register with a given word: all 19 bits are stored (R85). -/
def BlockReg.ofWord (x : BitVec 19) : BlockReg :=
  { len := x.extractLsb' 16 3, nib := nibCells (x.extractLsb' 0 16) }

/-- Word of a bit-valued register: `len` in bits 20:16, data in 15:0 (R86). -/
def BitReg.toWord (r : BitReg) : BitVec 21 := r.len ++ bitData r.bit

/-- The bit-valued register with a given word: all 21 bits are stored (R86). -/
def BitReg.ofWord (x : BitVec 21) : BitReg :=
  { len := x.extractLsb' 16 5, bit := bitCells (x.extractLsb' 0 16) }

end Sys2Proof.Machine
end

