-- ==== Sys2Proof/Machine/Flags.lean ====
section
/-! DEFINITION. The STATUS register: its flags, who writes them, and its word (10_state.md rules R27 to R34). There are no other flags (R32, R140). -/

namespace Sys2Proof.Machine

/-- The code of an error in STATUS.ERR (R181). -/
def ErrorCode.code : ErrorCode → BitVec 3
  | .invalidTable => 1
  | .invalidLength => 2
  | .tableNotReady => 3
  | .illegalCommand => 4

/-- STATUS as read: BUSY bit 0, DONE bit 1, ERR bits 4:2, SVALID bit 5, PVALID bit 6, PT bit 7
(R34, R88). -/
def State.statusWord (s : State) : BitVec 8 :=
  BitVec.ofBool s.pt ++ (BitVec.ofBool s.pvalid ++ (BitVec.ofBool s.svalid ++
    (s.err ++ (BitVec.ofBool s.done ++ BitVec.ofBool s.busy))))

/-- DONE and ERR are cleared, as every accept step does before it decodes (R28, R29, R145). -/
def clearOutcome (s : State) : State := { s with done := false, err := 0 }

/-- BUSY is set and SC is 0: a command passed its entry checks (R26, R27, R145). -/
def setBusy (s : State) : State := { s with busy := true, sc := 0 }

/-- BUSY is cleared and DONE set: a command completed (R27, R28, R147). -/
def setDone (s : State) : State := { s with busy := false, done := true }

/-- ERR takes the code of the error and DONE is set: a command failed at entry (R28, R29, R182). -/
def setError (e : ErrorCode) (s : State) : State := { s with err := e.code, done := true }

/-- SVALID is cleared: a VSBOX was decoded (R30). -/
def clearSvalid (s : State) : State := { s with svalid := false }

/-- PVALID is cleared: a VPBOX was decoded (R31). PT keeps its value. -/
def clearPvalid (s : State) : State := { s with pvalid := false }

/-- SVALID is set: SBOX and SINV were built (R30). -/
def setSvalid (s : State) : State := { s with svalid := true }

/-- PVALID is set, and PT is the topology bit of the VPBOX (R31). -/
def setPvalid (t : Topology) (s : State) : State :=
  { s with pvalid := true, pt := topologyToBit t }

/-- SVALID = 1, which the S-box commands need (R30, R183). -/
def State.sboxReady (s : State) : Bool := s.svalid

/-- PVALID = 1 and PT = t, which the P-box commands need (R31, R183). -/
def State.pboxReady (s : State) (t : Topology) : Bool := s.pvalid && s.pt == topologyToBit t

end Sys2Proof.Machine
end

