-- ==== Sys2Proof/Machine/Ops.lean ====
section
/-! DEFINITION. The shared operations: raising an error, the stages, the snapshots, and the one lifecycle of every command: accept, controller step, completion (43_pipeline.md rules R145 to R148, 60_exceptions.md rule R182, 44_tracer.md rule R170). -/

namespace Sys2Proof.Machine

/-! ## Errors -/

/-- `raise E`: ERR takes the code, DONE is set, and the accept step ends there (R182). The
datapath goes nowhere: no saved context, no vector, no mode (R182, R188). -/
def raise (e : ErrorCode) (s : State) : State := setError e s

/-- The first lines of every accept step: IR latches the word, DONE and ERR are cleared (R145).
This is also all there is of a return from an error: the next accept clears it (R188). -/
def beginAccept (v : Byte) (s : State) : State := clearOutcome { s with ir := v }

/-- The accept step of a byte that does not decode: IllegalCommand, and nothing else changes
(R83, R145, R182). -/
def acceptIllegal (v : Byte) (s : State) : State := raise .illegalCommand (beginAccept v s)

/-! ## Stages -/

/-- The stages of the datapath, one application of one primitive each (R103, R104, R113, R114,
R132 to R134). -/
inductive Stage where
  /-- `CVTB`: BLK's bits to RBITS. -/
  | cvtb
  /-- `CVTN`: BITS' nibbles to ST. -/
  | cvtn
  /-- `BLDS`: build SBOX and SINV. -/
  | blds
  /-- `BLDP`: build PBOX and PINV. -/
  | bldp
  /-- `KMIX k`: mix key `k` into ST. -/
  | kmix (k : KeyIndex)
  /-- `SUBS`: substitute ST through SBOX. -/
  | subs
  /-- `SUBS⁻¹`: substitute ST through SINV. -/
  | subsInv
  /-- `PERM`: permute the bits of ST through PBOX. -/
  | perm
  /-- `PERM⁻¹`: permute the bits of ST through PINV. -/
  | permInv
deriving DecidableEq, Repr

/-- `CVTB` (R103). -/
def stageCvtb (t : Topology) (s : State) : State :=
  { s with rbits := bitReg t (toBits (blockOf (arity t) s.st)) }

/-- `CVTN` (R104). Bits at positions `>= 4w` are not read. -/
def stageCvtn (t : Topology) (s : State) : State :=
  { s with st := storeBlock (packNibbles (s.bits.bit.toList.take (4 * arity t))) s.st }

/-- `BLDS` (R113): all 32 cells and SVALID in one step. -/
def stageBlds (s : State) : State :=
  setSvalid { s with sbox := forwardStore s.cand 16, sinv := inverseStore s.cand 16 s.sinv }

/-- `BLDP` (R114): all 32 cells, PT and PVALID in one step. -/
def stageBldp (t : Topology) (s : State) : State :=
  setPvalid t { s with
    pbox := forwardStore s.cand (4 * arity t),
    pinv := inverseStore s.cand (4 * arity t) s.pinv }

/-- `KMIX k` (R132): `ST <- mixKey(ST, K[k])` on the `w` active lanes. -/
def stageKmix (t : Topology) (k : KeyIndex) (s : State) : State :=
  let B := xorBlocks (blockOf (arity t) s.st) (blockOf (arity t) (s.key k).nib)
  { s with st := storeBlock B s.st }

/-- `SUBS` and `SUBS⁻¹` (R133): every active lane looked up in the one store `T`. -/
def stageSubstitute (t : Topology) (T : Table) (s : State) : State :=
  { s with st := storeBlock (substitute (blockOf (arity t) s.st) T.toList) s.st }

/-- `PERM` and `PERM⁻¹` (R134), with cells 0..4w−1 of the store `T`. -/
def stagePermute (t : Topology) (T : Table) (s : State) : State :=
  let B := permute (blockOf (arity t) s.st) (T.toList.take (4 * arity t))
  { s with st := storeBlock B s.st }

/-- Run one stage of a command of topology `t` (R146). No stage can fail (R186). -/
def runStage (t : Topology) : Stage → State → State
  | .cvtb, s => stageCvtb t s
  | .cvtn, s => stageCvtn t s
  | .blds, s => stageBlds s
  | .bldp, s => stageBldp t s
  | .kmix k, s => stageKmix t k s
  | .subs, s => stageSubstitute t s.sbox s
  | .subsInv, s => stageSubstitute t s.sinv s
  | .perm, s => stagePermute t s.pbox s
  | .permInv, s => stagePermute t s.pinv s

/-! ## What the lifecycle needs to know of a command -/

/-- What the accept step loads into ST (R145). -/
inductive Load where
  /-- `ST[i] <- BLK.nib[i]` below `w`, 0 above: the block commands and TOBITS. -/
  | block
  /-- `ST[i] <- 0`: TONIB. -/
  | zero
  /-- ST unchanged: VSBOX, VPBOX. -/
  | keep
deriving DecidableEq, Repr

/-- A decoded command, as the accept step, the controller step and the completion see it. -/
structure Command where
  /-- The byte the accept step latches in IR. -/
  word : Byte
  /-- The topology, hence `w`. -/
  topo : Topology
  /-- The valid bit cleared at accept, before the checks (VSBOX, VPBOX; else nothing). -/
  clear : State → State
  /-- The entry checks in their order: the first that fails, or none (R183). -/
  check : State → Option ErrorCode
  /-- What ST is loaded with. -/
  load : Load
  /-- The stage list (R148). -/
  stages : List Stage
  /-- Whether snapshots are recorded (ENCT, DECT). -/
  traced : Bool
  /-- Whether completion writes RES (R147). -/
  writesRes : Bool

/-- One entry check: none when it holds, else the error (R183). -/
def require (b : Bool) (e : ErrorCode) : Option ErrorCode := if b then none else some e

/-- Entry checks from left to right: the first that fails (R183). -/
def firstError : List (Option ErrorCode) → Option ErrorCode
  | [] => none
  | some e :: _ => some e
  | none :: rest => firstError rest

/-! ## Snapshots -/

/-- `TRACE[TLEN] <- (w, ST)`, `TLEN <- TLEN + 1` (R146, R170). TRACE has cells 0..12 only. -/
def snapshot (t : Topology) (s : State) : Host.Outcome State Fault Refusal :=
  if h : s.tlen.toNat < 13 then
    .next { s with trace := s.trace.set s.tlen.toNat (blockReg t s.st) h, tlen := s.tlen + 1 }
  else .fault .noSuchSnapshot

/-- `TRACE[0] <- (w, ST)`, `TLEN <- 1` at the accept of a traced command (R145, R170). -/
def firstSnapshot (t : Topology) (s : State) : State :=
  { s with trace := s.trace.set 0 (blockReg t s.st), tlen := 1 }

/-! ## Accept, controller step, completion -/

/-- The load of ST at accept (R145). -/
def loadWork (t : Topology) (l : Load) (s : State) : State :=
  match l with
  | .block => { s with st := fitBlock (blockOf (arity t) s.blk.nib) }
  | .zero => { s with st := Vector.replicate 4 0 }
  | .keep => s

/-- The part of the accept step after all checks have passed (R145). -/
def begin (c : Command) (s : State) : State :=
  let s := loadWork c.topo c.load (setBusy s)
  if c.traced then firstSnapshot c.topo s else s

/-- `Accept(v)` of a legal command (R145): latch, clear, check, then either raise or begin. No stage
runs here. -/
def accept (c : Command) (s : State) : State :=
  let s := c.clear (beginAccept c.word s)
  match c.check s with
  | some e => raise e s
  | none => begin c s

/-- `Complete(d)` (R147): RES, then BUSY and DONE. ERR is still 0 from accept. -/
def complete (c : Command) (s : State) : State :=
  setDone (if c.writesRes then { s with res := blockReg c.topo s.st } else s)

/-- The end of a controller step: SC advances, and the step that ran the last stage completes the
command (R146). -/
def advance (c : Command) (s : State) : State :=
  let s := { s with sc := s.sc + 1 }
  if s.sc.toNat = c.stages.length then complete c s else s

/-- `Step()` (R146): run stage `L[SC]`, record the snapshot of a traced command, advance. -/
def controllerStep (c : Command) (s : State) : Host.Outcome State Fault Refusal :=
  match c.stages[s.sc.toNat]? with
  | none => .fault .noSuchStage
  | some stage =>
    let s := runStage c.topo stage s
    if c.traced then
      match snapshot c.topo s with
      | .next s => .next (advance c s)
      | .fault r => .fault r
      | .refused r => .refused r
    else .next (advance c s)

/-- One atomic step of a command: its accept step while the datapath is idle, its next controller
step while it is running (R145, R146). Every meaning is this operation on the command's own
entry checks and stage list. -/
def lifecycle (c : Command) (s : State) : Host.Outcome State Fault Refusal :=
  if s.busy then controllerStep c s else .next (accept c s)

/-! ## Reset -/

/-- A block-valued register after a reset event: tag 0, cells free (R201, U1). -/
def freeBlockReg (n reg : Nat) : BlockReg :=
  { BlockReg.ofWord ((Config.resetWord n reg).setWidth 19) with len := 0 }

/-- A bit-valued register after a reset event: tag 0, cells free (R201, U1). -/
def freeBitReg (n reg : Nat) : BitReg :=
  { BitReg.ofWord (Config.resetWord n reg) with len := 0 }

/-- A table store after a reset event: cells free (R201, U1). -/
def freeTable (n base : Nat) : Table :=
  Vector.ofFn fun i => (Config.resetWord n (base + i.val)).setWidth 4

/-- The reset event (R200, R201): whatever the state, a running command is abandoned, every flag,
tag, counter and IR is 0, and every data cell holds a free value (U1). The host's pending inputs
are not part of the datapath and stay. -/
def resetEvent (s : State) : State where
  blk := freeBlockReg s.freeCount 0x02
  k1 := freeBlockReg s.freeCount 0x04
  k2 := freeBlockReg s.freeCount 0x05
  k3 := freeBlockReg s.freeCount 0x06
  k4 := freeBlockReg s.freeCount 0x07
  k5 := freeBlockReg s.freeCount 0x08
  bits := freeBitReg s.freeCount 0x03
  candlen := 0
  cand := Vector.ofFn fun i => (Config.resetWord s.freeCount (0x10 + i.val)).setWidth 8
  res := freeBlockReg s.freeCount 0x09
  rbits := freeBitReg s.freeCount 0x0A
  trace := Vector.ofFn fun j =>
    BlockReg.ofWord ((Config.resetWord s.freeCount (0x20 + j.val)).setWidth 19)
  tlen := 0
  sbox := freeTable s.freeCount 0x30
  sinv := freeTable s.freeCount 0x40
  pbox := freeTable s.freeCount 0x50
  pinv := freeTable s.freeCount 0x60
  busy := false
  done := false
  err := 0
  svalid := false
  pvalid := false
  pt := false
  ir := 0
  sc := 0
  st := nibCells ((Config.resetWord s.freeCount 0x80).setWidth 16)
  inputs := s.inputs
  rdata := s.rdata
  freeCount := s.freeCount + 1

end Sys2Proof.Machine
end

