-- ==== Sys2Proof/Machine/Converter.lean ====
section
/-! DEFINITION. The converter commands TOBITS and TONIB (40_bitconverter.md rules R103, R104). -/

namespace Sys2Proof.Machine

/-- TOBITS as a command (R103, R145, R148, R183). -/
def tobitsCommand (t : Topology) : Command where
  word := encode (.tobits t)
  topo := t
  clear := id
  check := fun s => require (s.blk.hasArity t) .invalidLength
  load := .block
  stages := [.cvtb]
  traced := false
  writesRes := false

/-- TOBITS (R103). -/
def execTobits (t : Topology) (s : State) : Host.Outcome State Fault Refusal :=
  lifecycle (tobitsCommand t) s

/-- TONIB as a command (R104, R145, R148, R183). The two length checks of R104 collapse to
`BITS.len = 4w`. -/
def tonibCommand (t : Topology) : Command where
  word := encode (.tonib t)
  topo := t
  clear := id
  check := fun s => require (s.bits.hasLength t) .invalidLength
  load := .zero
  stages := [.cvtn]
  traced := false
  writesRes := true

/-- TONIB (R104). -/
def execTonib (t : Topology) (s : State) : Host.Outcome State Fault Refusal :=
  lifecycle (tonibCommand t) s

end Sys2Proof.Machine
end

