-- ==== Sys2Proof/Machine/Pipeline.lean ====
section
/-! DEFINITION. The cipher pipelines ENC and DEC: their entry checks and their stage lists (43_pipeline.md rules R149 to R154). -/

namespace Sys2Proof.Machine

/-- The entry checks of ENC, ENCT, DEC, DECT (R183). The toy pipelines check no P-box and not K3,
K4, K5 (90_conflicts.md C1, C5). -/
def pipelineCheck (t : Topology) (s : State) : Option ErrorCode :=
  match t with
  | .toy =>
    firstError
      [require s.sboxReady .tableNotReady,
        require (s.blk.hasArity .toy) .invalidLength,
        require (s.k1.hasArity .toy) .invalidLength,
        require (s.k2.hasArity .toy) .invalidLength]
  | .spn =>
    firstError
      [require s.sboxReady .tableNotReady,
        require (s.pboxReady .spn) .tableNotReady,
        require (s.blk.hasArity .spn) .invalidLength,
        require (s.k1.hasArity .spn) .invalidLength,
        require (s.k2.hasArity .spn) .invalidLength,
        require (s.k3.hasArity .spn) .invalidLength,
        require (s.k4.hasArity .spn) .invalidLength,
        require (s.k5.hasArity .spn) .invalidLength]

/-- The encryption stage list: three stages for toy (R149), twelve for SPN (R151). -/
def encryptStages : Topology → List Stage
  | .toy => [.kmix .k1, .subs, .kmix .k2]
  | .spn =>
    [.kmix .k1, .subs, .perm,
      .kmix .k2, .subs, .perm,
      .kmix .k3, .subs, .perm,
      .kmix .k4, .subs,
      .kmix .k5]

/-- The decryption stage list: three stages for toy (R150), twelve for SPN (R152). -/
def decryptStages : Topology → List Stage
  | .toy => [.kmix .k2, .subsInv, .kmix .k1]
  | .spn =>
    [.kmix .k5,
      .subsInv, .kmix .k4,
      .permInv, .subsInv, .kmix .k3,
      .permInv, .subsInv, .kmix .k2,
      .permInv, .subsInv, .kmix .k1]

/-- ENC as a command (R153, R145, R148, R183). -/
def encCommand (t : Topology) : Command where
  word := encode (.enc t)
  topo := t
  clear := id
  check := pipelineCheck t
  load := .block
  stages := encryptStages t
  traced := false
  writesRes := true

/-- ENC (R153). -/
def execEnc (t : Topology) (s : State) : Host.Outcome State Fault Refusal :=
  lifecycle (encCommand t) s

/-- DEC as a command (R154, R145, R148, R183). -/
def decCommand (t : Topology) : Command where
  word := encode (.dec t)
  topo := t
  clear := id
  check := pipelineCheck t
  load := .block
  stages := decryptStages t
  traced := false
  writesRes := true

/-- DEC (R154). -/
def execDec (t : Topology) (s : State) : Host.Outcome State Fault Refusal :=
  lifecycle (decCommand t) s

end Sys2Proof.Machine
end

