-- ==== Sys2Proof/Machine/Primitives.lean ====
section
/-! DEFINITION. The round primitive commands MIXKEY, SUB, SUBI, PERM, PERMI (42_round_primitives.md rules R135 to R139). -/

namespace Sys2Proof.Machine

/-- The entry checks of MIXKEY (R183): the arity of BLK, then that of the named key register. A key
field of 0, 6 or 7 makes the byte illegal (R83), so that term raises IllegalCommand. -/
def mixkeyCheck (t : Topology) (k : BitVec 3) (s : State) : Option ErrorCode :=
  match keyIndex k with
  | none => some .illegalCommand
  | some i =>
    firstError
      [require (s.blk.hasArity t) .invalidLength, require ((s.key i).hasArity t) .invalidLength]

/-- The stage list of MIXKEY (R148). -/
def mixkeyStages (k : BitVec 3) : List Stage :=
  match keyIndex k with
  | none => []
  | some i => [.kmix i]

/-- MIXKEY as a command (R135, R145, R148, R183). -/
def mixkeyCommand (t : Topology) (k : BitVec 3) : Command where
  word := encode (.mixkey t k)
  topo := t
  clear := id
  check := mixkeyCheck t k
  load := .block
  stages := mixkeyStages k
  traced := false
  writesRes := true

/-- MIXKEY (R135). -/
def execMixkey (t : Topology) (k : BitVec 3) (s : State) : Host.Outcome State Fault Refusal :=
  lifecycle (mixkeyCommand t k) s

/-- The entry checks of SUB and SUBI (R183). -/
def substitutionCheck (t : Topology) (s : State) : Option ErrorCode :=
  firstError
    [require s.sboxReady .tableNotReady, require (s.blk.hasArity t) .invalidLength]

/-- The entry checks of PERM and PERMI (R183). -/
def permutationCheck (t : Topology) (s : State) : Option ErrorCode :=
  firstError
    [require (s.pboxReady t) .tableNotReady, require (s.blk.hasArity t) .invalidLength]

/-- SUB as a command (R136, R145, R148, R183). -/
def subCommand (t : Topology) : Command where
  word := encode (.sub t)
  topo := t
  clear := id
  check := substitutionCheck t
  load := .block
  stages := [.subs]
  traced := false
  writesRes := true

/-- SUB (R136). -/
def execSub (t : Topology) (s : State) : Host.Outcome State Fault Refusal :=
  lifecycle (subCommand t) s

/-- SUBI as a command (R137, R145, R148, R183). -/
def subiCommand (t : Topology) : Command where
  word := encode (.subi t)
  topo := t
  clear := id
  check := substitutionCheck t
  load := .block
  stages := [.subsInv]
  traced := false
  writesRes := true

/-- SUBI (R137). -/
def execSubi (t : Topology) (s : State) : Host.Outcome State Fault Refusal :=
  lifecycle (subiCommand t) s

/-- PERM as a command (R138, R145, R148, R183). -/
def permCommand (t : Topology) : Command where
  word := encode (.perm t)
  topo := t
  clear := id
  check := permutationCheck t
  load := .block
  stages := [.perm]
  traced := false
  writesRes := true

/-- PERM (R138). -/
def execPerm (t : Topology) (s : State) : Host.Outcome State Fault Refusal :=
  lifecycle (permCommand t) s

/-- PERMI as a command (R139, R145, R148, R183). -/
def permiCommand (t : Topology) : Command where
  word := encode (.permi t)
  topo := t
  clear := id
  check := permutationCheck t
  load := .block
  stages := [.permInv]
  traced := false
  writesRes := true

/-- PERMI (R139). -/
def execPermi (t : Topology) (s : State) : Host.Outcome State Fault Refusal :=
  lifecycle (permiCommand t) s

end Sys2Proof.Machine
end

