-- ==== Sys2Proof/Machine/Tables.lean ====
section
/-! DEFINITION. The table commands VSBOX and VPBOX (41_tables.md rules R113, R114). -/

namespace Sys2Proof.Machine

/-- VSBOX as a command (R113, R145, R148, R183). It has no topology; bit `t` of its byte is 0. -/
def vsboxCommand : Command where
  word := encode .vsbox
  topo := .toy
  clear := clearSvalid
  check := fun s => require (s.candidateOk 16) .invalidTable
  load := .keep
  stages := [.blds]
  traced := false
  writesRes := false

/-- VSBOX (R113). -/
def execVsbox (s : State) : Host.Outcome State Fault Refusal := lifecycle vsboxCommand s

/-- VPBOX as a command (R114, R145, R148, R183). -/
def vpboxCommand (t : Topology) : Command where
  word := encode (.vpbox t)
  topo := t
  clear := clearPvalid
  check := fun s => require (s.candidateOk (4 * arity t)) .invalidTable
  load := .keep
  stages := [.bldp]
  traced := false
  writesRes := false

/-- VPBOX (R114). -/
def execVpbox (t : Topology) (s : State) : Host.Outcome State Fault Refusal :=
  lifecycle (vpboxCommand t) s

end Sys2Proof.Machine
end

