-- ==== Sys2Proof/Machine/Tracer.lean ====
section
/-! DEFINITION. The traced pipelines ENCT and DECT (44_tracer.md rules R170 to R173). -/

namespace Sys2Proof.Machine

/-- ENCT as a command: ENC with snapshots (R172). -/
def enctCommand (t : Topology) : Command where
  word := encode (.enct t)
  topo := t
  clear := id
  check := pipelineCheck t
  load := .block
  stages := encryptStages t
  traced := true
  writesRes := true

/-- ENCT (R172). -/
def execEnct (t : Topology) (s : State) : Host.Outcome State Fault Refusal :=
  lifecycle (enctCommand t) s

/-- DECT as a command: DEC with snapshots (R173). -/
def dectCommand (t : Topology) : Command where
  word := encode (.dect t)
  topo := t
  clear := id
  check := pipelineCheck t
  load := .block
  stages := decryptStages t
  traced := true
  writesRes := true

/-- DECT (R173). -/
def execDect (t : Topology) (s : State) : Host.Outcome State Fault Refusal :=
  lifecycle (dectCommand t) s

end Sys2Proof.Machine
end

