-- ==== Sys2Proof/Machine/Dispatch.lean ====
section
/-! DEFINITION. `exec i s` is one atomic step of the command `i`: its accept step while the datapath is idle, its next controller step while it is running (43_pipeline.md rules R145, R146; log entry 2). -/

namespace Sys2Proof.Machine

def exec (i : Instr) (s : State) : Host.Outcome State Fault Refusal :=
  match i with
  | .tobits t => Sys2Proof.Machine.execTobits t s
  | .tonib t => Sys2Proof.Machine.execTonib t s
  | .vsbox => Sys2Proof.Machine.execVsbox s
  | .vpbox t => Sys2Proof.Machine.execVpbox t s
  | .mixkey t k => Sys2Proof.Machine.execMixkey t k s
  | .sub t => Sys2Proof.Machine.execSub t s
  | .subi t => Sys2Proof.Machine.execSubi t s
  | .perm t => Sys2Proof.Machine.execPerm t s
  | .permi t => Sys2Proof.Machine.execPermi t s
  | .enc t => Sys2Proof.Machine.execEnc t s
  | .enct t => Sys2Proof.Machine.execEnct t s
  | .dec t => Sys2Proof.Machine.execDec t s
  | .dect t => Sys2Proof.Machine.execDect t s

end Sys2Proof.Machine
end

