-- ==== Sys2Proof/Machine/HostPort.lean ====
section
/-! DEFINITION. The host's side: the register map, host reads and writes, the command write, and D00's operations as host sequences (20_memory.md rules R69, R70, 70_reset_and_hazards.md rule R204, 30_encoding.md rules R90 to R93). -/

namespace Sys2Proof.Machine

/-- The mapped registers (R69). -/
inductive Reg where
  | cmd
  | status
  | blk
  | bits
  | key (k : KeyIndex)
  | res
  | rbits
  | tlen
  | candlen
  | cand (i : Fin 16)
  | trace (j : Fin 13)
  | sbox (i : Fin 16)
  | sinv (i : Fin 16)
  | pbox (i : Fin 16)
  | pinv (i : Fin 16)
deriving DecidableEq, Repr

/-- The control and operand registers in 0x00 to 0x0C; 0x0D to 0x0F are unmapped (R69). -/
def lowRegister (n : Nat) : Option Reg :=
  match n with
  | 0 => some .cmd
  | 1 => some .status
  | 2 => some .blk
  | 3 => some .bits
  | 4 => some (.key .k1)
  | 5 => some (.key .k2)
  | 6 => some (.key .k3)
  | 7 => some (.key .k4)
  | 8 => some (.key .k5)
  | 9 => some .res
  | 10 => some .rbits
  | 11 => some .tlen
  | 12 => some .candlen
  | _ => none

/-- The register a 7-bit register number names, none for the 22 unmapped numbers (R69). -/
def registerOf (r : BitVec 7) : Option Reg :=
  let i : Fin 16 := ⟨r.toNat % 16, Nat.mod_lt _ (by decide)⟩
  match r.toNat / 16 with
  | 0 => lowRegister (r.toNat % 16)
  | 1 => some (.cand i)
  | 2 => if h : r.toNat % 16 < 13 then some (.trace ⟨r.toNat % 16, h⟩) else none
  | 3 => some (.sbox i)
  | 4 => some (.sinv i)
  | 5 => some (.pbox i)
  | 6 => some (.pinv i)
  | _ => none

/-- The register's word as an integer (R85 to R89). A read of CMD returns IR (R33). -/
def readRegister (r : Reg) (s : State) : Nat :=
  match r with
  | .cmd => s.ir.toNat
  | .status => s.statusWord.toNat
  | .blk => s.blk.toWord.toNat
  | .bits => s.bits.toWord.toNat
  | .key k => (s.key k).toWord.toNat
  | .res => s.res.toWord.toNat
  | .rbits => s.rbits.toWord.toNat
  | .tlen => s.tlen.toNat
  | .candlen => s.candlen.toNat
  | .cand i => s.cand[i].toNat
  | .trace j => s.trace[j].toWord.toNat
  | .sbox i => s.sbox[i].toNat
  | .sinv i => s.sinv[i].toNat
  | .pbox i => s.pbox[i].toNat
  | .pinv i => s.pinv[i].toNat

/-- A host read (R70): it returns the register's word and changes nothing of the datapath; an
unmapped number returns a free value (U2). -/
def hostRead (r : BitVec 7) (s : State) : State :=
  match registerOf r with
  | some reg => { s with rdata := some (readRegister reg s) }
  | none =>
    { s with
      rdata := some (Config.unmappedRead s.freeCount r.toNat), freeCount := s.freeCount + 1 }

/-- Replace a key register (R23). -/
def setKey (k : KeyIndex) (b : BlockReg) (s : State) : State :=
  match k with
  | .k1 => { s with k1 := b }
  | .k2 => { s with k2 := b }
  | .k3 => { s with k3 := b }
  | .k4 => { s with k4 := b }
  | .k5 => { s with k5 := b }

/-- A write to a register while BUSY = 0, truncated to its width (R70, R90). A write to a
read-only register is dropped; CMD is no storage (R33). -/
def writeRegister (r : Reg) (v : Nat) (s : State) : State :=
  match r with
  | .blk => { s with blk := BlockReg.ofWord (BitVec.ofNat 19 v) }
  | .bits => { s with bits := BitReg.ofWord (BitVec.ofNat 21 v) }
  | .key k => setKey k (BlockReg.ofWord (BitVec.ofNat 19 v)) s
  | .candlen => { s with candlen := BitVec.ofNat 5 v }
  | .cand i => { s with cand := s.cand.set i.val (BitVec.ofNat 8 v) }
  | .cmd => s
  | .status => s
  | .res => s
  | .rbits => s
  | .tlen => s
  | .trace _ => s
  | .sbox _ => s
  | .sinv _ => s
  | .pbox _ => s
  | .pinv _ => s

/-- A host write that is no accept: dropped while BUSY = 1 (R204) and for an unmapped number (R70). -/
def hostWrite (r : BitVec 7) (v : Nat) (s : State) : State :=
  if s.busy then s
  else
    match registerOf r with
    | some reg => writeRegister reg v s
    | none => s

/-- The byte a host write hands to the accept step: a write to CMD while BUSY = 0, truncated to 8
bits (R33, R90). While BUSY = 1 there is none (R204). -/
def commandWrite (r : BitVec 7) (v : Nat) (s : State) : Option Byte :=
  if s.busy = false ∧ registerOf r = some .cmd then some (BitVec.ofNat 8 v) else none

/-- Register number of CMD (R69). -/
def cmdNumber : BitVec 7 := 0x00

/-- Register number of STATUS (R69). -/
def statusNumber : BitVec 7 := 0x01

/-- Register number of TLEN (R69). -/
def tlenNumber : BitVec 7 := 0x0B

/-- `RD TRACE[j]` for the `j` below `n`, in order (R93). -/
def traceReads (n : Nat) : List Event :=
  (List.range n).map fun j => .read (BitVec.ofNat 7 (0x20 + j))

/-- The state in which the next step runs the byte `w`: the machine is idle and the host's next
access is the write of the low `nbits` bits of `w` to CMD (R145). -/
def placeCommand (s : State) (nbits w : Nat) : State :=
  { s with busy := false, inputs := .write cmdNumber (w % 2 ^ nbits) :: s.inputs }

/-! ## D00's operations as host sequences (R93)

A sequence is none where the operands have no registers to stand in: the host driver then fails the
call itself and makes no access (R90, R93, U12; log entries 17 and 18). -/

/-- `CMD command` (R92). -/
def issue (i : Instr) : Event := .write cmdNumber (encode i).toNat

/-- `CMD command; WAIT; RD STATUS` (R93). -/
def issueAndWait (i : Instr) : List Event := [issue i, .wait, .read statusNumber]

/-- The accesses of a call whose operands can be presented, none of a call that fails at the host. -/
def presentWhen (ok : Bool) (accesses : List Event) : Option (List Event) :=
  if ok then some accesses else none

/-! ### Tables -/

/-- The candidate can be presented: every entry fits a cell of CAND (R38, R90, U12), and the length
fits CANDLEN (R36). DESIGN CHOICE, log entry 17: the spec names no sequence for a longer one. -/
def candidatePresentable (c : List Nat) : Bool :=
  decide (c.length < 32) && c.all fun v => decide (v < 256)

/-- `WR CANDLEN, len(candidate)`; `WR CAND[i], candidate[i]` for each `i < min(len, 16)` (R93). -/
def writeCandidate (c : List Nat) : List Event :=
  .write 0x0C c.length :: (c.take 16).mapIdx fun i v => .write (BitVec.ofNat 7 (0x10 + i)) v

/-- `validateSBox(candidate)` (R93). -/
def validateSBoxSequence (c : List Nat) : Option (List Event) :=
  presentWhen (candidatePresentable c) (writeCandidate c ++ issueAndWait .vsbox)

/-- `validatePBox(candidate)` (R93). -/
def validatePBoxSequence (t : Topology) (c : List Nat) : Option (List Event) :=
  presentWhen (candidatePresentable c) (writeCandidate c ++ issueAndWait (.vpbox t))

/-! ### Blocks and bit vectors -/

/-- The length of a Block fits the tag of a block-valued register (R20). DESIGN CHOICE, log entry 18:
the spec gives no word of a Block of eight nibbles or more, and the call fails at the host. -/
def blockPresentable (B : Block) : Bool := decide (B.length < 8)

/-- The length of a BitVector fits the tag of a bit-valued register (R21). DESIGN CHOICE, log entry
18, for a longer one, as for a Block. -/
def bitsPresentable (V : BitString) : Bool := decide (V.length < 32)

/-- The word of a Block with its own length as the tag, left-aligned (R65, R85). DESIGN CHOICE, log
entry 18, for a Block of five to seven nibbles, whose word the spec does not give: its own length
is the tag, which matches no topology (R20), and the nibbles from the fifth on have no cell. A
longer Block has no word, and no sequence presents one (`blockPresentable`). -/
def blockWord (B : Block) : Nat :=
  ({ len := BitVec.ofNat 3 B.length, nib := fitBlock B } : BlockReg).toWord.toNat

/-- The word of a BitVector with its own length as the tag (R86). DESIGN CHOICE, log entry 18, for
one of 17 to 31 bits: the bits from position 16 on have no cell. -/
def bitsWord (V : BitString) : Nat :=
  ({ len := BitVec.ofNat 5 V.length, bit := fitBits V } : BitReg).toWord.toNat

/-- `WR BLK, {len(block), block}` (R93). -/
def writeBlk (B : Block) : Event := .write 0x02 (blockWord B)

/-- Register number of `K[k]` (R69). -/
def keyNumber : KeyIndex → BitVec 7
  | .k1 => 0x04
  | .k2 => 0x05
  | .k3 => 0x06
  | .k4 => 0x07
  | .k5 => 0x08

/-- The `k` field that names `K[k]` (R84). -/
def keyField : KeyIndex → BitVec 3
  | .k1 => 1
  | .k2 => 2
  | .k3 => 3
  | .k4 => 4
  | .k5 => 5

/-! ### The component functions (R93, last paragraph) -/

/-- The sequence of a function of one Block: `WR BLK`, the command, `RD` of the result register. -/
def blockCallSequence (i : Instr) (result : BitVec 7) (B : Block) : Option (List Event) :=
  presentWhen (blockPresentable B) (writeBlk B :: issueAndWait i ++ [.read result])

/-- `toBits(block)` (R93, R103). -/
def toBitsSequence (t : Topology) (B : Block) : Option (List Event) :=
  blockCallSequence (.tobits t) 0x0A B

/-- `toNibbles(bits)` (R93, R104). -/
def toNibblesSequence (t : Topology) (V : BitString) : Option (List Event) :=
  presentWhen (bitsPresentable V)
    (.write 0x03 (bitsWord V) :: issueAndWait (.tonib t) ++ [.read 0x09])

/-- `substitute(block, sbox)`, the table being in the store (R93, R136). -/
def substituteSequence (t : Topology) (B : Block) : Option (List Event) :=
  blockCallSequence (.sub t) 0x09 B

/-- `substitute(block, sbox⁻¹)` (R93, R137). -/
def substituteInvSequence (t : Topology) (B : Block) : Option (List Event) :=
  blockCallSequence (.subi t) 0x09 B

/-- `permute(block, pbox)`, the table being in the store (R93, R138). -/
def permuteSequence (t : Topology) (B : Block) : Option (List Event) :=
  blockCallSequence (.perm t) 0x09 B

/-- `permute(block, pbox⁻¹)` (R93, R139). -/
def permuteInvSequence (t : Topology) (B : Block) : Option (List Event) :=
  blockCallSequence (.permi t) 0x09 B

/-- `mixKey(block, key)` through the key register `K[k]` (R93, R135). -/
def mixKeySequence (t : Topology) (k : KeyIndex) (B K : Block) : Option (List Event) :=
  presentWhen (blockPresentable B && blockPresentable K)
    (writeBlk B :: .write (keyNumber k) (blockWord K) ::
      issueAndWait (.mixkey t (keyField k)) ++ [.read 0x09])

/-! ### The pipelines -/

/-- The number of round keys of a topology, NK: 2 for toy, 5 for SPN (R8, R93). -/
def keyCount : Topology → Nat
  | .toy => 2
  | .spn => 5

/-- The operands of a pipeline can be presented: the key list has exactly NK keys, since a list of
another length has no registers (R93), and every Block has a word. -/
def operandsPresentable (t : Topology) (B : Block) (keys : List Block) : Bool :=
  decide (keys.length = keyCount t) && blockPresentable B && keys.all blockPresentable

/-- `WR BLK, {len(block), block}`; `WR Kk, {len(keys[k−1]), keys[k−1]}` for each key (R93). -/
def writeOperands (B : Block) (keys : List Block) : List Event :=
  writeBlk B :: keys.mapIdx fun i k => .write (BitVec.ofNat 7 (0x04 + i)) (blockWord k)

/-- The sequence of a pipeline: the operands, the command, `RD RES`, then `more` (R93). -/
def pipelineSequence (i : Instr) (t : Topology) (B : Block) (keys : List Block)
    (more : List Event) : Option (List Event) :=
  presentWhen (operandsPresentable t B keys)
    (writeOperands B keys ++ issueAndWait i ++ .read 0x09 :: more)

/-- `encrypt(block, sbox, pbox?, keys)`, the tables being in the stores (R93). -/
def encryptSequence (t : Topology) (B : Block) (keys : List Block) : Option (List Event) :=
  pipelineSequence (.enc t) t B keys []

/-- `decrypt(block, sbox⁻¹, pbox⁻¹?, keys)` (R93). -/
def decryptSequence (t : Topology) (B : Block) (keys : List Block) : Option (List Event) :=
  pipelineSequence (.dec t) t B keys []

/-- `encryptWithTrace(...)`: as `encrypt`, then `RD TLEN` and `RD TRACE[j]` for `j < TLEN` (R93). -/
def encryptWithTraceSequence (t : Topology) (B : Block) (keys : List Block) :
    Option (List Event) :=
  pipelineSequence (.enct t) t B keys [.readTrace]

/-- `decryptWithTrace(...)` (R93). -/
def decryptWithTraceSequence (t : Topology) (B : Block) (keys : List Block) :
    Option (List Event) :=
  pipelineSequence (.dect t) t B keys [.readTrace]

/-! ### What a call gives (R93, the output and failure columns) -/

/-- The output `x` of a call that ended with ERR = 0, else the code in ERR (R93). -/
def callResult {α : Type} (x : α) (s : State) : Except (BitVec 3) α :=
  if s.err = 0 then .ok x else .error s.err

/-- The Block a block-valued register holds (R20). -/
def BlockReg.toBlock (r : BlockReg) : Block := blockOf r.len.toNat r.nib

/-- The output of `validateSBox`: the table and its inverse (R93). -/
def sboxResult (s : State) : Except (BitVec 3) (List Nibble × List Nibble) :=
  callResult (s.sbox.toList, s.sinv.toList) s

/-- The output of `validatePBox`: cells 0..4w−1 of the table and of its inverse (R93). -/
def pboxResult (t : Topology) (s : State) : Except (BitVec 3) (List Nibble × List Nibble) :=
  callResult (s.pbox.toList.take (4 * arity t), s.pinv.toList.take (4 * arity t)) s

/-- The output of `toBits`: the BitVector in RBITS (R21, R93). -/
def bitsResult (s : State) : Except (BitVec 3) BitString :=
  callResult (s.rbits.bit.toList.take s.rbits.len.toNat) s

/-- The output of every call that ends in a Block: the one in RES (R93). -/
def blockResult (s : State) : Except (BitVec 3) Block := callResult s.res.toBlock s

/-- The output of a traced call: the Block in RES and TRACE[0..TLEN−1] (R93). -/
def traceResult (s : State) : Except (BitVec 3) (Block × List Block) :=
  callResult (s.res.toBlock, (s.trace.toList.take s.tlen.toNat).map BlockReg.toBlock) s

end Sys2Proof.Machine
end

