-- ==== Sys2Proof/Machine/Step.lean ====
section
/-! DEFINITION. One step of the machine: one atomic step of the host or of the controller (20_memory.md rule R72, 43_pipeline.md rules R145, R146). -/

namespace Sys2Proof.Machine

/-- The accept step of the byte `v` (R145): the accept of the command it decodes to, or
IllegalCommand. -/
def acceptByte (v : Byte) (s : State) : Host.Outcome State Fault Refusal :=
  match decode v with
  | .ok i => exec i s
  | .error _ => .next (acceptIllegal v s)

/-- The controller's turn (R146): while BUSY = 1 one step of the command in IR, else nothing. -/
def controllerTurn (s : State) : Host.Outcome State Fault Refusal :=
  if s.busy then
    match decode s.ir with
    | .ok i => exec i s
    | .error _ => .fault .busyWithoutCommand
  else .next s

/-- A host write (R70, R145, R204): the accept step for CMD while idle, else a register write. -/
def hostWriteStep (r : BitVec 7) (v : Nat) (s : State) : Host.Outcome State Fault Refusal :=
  match commandWrite r v s with
  | some b => acceptByte b s
  | none => .next (hostWrite r v s)

/-- One step (R72). The pending inputs say who moves; with none left the controller moves, so an
accepted command always completes (R207). A WAIT ends with the poll that sees DONE = 1 or
BUSY = 0 (R92, R191); until then it stays pending and the controller moves, so it always ends (R207,
log entry 7). The reads of a trace begin with the one of TLEN, whose value says how many follow
(R93, log entry 17). -/
def step (s : State) : Host.Outcome State Fault Refusal :=
  match s.inputs with
  | [] => controllerTurn s
  | .controller :: rest => controllerTurn { s with inputs := rest }
  | .write r v :: rest => hostWriteStep r v { s with inputs := rest }
  | .read r :: rest => .next (hostRead r { s with inputs := rest })
  | .wait :: rest =>
    if s.done || !s.busy then .next (hostRead statusNumber { s with inputs := rest }) else controllerTurn s
  | .readTrace :: rest =>
    .next (hostRead tlenNumber { s with inputs := traceReads s.tlen.toNat ++ rest })
  | .reset :: rest => .next (resetEvent { s with inputs := rest })

/-- The state in which the next step runs the table word `w` of `nbits` bits: the datapath is idle
and the next input is the host's write of that byte to CMD. -/
def State.withFetchWord (s : State) (nbits w : Nat) : State := placeCommand s nbits w

end Sys2Proof.Machine
end

