-- ==== Sys2Proof/Safety.lean ====
section
/-! DEFINITION. The words claims are stated in: runs of one command, the invariant of the datapath, what the host and the datapath each own, and each stage's inverse. Nothing of the machine depends on this file. -/

namespace Sys2Proof.Machine

/-! ## Commands -/

/-- The command each instruction's meaning runs: its entry checks are `EntryCheck` (R183), its
stages `StageList` (R148). -/
def commandOf : Instr → Command
  | .tobits t => tobitsCommand t
  | .tonib t => tonibCommand t
  | .vsbox => vsboxCommand
  | .vpbox t => vpboxCommand t
  | .mixkey t k => mixkeyCommand t k
  | .sub t => subCommand t
  | .subi t => subiCommand t
  | .perm t => permCommand t
  | .permi t => permiCommand t
  | .enc t => encCommand t
  | .enct t => enctCommand t
  | .dec t => decCommand t
  | .dect t => dectCommand t

/-- `n` atomic steps of one command, stopping at the first fault or refusal. From an idle state the
first is its accept step. -/
def execTimes : Nat → Instr → State → Host.Outcome State Fault Refusal
  | 0, _, s => .next s
  | n + 1, i, s =>
    match exec i s with
    | .next t => execTimes n i t
    | .fault r => .fault r
    | .refused r => .refused r

/-- A stage's inverse (R152). The four stages of the non-block commands have none. -/
def inverseStage : Stage → Option Stage
  | .kmix k => some (.kmix k)
  | .subs => some .subsInv
  | .subsInv => some .subs
  | .perm => some .permInv
  | .permInv => some .perm
  | .cvtb => none
  | .cvtn => none
  | .blds => none
  | .bldp => none

/-! ## D00's functions on the operand registers (R153, R154, R172, R173) -/

/-- The Block of the topology's arity in BLK. -/
def inputBlock (t : Topology) (s : State) : Block := blockOf (arity t) s.blk.nib

/-- The round key of the topology's arity in `K[k]`. -/
def keyBlock (t : Topology) (s : State) (k : KeyIndex) : Block := blockOf (arity t) (s.key k).nib

/-- The number of stages of a pipeline pass, NSTG (R8, R148). -/
def stageCount : Topology → Nat
  | .toy => 3
  | .spn => 12

/-- The ciphertext of BLK under the key registers and the forward stores (R153). -/
def encryptOf (t : Topology) (s : State) : Block :=
  match t with
  | .toy => encryptToy (inputBlock .toy s) s.sbox.toList (keyBlock .toy s .k1) (keyBlock .toy s .k2)
  | .spn =>
    encryptSpn (inputBlock .spn s) s.sbox.toList s.pbox.toList (keyBlock .spn s .k1)
      (keyBlock .spn s .k2) (keyBlock .spn s .k3) (keyBlock .spn s .k4) (keyBlock .spn s .k5)

/-- The plaintext of BLK under the key registers and the inverse stores (R154). -/
def decryptOf (t : Topology) (s : State) : Block :=
  match t with
  | .toy => decryptToy (inputBlock .toy s) s.sinv.toList (keyBlock .toy s .k1) (keyBlock .toy s .k2)
  | .spn =>
    decryptSpn (inputBlock .spn s) s.sinv.toList s.pinv.toList (keyBlock .spn s .k1)
      (keyBlock .spn s .k2) (keyBlock .spn s .k3) (keyBlock .spn s .k4) (keyBlock .spn s .k5)

/-- The snapshots of an encryption of BLK (R171). -/
def encryptTraceOf (t : Topology) (s : State) : List Block :=
  match t with
  | .toy =>
    encryptToyTrace (inputBlock .toy s) s.sbox.toList (keyBlock .toy s .k1) (keyBlock .toy s .k2)
  | .spn =>
    encryptSpnTrace (inputBlock .spn s) s.sbox.toList s.pbox.toList (keyBlock .spn s .k1)
      (keyBlock .spn s .k2) (keyBlock .spn s .k3) (keyBlock .spn s .k4) (keyBlock .spn s .k5)

/-- The snapshots of a decryption of BLK (R171). -/
def decryptTraceOf (t : Topology) (s : State) : List Block :=
  match t with
  | .toy =>
    decryptToyTrace (inputBlock .toy s) s.sinv.toList (keyBlock .toy s .k1) (keyBlock .toy s .k2)
  | .spn =>
    decryptSpnTrace (inputBlock .spn s) s.sinv.toList s.pinv.toList (keyBlock .spn s .k1)
      (keyBlock .spn s .k2) (keyBlock .spn s .k3) (keyBlock .spn s .k4) (keyBlock .spn s .k5)

/-- The tags of BLK and of every key register the pipeline reads are `w` (R183). -/
def pipelineTagsOk (t : Topology) (s : State) : Prop :=
  match t with
  | .toy => s.blk.len.toNat = 1 ∧ s.k1.len.toNat = 1 ∧ s.k2.len.toNat = 1
  | .spn =>
    s.blk.len.toNat = 4 ∧ s.k1.len.toNat = 4 ∧ s.k2.len.toNat = 4 ∧ s.k3.len.toNat = 4 ∧
      s.k4.len.toNat = 4 ∧ s.k5.len.toNat = 4

/-- The tables the pipeline reads are valid: SVALID = 1, and for SPN PVALID = 1 and PT = 1 (R183). -/
def pipelineTablesOk (t : Topology) (s : State) : Prop :=
  match t with
  | .toy => s.svalid = true
  | .spn => s.svalid = true ∧ s.pvalid = true ∧ s.pt = true

/-! ## The states a command goes through -/

/-- The cells below `w` as they are, the cells at and above `w` zero. -/
def activeCells (t : Topology) (v : Vector Nibble 4) : Vector Nibble 4 :=
  Vector.ofFn fun j => if j.val < arity t then v[j] else 0

/-- The bit at position `p` of four nibble cells (R62). -/
def bitAt (v : Vector Nibble 4) (p : Fin 16) : Bool :=
  (v[p.val / 4]'(by have := p.isLt; omega)).getMsbD (p.val % 4)

/-- A block-valued register with the arity of a topology. -/
def regOf (t : Topology) (v : Vector Nibble 4) : BlockReg :=
  { len := BitVec.ofNat 3 (arity t), nib := v }

/-- `s` after the accept of a command that passed its checks and takes its input from BLK. -/
def acceptedBlock (i : Instr) (t : Topology) (s : State) : State :=
  { s with
    ir := encode i
    done := false
    err := 0
    busy := true
    sc := 0
    st := activeCells t s.blk.nib }

/-- `s` after the accept of a traced command that passed its checks. -/
def acceptedTraced (i : Instr) (t : Topology) (s : State) : State :=
  { acceptedBlock i t s with
    trace := s.trace.set 0 (regOf t (activeCells t s.blk.nib))
    tlen := 1 }

/-- `s` after the accept of a command that failed an entry check with code `e`. -/
def failedWith (i : Instr) (e : BitVec 3) (s : State) : State :=
  { s with ir := encode i, done := true, err := e }

/-- `s` after the completion of a command of `n` stages with the result `v` in ST and RES. -/
def finishedBlock (i : Instr) (t : Topology) (n : Nat) (v : Vector Nibble 4) (s : State) : State :=
  { s with
    ir := encode i
    done := true
    err := 0
    busy := false
    sc := BitVec.ofNat 4 n
    st := v
    res := regOf t v }

/-- Every byte of opcode `op` outside `legal` is illegal, and its accept step raises IllegalCommand and
changes nothing else (R83). -/
def OtherBytesAreIllegal (op : Nat) (legal : List Byte) : Prop :=
  ∀ v : Byte, v.toNat / 16 = op → v ∉ legal →
    (∃ e, decode v = .error e) ∧
    ∀ s : State, acceptByte v s = .next { s with ir := v, done := true, err := 4 }

/-! ## What each agent owns -/

/-- The datapath's part of a state: the fields of the model's own set to fixed values. -/
def State.datapath (s : State) : State := { s with inputs := [], rdata := none, freeCount := 0 }

/-- One host read or one host write (R72). WAIT and the reads of a trace are each several of them. -/
def Event.isHostAccess : Event → Bool
  | .write _ _ => true
  | .read _ => true
  | .wait => false
  | .readTrace => false
  | .controller => false
  | .reset => false

/-- The events that are the controller's turn. -/
def Event.isController : Event → Bool
  | .controller => true
  | .write _ _ => false
  | .read _ => false
  | .wait => false
  | .readTrace => false
  | .reset => false

/-! ## The invariant -/

/-- `MemRead(T, x)`: the cell of a store a nibble names (R61, R78 d). -/
def cellAt (T : Table) (x : Nibble) : Nibble := T[x.toNat]'x.isLt

/-- The first `N` cells of a store, as integers. -/
def tableEntries (T : Table) (N : Nat) : List Nat := (T.toList.take N).map fun x => x.toNat

/-- `T` is a table of size `N`, `I` is its inverse, and the cells at and above `N` are 0
(R39, R40). -/
structure TablePair (T I : Table) (N : Nat) : Prop where
  /-- The forward cells are a permutation of 0..N−1. -/
  perm : IsPerm (tableEntries T N) N
  /-- `I[T[i]] = i`. -/
  inverse : ∀ i : Fin 16, i.val < N → cellAt I T[i] = BitVec.ofNat 4 i.val
  /-- Cells N..15 of both stores are 0. -/
  rest : ∀ i : Fin 16, N ≤ i.val → T[i] = 0 ∧ I[i] = 0

/-- The size of the P-box that PT names (R31, R40). -/
def pboxSize (pt : Bool) : Nat := if pt then 16 else 4

/-- A block-valued register as the controller writes it: arity 1 or 4, cells at and above it zero
(R25, R41). -/
def BlockReg.Written (r : BlockReg) : Prop :=
  ∃ t : Topology, r.len.toNat = arity t ∧ ∀ j : Fin 4, arity t ≤ j.val → r.nib[j] = 0

/-- A bit-valued register as the controller writes it: length 4 or 16, positions at and above it
zero (R86). -/
def BitReg.Written (r : BitReg) : Prop :=
  ∃ t : Topology, r.len.toNat = 4 * arity t ∧ ∀ p : Fin 16, 4 * arity t ≤ p.val → r.bit[p] = false

/-- What holds while the command `i` runs (R26, R27, R43, R73, R170). -/
structure Running (i : Instr) (s : State) : Prop where
  /-- IR holds the command. -/
  latched : decode s.ir = .ok i
  /-- Its entry checks still hold. -/
  checked : (commandOf i).check s = none
  /-- SC names one of its stages. -/
  stage : s.sc.toNat < (commandOf i).stages.length
  /-- DONE is 0 until it ends. -/
  done : s.done = false
  /-- ERR is 0 since accept. -/
  err : s.err = 0
  /-- A traced command has recorded one snapshot more than it has run stages. -/
  snapshots : (commandOf i).traced = true → s.tlen.toNat = s.sc.toNat + 1
  /-- The cells of ST at and above `w` are 0 in every command that loads ST. -/
  lanes : (commandOf i).load ≠ .keep → ∀ j : Fin 4, arity (commandOf i).topo ≤ j.val → s.st[j] = 0
  /-- VSBOX has cleared SVALID. -/
  sboxCleared : i = .vsbox → s.svalid = false
  /-- VPBOX has cleared PVALID. -/
  pboxCleared : ∀ t, i = .vpbox t → s.pvalid = false

/-- The invariant of the datapath. -/
structure DatapathInv (s : State) : Prop where
  /-- While SVALID = 1 the S-box stores hold a table and its inverse (R30, R39). -/
  sbox : s.svalid = true → TablePair s.sbox s.sinv 16
  /-- While PVALID = 1 the P-box stores hold a table for PT and its inverse (R31, R40). -/
  pbox : s.pvalid = true → TablePair s.pbox s.pinv (pboxSize s.pt)
  /-- ERR is one of the codes 0 to 4 (R29). -/
  err : s.err.toNat ≤ 4
  /-- An error is reported together with DONE (R28, R182). -/
  failed : s.err ≠ 0 → s.done = true
  /-- TLEN is 0 to 13 (R35). -/
  tlen : s.tlen.toNat ≤ 13
  /-- SC is 0 to 12 (R26). -/
  sc : s.sc.toNat ≤ 12
  /-- Every snapshot below TLEN is one the controller wrote (R41). -/
  trace : ∀ j : Fin 13, j.val < s.tlen.toNat → (s.trace[j]).Written
  /-- RES is as reset left it or as the controller wrote it (R25). -/
  res : s.res.len = 0 ∨ s.res.Written
  /-- RBITS is as reset left it or as the controller wrote it (R24). -/
  rbits : s.rbits.len = 0 ∨ s.rbits.Written
  /-- While BUSY = 1 IR holds a command that is running (R27, R42). -/
  running : s.busy = true → ∃ i : Instr, Running i s

end Sys2Proof.Machine
end

