-- ==== Sys2Proof/Certificates/Slice0/Obligations.lean ====
section
/-! DEFINITION. The statements for the provers, from the numbered rules of spec/. A statement about every state that needs a state the machine can be in takes DatapathInv as a premise; that every step keeps it is a statement of its own. -/

open Sys2Proof Sys2Proof.Machine

/-! ## Encoding -/

/-- One byte of every command, written out from the pattern column of R81. -/
def Obligations.WrittenBytesDecode : Prop :=
  decode 0b00010000#8 = .ok (.tobits .toy) ∧
  decode 0b00101000#8 = .ok (.tonib .spn) ∧
  decode 0b00110000#8 = .ok .vsbox ∧
  decode 0b01001000#8 = .ok (.vpbox .spn) ∧
  decode 0b01010001#8 = .ok (.mixkey .toy 1) ∧
  decode 0b01011101#8 = .ok (.mixkey .spn 5) ∧
  decode 0b01100000#8 = .ok (.sub .toy) ∧
  decode 0b01101001#8 = .ok (.subi .spn) ∧
  decode 0b01111000#8 = .ok (.perm .spn) ∧
  decode 0b01110001#8 = .ok (.permi .toy) ∧
  decode 0b10001000#8 = .ok (.enc .spn) ∧
  decode 0b10000001#8 = .ok (.enct .toy) ∧
  decode 0b10010000#8 = .ok (.dec .toy) ∧
  decode 0b10011001#8 = .ok (.dect .spn)

/-- R81, R82: a well-formed command's byte decodes to the command, every operand at every value. -/
def Obligations.DecodeInvertsEncode : Prop :=
  ∀ i : Instr, i.wellFormed = true → decode (encode i) = .ok i

/-- R82: no two bytes decode to one command, and what decodes is well-formed. -/
def Obligations.EncodeInvertsDecode : Prop :=
  ∀ (v : Byte) (i : Instr), decode v = .ok i → i.wellFormed = true ∧ encode i = v

/-- R83: which bytes are illegal, that there are 223 of them, and that the accept step of one while
idle changes nothing but IR, DONE and ERR. -/
def Obligations.IllegalBytesRaiseIllegalCommand : Prop :=
  (∀ v : Byte, (∃ e, decode v = .error e) ↔
    (v.toNat / 16 = 0 ∨ 10 ≤ v.toNat / 16) ∨
    (v.toNat / 16 = 3 ∧ (v.toNat / 8 % 2 = 1 ∨ v.toNat % 8 ≠ 0)) ∨
    ((v.toNat / 16 = 1 ∨ v.toNat / 16 = 2 ∨ v.toNat / 16 = 4) ∧ v.toNat % 8 ≠ 0) ∨
    (v.toNat / 16 = 5 ∧ (v.toNat % 8 = 0 ∨ v.toNat % 8 = 6 ∨ v.toNat % 8 = 7)) ∨
    (6 ≤ v.toNat / 16 ∧ v.toNat / 16 ≤ 9 ∧ 2 ≤ v.toNat % 8)) ∧
  ((List.range 256).countP fun n => (decodeTableWord 8 n).isNone) = 223 ∧
  (∀ (s : State) (v : Byte) (e : DecodeError), s.busy = false → decode v = .error e →
    acceptByte v s = .next { s with ir := v, done := true, err := 4 })

/-! ## The step -/

/-- The step runs the decoded command: an idle write of its byte to CMD is its accept step, and the
controller's turn while BUSY = 1 is its next controller step; the step only takes the pending input
away. While idle the controller does nothing (R33, R90, R145, R146). That the pending inputs stand
in a list whose end gives the turn to the controller, that `exec` is one atomic step, and what
`withFetchWord` places are the model's (log entries 1, 2, 8). -/
def Obligations.StepRunsDecodedInstruction : Prop :=
  (∀ (s : State) (n : Nat) (i : Instr) (rest : List Event),
    s.busy = false → s.inputs = .write 0x00 n :: rest → decode (BitVec.ofNat 8 n) = .ok i →
      step s = exec i { s with inputs := rest }) ∧
  (∀ (s : State) (n : Nat) (e : DecodeError) (rest : List Event),
    s.busy = false → s.inputs = .write 0x00 n :: rest → decode (BitVec.ofNat 8 n) = .error e →
      step s = acceptByte (BitVec.ofNat 8 n) { s with inputs := rest }) ∧
  (∀ (s : State) (i : Instr),
    s.busy = true → s.inputs = [] → decode s.ir = .ok i → step s = exec i s) ∧
  (∀ (s : State) (i : Instr) (rest : List Event),
    s.busy = true → s.inputs = .controller :: rest → decode s.ir = .ok i →
      step s = exec i { s with inputs := rest }) ∧
  (∀ s : State, s.busy = false → s.inputs = [] → step s = .next s) ∧
  (∀ (s : State) (w : Nat) (i : Instr), decodeTableWord 8 w = some i →
    step (s.withFetchWord 8 w) = exec i { s with busy := false })

/-! ## Reset -/

/-- R201: what a reset event leaves, whatever the state, and what `State.reset` holds of the values
the spec states. The data cells are left open. -/
def Obligations.ResetLeavesStatedValues : Prop :=
  ∀ s : State,
    (s = State.reset ∨ ∃ u, s = resetEvent u) →
    s.busy = false ∧ s.done = false ∧ s.err = 0 ∧ s.svalid = false ∧ s.pvalid = false ∧
    s.pt = false ∧ readRegister .status s = 0 ∧ s.ir = 0 ∧ readRegister .cmd s = 0 ∧ s.sc = 0 ∧
    s.tlen = 0 ∧ s.candlen = 0 ∧ s.blk.len = 0 ∧ s.k1.len = 0 ∧ s.k2.len = 0 ∧ s.k3.len = 0 ∧
    s.k4.len = 0 ∧ s.k5.len = 0 ∧ s.bits.len = 0 ∧ s.res.len = 0 ∧ s.rbits.len = 0

/-- R200: from every state, also in the middle of a command, a reset event is one step, and it leaves
the datapath idle. That it stands in the list of pending inputs is the model's (log entry 1). -/
def Obligations.ResetEventAlwaysCompletes : Prop :=
  ∀ (u : State) (rest : List Event), u.inputs = .reset :: rest →
    step u = .next (resetEvent { u with inputs := rest }) ∧
    (resetEvent { u with inputs := rest }).inputs = rest ∧
    (resetEvent { u with inputs := rest }).busy = false

/-- R45, R202: with the tags, CANDLEN and the valid bits as reset leaves them, every command fails
at entry, so no data cell that reset leaves unspecified can reach a result. -/
def Obligations.EveryCommandFailsAfterReset : Prop :=
  ∀ (s : State) (i : Instr), i.wellFormed = true →
    s.busy = false → s.svalid = false → s.pvalid = false → s.candlen = 0 → s.blk.len = 0 →
    s.bits.len = 0 →
      exec i s = .next (failedWith i
        (match i with
        | .tobits _ => 2
        | .tonib _ => 2
        | .vsbox => 1
        | .vpbox _ => 1
        | .mixkey _ _ => 2
        | .sub _ => 3
        | .subi _ => 3
        | .perm _ => 3
        | .permi _ => 3
        | .enc _ => 3
        | .enct _ => 3
        | .dec _ => 3
        | .dect _ => 3) s)

/-! ## The invariant -/

/-- The invariant holds at `State.reset` and after a reset event from any state. -/
def Obligations.ResetMeetsInvariant : Prop :=
  DatapathInv State.reset ∧
  ∀ (u s : State) (rest : List Event),
    u.inputs = .reset :: rest → step u = .next s → DatapathInv s

/-- Every step keeps the invariant: the table stores stay a table and its inverse while their valid
bit is set (R30, R31, R39, R40, R117), the counters and codes stay in range (R26, R29, R35), the
results keep their shape (R25, R41), and a running command keeps its entry checks and its place
(R27, R42, R43, R73). -/
def Obligations.StepKeepsInvariant : Prop :=
  ∀ s t : State, DatapathInv s → step s = .next t → DatapathInv t

/-- R186: the machine never stops, no controller step raises an error, and an accepted command
completes with ERR = 0. That an empty list of inputs gives the turn to the controller is the
model's (log entry 1). -/
def Obligations.NoInternalFault : Prop :=
  (∀ s : State, DatapathInv s → ∃ t, step s = .next t) ∧
  (∀ s t : State, DatapathInv s → s.busy = true →
    (s.inputs = [] ∨ ∃ rest, s.inputs = .controller :: rest ∨ s.inputs = .wait :: rest) →
    step s = .next t → t.err = 0) ∧
  (∀ s : State, DatapathInv s → s.busy = true → s.inputs = [] →
    ∃ n t, n ≤ 12 ∧ Host.Core.run Sys2Proof.core n s = .next t ∧ t.busy = false ∧
      t.done = true ∧ t.err = 0)

/-! ## Entry checks -/

/-- R182: a failing command latches IR, sets DONE and ERR, clears SVALID if it is VSBOX and PVALID if
it is VPBOX, and changes nothing else. `require`d checks in their order are `(commandOf i).check`.
For the terms MIXKEY with `k` = 0, 6, 7, which no byte decodes to, the check that answers
IllegalCommand is the model's choice (log entry 10). -/
def Obligations.FailedCommandChangesNothingElse : Prop :=
  ∀ (i : Instr) (s : State) (e : ErrorCode), s.busy = false → (commandOf i).check s = some e →
    exec i s = .next
      { s with
        ir := encode i
        done := true
        err := (match e with
          | .invalidTable => 1
          | .invalidLength => 2
          | .tableNotReady => 3
          | .illegalCommand => 4)
        svalid := (match i with
          | .vsbox => false
          | _ => s.svalid)
        pvalid := (match i with
          | .vpbox _ => false
          | _ => s.pvalid) }

/-- R184: a command whose table is missing reports TableNotReady even if its operand tags are also
wrong. -/
def Obligations.MissingTableIsReportedFirst : Prop :=
  (∀ (t : Topology) (s : State), s.busy = false → s.svalid = false →
    ∀ i ∈ [Instr.sub t, .subi t, .enc t, .enct t, .dec t, .dect t],
      exec i s = .next (failedWith i 3 s)) ∧
  (∀ (t : Topology) (s : State), s.busy = false →
    (s.pvalid = false ∨ s.pt ≠ topologyToBit t) →
    ∀ i ∈ [Instr.perm t, .permi t], exec i s = .next (failedWith i 3 s)) ∧
  (∀ s : State, s.busy = false → (s.pvalid = false ∨ s.pt = false) →
    ∀ i ∈ [Instr.enc .spn, .enct .spn, .dec .spn, .dect .spn],
      exec i s = .next (failedWith i 3 s))

/-! ## The converter commands -/

/-- R103: TOBITS. -/
def Obligations.TobitsWritesBitsOfBlk : Prop :=
  encode (.tobits .toy) = 0x10 ∧ encode (.tobits .spn) = 0x18 ∧
  OtherBytesAreIllegal 1 [0x10, 0x18] ∧
  ∀ (t : Topology) (s : State), s.busy = false →
    (s.blk.len.toNat = arity t →
      exec (.tobits t) s = .next (acceptedBlock (.tobits t) t s) ∧
      ∃ r : BitReg,
        r.len.toNat = 4 * arity t ∧
        (∀ p : Fin 16, r.bit[p] = if p.val < 4 * arity t then bitAt s.blk.nib p else false) ∧
        exec (.tobits t) (acceptedBlock (.tobits t) t s) =
          .next { acceptedBlock (.tobits t) t s with
            rbits := r, sc := 1, busy := false, done := true }) ∧
    (s.blk.len.toNat ≠ arity t → exec (.tobits t) s = .next (failedWith (.tobits t) 2 s))

/-- R104: TONIB. -/
def Obligations.TonibWritesNibblesOfBits : Prop :=
  encode (.tonib .toy) = 0x20 ∧ encode (.tonib .spn) = 0x28 ∧
  OtherBytesAreIllegal 2 [0x20, 0x28] ∧
  ∀ (t : Topology) (s : State), s.busy = false →
    (s.bits.len.toNat = 4 * arity t →
      ∃ a : State,
        a = { s with
          ir := encode (.tonib t), done := false, err := 0, busy := true, sc := 0
          st := Vector.replicate 4 0 } ∧
        exec (.tonib t) s = .next a ∧
        ∃ v : Vector Nibble 4,
          (∀ p : Fin 16, bitAt v p = if p.val < 4 * arity t then s.bits.bit[p] else false) ∧
          exec (.tonib t) a = .next (finishedBlock (.tonib t) t 1 v s)) ∧
    (s.bits.len.toNat ≠ 4 * arity t → exec (.tonib t) s = .next (failedWith (.tonib t) 2 s))

/-- R105: TOBITS, the host's copy of RBITS to BITS, and TONIB give back the Block in BLK. -/
def Obligations.TobitsThenTonibReturnsBlock : Prop :=
  ∀ (t : Topology) (s : State), s.busy = false → s.blk.len.toNat = arity t →
    ∃ u v, execTimes 2 (.tobits t) s = .next u ∧
      execTimes 2 (.tonib t) { u with bits := u.rbits } = .next v ∧
      v.res = regOf t (activeCells t s.blk.nib)

/-! ## The table commands -/

/-- R113: VSBOX. -/
def Obligations.VsboxBuildsTableAndInverse : Prop :=
  encode .vsbox = 0x30 ∧
  OtherBytesAreIllegal 3 [0x30] ∧
  ∀ s : State, s.busy = false →
    ((s.candlen.toNat = 16 ∧ (∀ i : Fin 16, (s.cand[i]).toNat ≤ 15) ∧
        (∀ i j : Fin 16, s.cand[i] = s.cand[j] → i = j)) →
      ∃ a : State,
        a = { s with
          ir := 0x30, done := false, err := 0, svalid := false, busy := true, sc := 0 } ∧
        exec .vsbox s = .next a ∧
        ∃ T I : Table,
          (∀ i : Fin 16, (T[i]).toNat = (s.cand[i]).toNat) ∧
          (∀ i : Fin 16, cellAt I T[i] = BitVec.ofNat 4 i.val) ∧
          exec .vsbox a = .next { a with
            sbox := T, sinv := I, svalid := true, sc := 1, busy := false, done := true }) ∧
    (¬ (s.candlen.toNat = 16 ∧ (∀ i : Fin 16, (s.cand[i]).toNat ≤ 15) ∧
        (∀ i j : Fin 16, s.cand[i] = s.cand[j] → i = j)) →
      exec .vsbox s = .next { s with ir := 0x30, done := true, err := 1, svalid := false })

/-- R114: VPBOX. -/
def Obligations.VpboxBuildsTableAndInverse : Prop :=
  encode (.vpbox .toy) = 0x40 ∧ encode (.vpbox .spn) = 0x48 ∧
  OtherBytesAreIllegal 4 [0x40, 0x48] ∧
  ∀ (t : Topology) (s : State), s.busy = false →
    ((s.candlen.toNat = 4 * arity t ∧
        (∀ i : Fin 16, i.val < 4 * arity t → (s.cand[i]).toNat ≤ 4 * arity t - 1) ∧
        (∀ i j : Fin 16, i.val < 4 * arity t → j.val < 4 * arity t →
          s.cand[i] = s.cand[j] → i = j)) →
      ∃ a : State,
        a = { s with
          ir := encode (.vpbox t), done := false, err := 0, pvalid := false, busy := true
          sc := 0 } ∧
        exec (.vpbox t) s = .next a ∧
        ∃ T I : Table,
          (∀ i : Fin 16, i.val < 4 * arity t → (T[i]).toNat = (s.cand[i]).toNat) ∧
          (∀ i : Fin 16, i.val < 4 * arity t → cellAt I T[i] = BitVec.ofNat 4 i.val) ∧
          (∀ i : Fin 16, 4 * arity t ≤ i.val → T[i] = 0 ∧ I[i] = 0) ∧
          exec (.vpbox t) a = .next { a with
            pbox := T, pinv := I, pvalid := true, pt := topologyToBit t, sc := 1
            busy := false, done := true }) ∧
    (¬ (s.candlen.toNat = 4 * arity t ∧
        (∀ i : Fin 16, i.val < 4 * arity t → (s.cand[i]).toNat ≤ 4 * arity t - 1) ∧
        (∀ i j : Fin 16, i.val < 4 * arity t → j.val < 4 * arity t →
          s.cand[i] = s.cand[j] → i = j)) →
      exec (.vpbox t) s =
        .next { s with ir := encode (.vpbox t), done := true, err := 1, pvalid := false })

/-! ## The round primitive commands -/

/-- R135: MIXKEY with `k` in 1..5; every other byte of the opcode is illegal. -/
def Obligations.MixkeyXorsKeyIntoBlk : Prop :=
  (encode (.mixkey .toy 1) = 0x51 ∧ encode (.mixkey .toy 2) = 0x52 ∧
    encode (.mixkey .toy 3) = 0x53 ∧ encode (.mixkey .toy 4) = 0x54 ∧
    encode (.mixkey .toy 5) = 0x55 ∧ encode (.mixkey .spn 1) = 0x59 ∧
    encode (.mixkey .spn 2) = 0x5A ∧ encode (.mixkey .spn 3) = 0x5B ∧
    encode (.mixkey .spn 4) = 0x5C ∧ encode (.mixkey .spn 5) = 0x5D) ∧
  OtherBytesAreIllegal 5
    [0x51, 0x52, 0x53, 0x54, 0x55, 0x59, 0x5A, 0x5B, 0x5C, 0x5D] ∧
  ∀ (t : Topology) (s : State), s.busy = false →
    ∀ (k : BitVec 3) (K : BlockReg),
      (k, K) ∈ [(1#3, s.k1), (2#3, s.k2), (3#3, s.k3), (4#3, s.k4), (5#3, s.k5)] →
      (s.blk.len.toNat = arity t ∧ K.len.toNat = arity t →
        exec (.mixkey t k) s = .next (acceptedBlock (.mixkey t k) t s) ∧
        ∃ v : Vector Nibble 4,
          (∀ j : Fin 4, v[j] = if j.val < arity t then s.blk.nib[j] ^^^ K.nib[j] else 0) ∧
          exec (.mixkey t k) (acceptedBlock (.mixkey t k) t s) =
            .next (finishedBlock (.mixkey t k) t 1 v s)) ∧
      (¬ (s.blk.len.toNat = arity t ∧ K.len.toNat = arity t) →
        exec (.mixkey t k) s = .next (failedWith (.mixkey t k) 2 s))

/-- R136: SUB. -/
def Obligations.SubLooksUpSbox : Prop :=
  encode (.sub .toy) = 0x60 ∧ encode (.sub .spn) = 0x68 ∧
  OtherBytesAreIllegal 6 [0x60, 0x61, 0x68, 0x69] ∧
  ∀ (t : Topology) (s : State), s.busy = false →
    (s.svalid = true → s.blk.len.toNat = arity t →
      exec (.sub t) s = .next (acceptedBlock (.sub t) t s) ∧
      ∃ v : Vector Nibble 4,
        (∀ j : Fin 4, v[j] = if j.val < arity t then cellAt s.sbox s.blk.nib[j] else 0) ∧
        exec (.sub t) (acceptedBlock (.sub t) t s) = .next (finishedBlock (.sub t) t 1 v s)) ∧
    (s.svalid = false → exec (.sub t) s = .next (failedWith (.sub t) 3 s)) ∧
    (s.svalid = true → s.blk.len.toNat ≠ arity t →
      exec (.sub t) s = .next (failedWith (.sub t) 2 s))

/-- R137: SUBI. -/
def Obligations.SubiLooksUpSinv : Prop :=
  encode (.subi .toy) = 0x61 ∧ encode (.subi .spn) = 0x69 ∧
  OtherBytesAreIllegal 6 [0x60, 0x61, 0x68, 0x69] ∧
  ∀ (t : Topology) (s : State), s.busy = false →
    (s.svalid = true → s.blk.len.toNat = arity t →
      exec (.subi t) s = .next (acceptedBlock (.subi t) t s) ∧
      ∃ v : Vector Nibble 4,
        (∀ j : Fin 4, v[j] = if j.val < arity t then cellAt s.sinv s.blk.nib[j] else 0) ∧
        exec (.subi t) (acceptedBlock (.subi t) t s) = .next (finishedBlock (.subi t) t 1 v s)) ∧
    (s.svalid = false → exec (.subi t) s = .next (failedWith (.subi t) 3 s)) ∧
    (s.svalid = true → s.blk.len.toNat ≠ arity t →
      exec (.subi t) s = .next (failedWith (.subi t) 2 s))

/-- R138, R130: PERM moves the bit at position `p` to the position PBOX[p] names. -/
def Obligations.PermMovesBitsThroughPbox : Prop :=
  encode (.perm .toy) = 0x70 ∧ encode (.perm .spn) = 0x78 ∧
  OtherBytesAreIllegal 7 [0x70, 0x71, 0x78, 0x79] ∧
  ∀ (t : Topology) (s : State), DatapathInv s → s.busy = false →
    (s.pvalid = true → s.pt = topologyToBit t → s.blk.len.toNat = arity t →
      exec (.perm t) s = .next (acceptedBlock (.perm t) t s) ∧
      ∃ v : Vector Nibble 4,
        (∀ p : Fin 16, p.val < 4 * arity t →
          bitAt v ((s.pbox[p]).toFin) = bitAt s.blk.nib p) ∧
        (∀ j : Fin 4, arity t ≤ j.val → v[j] = 0) ∧
        exec (.perm t) (acceptedBlock (.perm t) t s) = .next (finishedBlock (.perm t) t 1 v s)) ∧
    ((s.pvalid = false ∨ s.pt ≠ topologyToBit t) →
      exec (.perm t) s = .next (failedWith (.perm t) 3 s)) ∧
    (s.pvalid = true → s.pt = topologyToBit t → s.blk.len.toNat ≠ arity t →
      exec (.perm t) s = .next (failedWith (.perm t) 2 s))

/-- R139: PERMI moves the bit at position `p` to the position PINV[p] names, which is the position
whose bit PBOX sends to `p`. -/
def Obligations.PermiMovesBitsThroughPinv : Prop :=
  encode (.permi .toy) = 0x71 ∧ encode (.permi .spn) = 0x79 ∧
  OtherBytesAreIllegal 7 [0x70, 0x71, 0x78, 0x79] ∧
  ∀ (t : Topology) (s : State), DatapathInv s → s.busy = false →
    (s.pvalid = true → s.pt = topologyToBit t → s.blk.len.toNat = arity t →
      exec (.permi t) s = .next (acceptedBlock (.permi t) t s) ∧
      ∃ v : Vector Nibble 4,
        (∀ p : Fin 16, p.val < 4 * arity t →
          bitAt v ((s.pinv[p]).toFin) = bitAt s.blk.nib p ∧
          bitAt v p = bitAt s.blk.nib ((s.pbox[p]).toFin)) ∧
        (∀ j : Fin 4, arity t ≤ j.val → v[j] = 0) ∧
        exec (.permi t) (acceptedBlock (.permi t) t s) =
          .next (finishedBlock (.permi t) t 1 v s)) ∧
    ((s.pvalid = false ∨ s.pt ≠ topologyToBit t) →
      exec (.permi t) s = .next (failedWith (.permi t) 3 s)) ∧
    (s.pvalid = true → s.pt = topologyToBit t → s.blk.len.toNat ≠ arity t →
      exec (.permi t) s = .next (failedWith (.permi t) 2 s))

/-! ## The pipelines -/

/-- R153: ENC. -/
def Obligations.EncWritesCiphertext : Prop :=
  encode (.enc .toy) = 0x80 ∧ encode (.enc .spn) = 0x88 ∧
  OtherBytesAreIllegal 8 [0x80, 0x81, 0x88, 0x89] ∧
  ∀ (t : Topology) (s : State), s.busy = false →
    (pipelineTablesOk t s → pipelineTagsOk t s →
      exec (.enc t) s = .next (acceptedBlock (.enc t) t s) ∧
      execTimes (stageCount t) (.enc t) (acceptedBlock (.enc t) t s) =
        .next (finishedBlock (.enc t) t (stageCount t) (fitBlock (encryptOf t s)) s)) ∧
    (¬ pipelineTablesOk t s → exec (.enc t) s = .next (failedWith (.enc t) 3 s)) ∧
    (pipelineTablesOk t s → ¬ pipelineTagsOk t s →
      exec (.enc t) s = .next (failedWith (.enc t) 2 s))

/-- R154: DEC. -/
def Obligations.DecWritesPlaintext : Prop :=
  encode (.dec .toy) = 0x90 ∧ encode (.dec .spn) = 0x98 ∧
  OtherBytesAreIllegal 9 [0x90, 0x91, 0x98, 0x99] ∧
  ∀ (t : Topology) (s : State), s.busy = false →
    (pipelineTablesOk t s → pipelineTagsOk t s →
      exec (.dec t) s = .next (acceptedBlock (.dec t) t s) ∧
      execTimes (stageCount t) (.dec t) (acceptedBlock (.dec t) t s) =
        .next (finishedBlock (.dec t) t (stageCount t) (fitBlock (decryptOf t s)) s)) ∧
    (¬ pipelineTablesOk t s → exec (.dec t) s = .next (failedWith (.dec t) 3 s)) ∧
    (pipelineTablesOk t s → ¬ pipelineTagsOk t s →
      exec (.dec t) s = .next (failedWith (.dec t) 2 s))

/-- R170, R171, R172: ENCT leaves what ENC leaves and in TRACE every snapshot of the encryption;
after `n` stages ST is snapshot `n` and TRACE holds the snapshots so far. -/
def Obligations.EnctWritesCiphertextAndTrace : Prop :=
  encode (.enct .toy) = 0x81 ∧ encode (.enct .spn) = 0x89 ∧
  OtherBytesAreIllegal 8 [0x80, 0x81, 0x88, 0x89] ∧
  ∀ (t : Topology) (s : State), s.busy = false →
    (pipelineTablesOk t s → pipelineTagsOk t s →
      exec (.enct t) s = .next (acceptedTraced (.enct t) t s) ∧
      (∀ n < stageCount t, ∃ u,
        execTimes n (.enct t) (acceptedTraced (.enct t) t s) = .next u ∧ u.busy = true ∧
        u.res = s.res ∧ u.tlen.toNat = n + 1 ∧
        u.st = fitBlock ((encryptTraceOf t s).getD n []) ∧
        ∀ j : Fin 13, u.trace[j] =
          if j.val ≤ n then regOf t (fitBlock ((encryptTraceOf t s).getD j.val [])) else s.trace[j]) ∧
      ∃ tr : Vector BlockReg 13,
        (∀ j : Fin 13, tr[j] =
          if j.val ≤ stageCount t then regOf t (fitBlock ((encryptTraceOf t s).getD j.val []))
          else s.trace[j]) ∧
        execTimes (stageCount t) (.enct t) (acceptedTraced (.enct t) t s) =
          .next { finishedBlock (.enct t) t (stageCount t) (fitBlock (encryptOf t s)) s with
            trace := tr, tlen := BitVec.ofNat 4 (stageCount t + 1) }) ∧
    (¬ pipelineTablesOk t s → exec (.enct t) s = .next (failedWith (.enct t) 3 s)) ∧
    (pipelineTablesOk t s → ¬ pipelineTagsOk t s →
      exec (.enct t) s = .next (failedWith (.enct t) 2 s))

/-- R170, R171, R173: DECT leaves what DEC leaves and in TRACE every snapshot of the decryption;
after `n` stages ST is snapshot `n` and TRACE holds the snapshots so far. -/
def Obligations.DectWritesPlaintextAndTrace : Prop :=
  encode (.dect .toy) = 0x91 ∧ encode (.dect .spn) = 0x99 ∧
  OtherBytesAreIllegal 9 [0x90, 0x91, 0x98, 0x99] ∧
  ∀ (t : Topology) (s : State), s.busy = false →
    (pipelineTablesOk t s → pipelineTagsOk t s →
      exec (.dect t) s = .next (acceptedTraced (.dect t) t s) ∧
      (∀ n < stageCount t, ∃ u,
        execTimes n (.dect t) (acceptedTraced (.dect t) t s) = .next u ∧ u.busy = true ∧
        u.res = s.res ∧ u.tlen.toNat = n + 1 ∧
        u.st = fitBlock ((decryptTraceOf t s).getD n []) ∧
        ∀ j : Fin 13, u.trace[j] =
          if j.val ≤ n then regOf t (fitBlock ((decryptTraceOf t s).getD j.val [])) else s.trace[j]) ∧
      ∃ tr : Vector BlockReg 13,
        (∀ j : Fin 13, tr[j] =
          if j.val ≤ stageCount t then regOf t (fitBlock ((decryptTraceOf t s).getD j.val []))
          else s.trace[j]) ∧
        execTimes (stageCount t) (.dect t) (acceptedTraced (.dect t) t s) =
          .next { finishedBlock (.dect t) t (stageCount t) (fitBlock (decryptOf t s)) s with
            trace := tr, tlen := BitVec.ofNat 4 (stageCount t + 1) }) ∧
    (¬ pipelineTablesOk t s → exec (.dect t) s = .next (failedWith (.dect t) 3 s)) ∧
    (pipelineTablesOk t s → ¬ pipelineTagsOk t s →
      exec (.dect t) s = .next (failedWith (.dect t) 2 s))

/-- R152: the decryption list is the encryption list reversed, each stage replaced by its inverse. -/
def Obligations.DecryptStagesReverseEncryptStages : Prop :=
  ∀ t : Topology,
    (decryptStages t).map some = ((encryptStages t).reverse).map inverseStage ∧
    (encryptStages t).length = stageCount t ∧ (decryptStages t).length = stageCount t

/-- R155, at the machine: ENC, the host's copy of RES to BLK, DEC give back the Block in BLK, and the
other way round. -/
def Obligations.EncThenDecReturnsBlock : Prop :=
  ∀ (t : Topology) (s : State), DatapathInv s → s.busy = false → pipelineTablesOk t s →
    pipelineTagsOk t s →
    (∃ u v, execTimes (stageCount t + 1) (.enc t) s = .next u ∧
      execTimes (stageCount t + 1) (.dec t) { u with blk := u.res } = .next v ∧
      v.res = regOf t (activeCells t s.blk.nib)) ∧
    (∃ u v, execTimes (stageCount t + 1) (.dec t) s = .next u ∧
      execTimes (stageCount t + 1) (.enc t) { u with blk := u.res } = .next v ∧
      v.res = regOf t (activeCells t s.blk.nib))

/-- R174: at every step of the two runs the traced command leaves what the untraced one leaves, but
for IR, which holds the command's own byte, TRACE and TLEN. -/
def Obligations.TraceIsObservational : Prop :=
  ∀ (t : Topology) (s : State), s.busy = false →
    ∀ n ≤ stageCount t + 1,
      (∃ u tr tl, execTimes n (.enc t) s = .next u ∧
        execTimes n (.enct t) s =
          .next { u with
            ir := if n = 0 then u.ir else encode (.enct t), trace := tr, tlen := tl }) ∧
      (∃ u tr tl, execTimes n (.dec t) s = .next u ∧
        execTimes n (.dect t) s =
          .next { u with
            ir := if n = 0 then u.ir else encode (.dect t), trace := tr, tlen := tl })

/-- R176: the trace of the decryption of the ciphertext is the trace of the encryption read
backwards. -/
def Obligations.DecryptTraceMirrorsEncryptTrace : Prop :=
  ∀ (t : Topology) (s : State), DatapathInv s → s.busy = false → pipelineTablesOk t s →
    pipelineTagsOk t s →
    ∃ u v, execTimes (stageCount t + 1) (.enct t) s = .next u ∧
      execTimes (stageCount t + 1) (.dect t) { u with blk := u.res } = .next v ∧
      ∀ j n : Fin 13, j.val + n.val = stageCount t → v.trace[j] = u.trace[n]

/-! ## Running a command among host accesses -/

/-- R146, R157, R207: an accepted command is busy for exactly as many controller steps as its stage
list is long, SC counting them, and then is done without an error. -/
def Obligations.AcceptedCommandRunsItsStages : Prop :=
  ∀ (i : Instr) (s : State), s.busy = false → (commandOf i).check s = none →
    (∀ n < (commandOf i).stages.length, ∃ t, execTimes (n + 1) i s = .next t ∧ t.busy = true ∧
      t.done = false ∧ t.err = 0 ∧ t.sc.toNat = n ∧ t.ir = encode i) ∧
    (∃ t, execTimes ((commandOf i).stages.length + 1) i s = .next t ∧ t.busy = false ∧
      t.done = true ∧ t.err = 0 ∧ t.ir = encode i)

/-- R157, R73 (program P4 of 95_test_vectors.md): host reads and writes issued while a command runs
change nothing of what it leaves. However accesses stand among the controller's turns, the state of
the datapath after `n` turns is the one after `n` turns alone, as long as the command has not ended
before the last of them. That the order of the accesses and the turns stands in the list of pending
inputs is the model's (log entry 1). -/
def Obligations.HostAccessesDoNotDisturbCommand : Prop :=
  ∀ (s u : State) (before rest : List Event),
    DatapathInv s → s.busy = true → s.inputs = before ++ .controller :: rest →
    (∀ e ∈ before, e.isHostAccess = true ∨ e.isController = true) →
    Host.Core.run Sys2Proof.core (before.countP Event.isController) { s with inputs := [] } =
      .next u →
    u.busy = true →
    ∃ t v, Host.Core.run Sys2Proof.core (before.length + 1) s = .next t ∧
      step { u with inputs := [] } = .next v ∧ t.datapath = v.datapath ∧ t.inputs = rest

/-! ## Who may change what -/

/-- R39, R40, R117: outside a reset, a table store changes and a valid bit is set only by the build
stage of a VSBOX (S-box) or a VPBOX (P-box) in the controller's turn. -/
def Obligations.TablesChangeOnlyByBuildStages : Prop :=
  ∀ s t : State, step s = .next t → (∀ rest, s.inputs ≠ .reset :: rest) →
    (t.sbox ≠ s.sbox ∨ t.sinv ≠ s.sinv ∨ (t.svalid = true ∧ s.svalid = false) →
      s.busy = true ∧ decode s.ir = .ok .vsbox) ∧
    (t.pbox ≠ s.pbox ∨ t.pinv ≠ s.pinv ∨ t.pt ≠ s.pt ∨ (t.pvalid = true ∧ s.pvalid = false) →
      s.busy = true ∧ ∃ w, decode s.ir = .ok (.vpbox w))

/-- R22 to R24, R36, R38: outside a reset, BLK, the keys, BITS, CANDLEN and CAND change only by a host
write to one of them while idle. No command writes them. -/
def Obligations.InputRegistersChangeOnlyByHostWrites : Prop :=
  ∀ s t : State, step s = .next t → (∀ rest, s.inputs ≠ .reset :: rest) →
    (t.blk ≠ s.blk ∨ t.k1 ≠ s.k1 ∨ t.k2 ≠ s.k2 ∨ t.k3 ≠ s.k3 ∨ t.k4 ≠ s.k4 ∨ t.k5 ≠ s.k5 ∨
      t.bits ≠ s.bits ∨ t.candlen ≠ s.candlen ∨ t.cand ≠ s.cand) →
    s.busy = false ∧ ∃ r v rest reg, s.inputs = .write r v :: rest ∧ registerOf r = some reg ∧
      (reg = .blk ∨ (∃ k, reg = .key k) ∨ reg = .bits ∨ reg = .candlen ∨ ∃ i, reg = .cand i)

/-- R24, R25, R29, R41: outside a reset, RES changes only in the controller step that ends a command
other than TOBITS, VSBOX and VPBOX, RBITS only in one of TOBITS, TRACE and TLEN only in a step of ENCT
or DECT (the accept step or a controller step), and ERR only in an accept step. -/
def Obligations.ResultsChangeOnlyByTheirCommands : Prop :=
  ∀ s t : State, step s = .next t → (∀ rest, s.inputs ≠ .reset :: rest) →
    (t.res ≠ s.res → s.busy = true ∧ t.busy = false ∧ t.done = true ∧ decode s.ir ≠ .ok .vsbox ∧
      ∀ w, decode s.ir ≠ .ok (.tobits w) ∧ decode s.ir ≠ .ok (.vpbox w)) ∧
    (t.rbits ≠ s.rbits → s.busy = true ∧ ∃ w, decode s.ir = .ok (.tobits w)) ∧
    (t.trace ≠ s.trace ∨ t.tlen ≠ s.tlen →
      ∃ w, (decode t.ir = .ok (.enct w) ∨ decode t.ir = .ok (.dect w)) ∧
        (s.busy = true ∨ ∃ n rest, s.inputs = .write 0x00 n :: rest)) ∧
    (t.err ≠ s.err → s.busy = false ∧ ∃ n rest, s.inputs = .write 0x00 n :: rest)

/-! ## D00's operations through the host port -/

/-- R93: the host sequence of `encrypt` on an idle datapath with the tables in the stores, with
nothing between its accesses, ends with STATUS.ERR = 0 and reads the word of the ciphertext. The
list of pending inputs, the field of the word read, the WAIT that gives the turn to the controller
and the sequence as a list are the model's (log entries 1, 6, 7, 17). -/
def Obligations.EncryptSequenceReadsCiphertext : Prop :=
  ∀ (t : Topology) (B : Block) (keys : List Block),
    B.length = arity t → keys.length = keyCount t → (∀ k ∈ keys, k.length = arity t) →
    ∃ seq, encryptSequence t B keys = some seq ∧
    ∀ (s : State) (rest : List Event), s.busy = false → pipelineTablesOk t s →
    s.inputs = seq ++ rest →
    ∃ u, Host.Core.run Sys2Proof.core (keyCount t + stageCount t + 5) s = .next u ∧
      u.inputs = rest ∧ u.busy = false ∧ u.done = true ∧ u.err = 0 ∧
      u.rdata = some (blockWord
        (match t with
        | .toy => encryptToy B s.sbox.toList (keys.getD 0 []) (keys.getD 1 [])
        | .spn =>
          encryptSpn B s.sbox.toList s.pbox.toList (keys.getD 0 []) (keys.getD 1 [])
            (keys.getD 2 []) (keys.getD 3 []) (keys.getD 4 [])))

/-- R93: the host sequence of `decrypt`, with the same keys and the same stores, likewise reads the
word of the plaintext (log entries 1, 6, 7, 17). -/
def Obligations.DecryptSequenceReadsPlaintext : Prop :=
  ∀ (t : Topology) (B : Block) (keys : List Block),
    B.length = arity t → keys.length = keyCount t → (∀ k ∈ keys, k.length = arity t) →
    ∃ seq, decryptSequence t B keys = some seq ∧
    ∀ (s : State) (rest : List Event), s.busy = false → pipelineTablesOk t s →
    s.inputs = seq ++ rest →
    ∃ u, Host.Core.run Sys2Proof.core (keyCount t + stageCount t + 5) s = .next u ∧
      u.inputs = rest ∧ u.busy = false ∧ u.done = true ∧ u.err = 0 ∧
      u.rdata = some (blockWord
        (match t with
        | .toy => decryptToy B s.sinv.toList (keys.getD 0 []) (keys.getD 1 [])
        | .spn =>
          decryptSpn B s.sinv.toList s.pinv.toList (keys.getD 0 []) (keys.getD 1 [])
            (keys.getD 2 []) (keys.getD 3 []) (keys.getD 4 [])))

/-! ## The host's accesses -/

/-- R204: while BUSY = 1 every host write, to any number, is dropped. -/
def Obligations.WritesWhileBusyAreDropped : Prop :=
  ∀ (s : State) (r : BitVec 7) (v : Nat) (rest : List Event),
    s.busy = true → s.inputs = .write r v :: rest → step s = .next { s with inputs := rest }

/-- R70: a host read changes nothing of the datapath and returns the register's word, busy or not;
two reads with no step between them return the same value. The word of each register is that of its
own field (R33, R69, R85 to R89). That the word read stands in a field is the model's (log entry
6). -/
def Obligations.HostReadsHaveNoSideEffect : Prop :=
  (∀ (s : State) (r : BitVec 7) (rest : List Event), s.inputs = .read r :: rest →
    ∃ t, step s = .next t ∧ t.datapath = s.datapath ∧ t.inputs = rest ∧
      ∀ reg, registerOf r = some reg →
        t = { s with inputs := rest, rdata := some (readRegister reg s) } ∧
        ∀ u, step { t with inputs := .read r :: rest } = .next u → u.rdata = t.rdata) ∧
  (∀ s : State,
    readRegister .cmd s = s.ir.toNat ∧ readRegister .status s = s.statusWord.toNat ∧
    readRegister .blk s = s.blk.toWord.toNat ∧ readRegister .bits s = s.bits.toWord.toNat ∧
    readRegister (.key .k1) s = s.k1.toWord.toNat ∧
    readRegister (.key .k2) s = s.k2.toWord.toNat ∧
    readRegister (.key .k3) s = s.k3.toWord.toNat ∧
    readRegister (.key .k4) s = s.k4.toWord.toNat ∧
    readRegister (.key .k5) s = s.k5.toWord.toNat ∧
    readRegister .res s = s.res.toWord.toNat ∧ readRegister .rbits s = s.rbits.toWord.toNat ∧
    readRegister .tlen s = s.tlen.toNat ∧ readRegister .candlen s = s.candlen.toNat ∧
    (∀ j : Fin 13, readRegister (.trace j) s = (s.trace[j]).toWord.toNat) ∧
    ∀ i : Fin 16,
      readRegister (.cand i) s = (s.cand[i]).toNat ∧
      readRegister (.sbox i) s = (s.sbox[i]).toNat ∧
      readRegister (.sinv i) s = (s.sinv[i]).toNat ∧
      readRegister (.pbox i) s = (s.pbox[i]).toNat ∧
      readRegister (.pinv i) s = (s.pinv[i]).toNat)

/-- R70, R78, R85 to R87, R90: a write to BLK, BITS, K1..K5, CANDLEN or CAND[i] while idle stores the
value modulo the register's width, which the next read returns, and changes nothing else: no other
register, not the hidden SC and ST, none of the model's own fields. -/
def Obligations.WriteThenReadReturnsTruncatedValue : Prop :=
  ∀ (s : State) (r : BitVec 7) (n width : Nat) (reg : Reg) (rest : List Event),
    s.busy = false → s.inputs = .write r n :: rest → registerOf r = some reg →
    ((reg = .blk ∨ ∃ k, reg = .key k) ∧ width = 19 ∨ reg = .bits ∧ width = 21 ∨
      reg = .candlen ∧ width = 5 ∨ (∃ i, reg = .cand i) ∧ width = 8) →
    ∃ t, step s = .next t ∧ t.inputs = rest ∧ readRegister reg t = n % 2 ^ width ∧
      t.sc = s.sc ∧ t.st = s.st ∧ t.rdata = s.rdata ∧ t.freeCount = s.freeCount ∧
      ∀ other, other ≠ reg → readRegister other t = readRegister other s

/-- R70: a write to a read-only register or to an unmapped number is dropped. -/
def Obligations.ReadOnlyWritesAreDropped : Prop :=
  ∀ (s : State) (r : BitVec 7) (n : Nat) (rest : List Event),
    s.inputs = .write r n :: rest →
    (r = 0x01 ∨ r = 0x09 ∨ r = 0x0A ∨ r = 0x0B ∨ (0x20 ≤ r.toNat ∧ r.toNat ≤ 0x6F) ∨
      (0x0D ≤ r.toNat ∧ r.toNat ≤ 0x0F) ∨ 0x70 ≤ r.toNat) →
    step s = .next { s with inputs := rest }

/-- R69: 106 of the 128 register numbers are mapped, the unmapped ones are 0x0D to 0x0F, 0x2D to 0x2F
and 0x70 to 0x7F, and no register has two numbers. -/
def Obligations.RegisterMapIsAsTabled : Prop :=
  ((List.range 128).countP fun n => (registerOf (BitVec.ofNat 7 n)).isSome) = 106 ∧
  (∀ r : BitVec 7, registerOf r = none ↔
    (0x0D ≤ r.toNat ∧ r.toNat ≤ 0x0F) ∨ (0x2D ≤ r.toNat ∧ r.toNat ≤ 0x2F) ∨ 0x70 ≤ r.toNat) ∧
  (∀ (r q : BitVec 7) (reg : Reg), registerOf r = some reg → registerOf q = some reg → r = q) ∧
  registerOf 0x00 = some .cmd ∧ registerOf 0x01 = some .status ∧ registerOf 0x02 = some .blk ∧
  registerOf 0x03 = some .bits ∧ registerOf 0x04 = some (.key .k1) ∧
  registerOf 0x05 = some (.key .k2) ∧ registerOf 0x06 = some (.key .k3) ∧
  registerOf 0x07 = some (.key .k4) ∧ registerOf 0x08 = some (.key .k5) ∧
  registerOf 0x09 = some .res ∧ registerOf 0x0A = some .rbits ∧ registerOf 0x0B = some .tlen ∧
  registerOf 0x0C = some .candlen ∧
  (∀ i : Fin 16, registerOf (BitVec.ofNat 7 (0x10 + i.val)) = some (.cand i)) ∧
  (∀ j : Fin 13, registerOf (BitVec.ofNat 7 (0x20 + j.val)) = some (.trace j)) ∧
  (∀ i : Fin 16, registerOf (BitVec.ofNat 7 (0x30 + i.val)) = some (.sbox i) ∧
    registerOf (BitVec.ofNat 7 (0x40 + i.val)) = some (.sinv i) ∧
    registerOf (BitVec.ofNat 7 (0x50 + i.val)) = some (.pbox i) ∧
    registerOf (BitVec.ofNat 7 (0x60 + i.val)) = some (.pinv i))

/-- R34: the word of STATUS, bit by bit. -/
def Obligations.StatusWordLayout : Prop :=
  ∀ s : State,
    readRegister .status s =
      s.busy.toNat + 2 * s.done.toNat + 4 * s.err.toNat + 32 * s.svalid.toNat +
        64 * s.pvalid.toNat + 128 * s.pt.toNat

/-- R63, R85, R86: the words of the block-valued and of the bit-valued registers: the tag above the
16-bit data field, position `p` of the data at word bit `15 − p`. -/
def Obligations.RegisterWordsPackMsbFirst : Prop :=
  (∀ r : BlockReg,
    r.toWord.toNat = r.len.toNat * 2 ^ 16 + (r.nib[0]).toNat * 2 ^ 12 + (r.nib[1]).toNat * 2 ^ 8 +
      (r.nib[2]).toNat * 2 ^ 4 + (r.nib[3]).toNat ∧
    ∀ p : Fin 16, r.toWord.getLsbD (15 - p.val) = bitAt r.nib p) ∧
  (∀ r : BitReg, r.toWord.toNat / 2 ^ 16 = r.len.toNat ∧
    ∀ p : Fin 16, r.toWord.getLsbD (15 - p.val) = r.bit[p])

/-- R64: a Block and the BitVector `toBits` makes of it have the same 16-bit data field. -/
def Obligations.BlockAndBitsShareDataField : Prop :=
  ∀ B : Block, B.length ≤ 4 → bitData (fitBits (toBits B)) = nibData (fitBlock B)

/-! ## The pure functions -/

/-- R100: `toBits`. -/
def Obligations.ToBitsExpandsMsbFirst : Prop :=
  ∀ B : Block, (toBits B).length = 4 * B.length ∧
    ∀ (i j : Nat) (n : Nibble), B[i]? = some n → j < 4 →
      (toBits B)[4 * i + j]? = some ((n.toNat / 2 ^ (3 - j)) % 2 == 1)

/-- R101: `toNibbles`. -/
def Obligations.ToNibblesPacksOrFails : Prop :=
  (∀ V : BitString, V.length % 4 = 0 →
    ∃ B, toNibbles V = .ok B ∧ B.length = V.length / 4 ∧
      ∀ (i : Nat) (n : Nibble), B[i]? = some n →
        n.toNat = 8 * (V.getD (4 * i) false).toNat + 4 * (V.getD (4 * i + 1) false).toNat +
          2 * (V.getD (4 * i + 2) false).toNat + (V.getD (4 * i + 3) false).toNat) ∧
  (∀ V : BitString, V.length % 4 ≠ 0 → toNibbles V = .error .invalidLength)

/-- R102: the two converters are mutually inverse, nibble `i` at the positions `4i` to `4i + 3`. -/
def Obligations.ConvertersAreMutuallyInverse : Prop :=
  (∀ B : Block, toNibbles (toBits B) = .ok B) ∧
  (∀ (V : BitString) (B : Block), V.length % 4 = 0 → toNibbles V = .ok B → toBits B = V) ∧
  (∀ (B : Block) (i j : Nat) (n : Nibble), B[i]? = some n → j < 4 →
    (toBits B)[4 * i + j]? = some (n.getMsbD j))

/-- R112: a valid table and its inverse. -/
def Obligations.InverseTableLaws : Prop :=
  ∀ T : List Nibble, T.length ≤ 16 → IsPerm (T.map fun x => x.toNat) T.length →
    (∀ x < T.length, ((inverse T).getD (T.getD x 0).toNat 0).toNat = x ∧
      (T.getD ((inverse T).getD x 0).toNat 0).toNat = x) ∧
    IsPerm ((inverse T).map fun x => x.toNat) T.length ∧
    inverse (inverse T) = T

/-- R125, R126: key mixing. -/
def Obligations.MixKeyIsInvolution : Prop :=
  (∀ B K : Block, B.length ≠ K.length → mixKey B K = .error .invalidLength) ∧
  ∀ B K : Block, B.length = K.length →
    (∃ C, mixKey B K = .ok C ∧ C.length = B.length ∧ mixKey C K = .ok B ∧
      ∀ i < B.length, C.getD i 0 = B.getD i 0 ^^^ K.getD i 0) ∧
    mixKey B (List.replicate B.length 0) = .ok B ∧
    mixKey B B = .ok (List.replicate B.length 0) ∧
    mixKey B K = mixKey K B

/-- R128: substitution through a valid S-box and through its inverse undo each other; the identity
S-box changes nothing. -/
def Obligations.SubstitutionIsUndoneByInverse : Prop :=
  (∀ (B : Block) (S : List Nibble), IsPerm (S.map fun x => x.toNat) 16 →
    substitute (substitute B S) (inverse S) = B ∧ substitute (substitute B (inverse S)) S = B) ∧
  (∀ B : Block, substitute B ((List.range 16).map fun i => BitVec.ofNat 4 i) = B)

/-- R129, R130: a P-box entry is the destination of a bit; the example that tells the directions
apart. -/
def Obligations.PermutationSendsBitToDestination : Prop :=
  (∀ (B : Block) (P : List Nibble), IsPerm (P.map fun x => x.toNat) (4 * B.length) →
    (permute B P).length = B.length ∧
    ∀ i < 4 * B.length,
      (toBits (permute B P)).getD (P.getD i 0).toNat false = (toBits B).getD i false) ∧
  permute [8, 0, 0, 0] ((List.range 16).map fun i => BitVec.ofNat 4 (i + 1)) = [4, 0, 0, 0]

/-- R131: permutation through a valid P-box and through its inverse undo each other; the identity
P-box changes nothing; the number of 1 bits is kept. -/
def Obligations.PermutationIsUndoneByInverse : Prop :=
  (∀ (B : Block) (P : List Nibble), B.length ≤ 4 →
    IsPerm (P.map fun x => x.toNat) (4 * B.length) →
    permute (permute B P) (inverse P) = B ∧ permute (permute B (inverse P)) P = B ∧
    (toBits (permute B P)).count true = (toBits B).count true) ∧
  (∀ B : Block, B.length ≤ 4 →
    permute B ((List.range (4 * B.length)).map fun i => BitVec.ofNat 4 i) = B)

/-- R155: decryption undoes encryption and encryption undoes decryption, for every valid S-box and
P-box and every keys. -/
def Obligations.EncryptDecryptRoundTrip : Prop :=
  (∀ (B k1 k2 : Block) (S : List Nibble), B.length = 1 → k1.length = 1 → k2.length = 1 →
    IsPerm (S.map fun x => x.toNat) 16 →
    decryptToy (encryptToy B S k1 k2) (inverse S) k1 k2 = B ∧
    encryptToy (decryptToy B (inverse S) k1 k2) S k1 k2 = B) ∧
  (∀ (B k1 k2 k3 k4 k5 : Block) (S P : List Nibble), B.length = 4 → k1.length = 4 →
    k2.length = 4 → k3.length = 4 → k4.length = 4 → k5.length = 4 →
    IsPerm (S.map fun x => x.toNat) 16 → IsPerm (P.map fun x => x.toNat) 16 →
    decryptSpn (encryptSpn B S P k1 k2 k3 k4 k5) (inverse S) (inverse P) k1 k2 k3 k4 k5 = B ∧
    encryptSpn (decryptSpn B (inverse S) (inverse P) k1 k2 k3 k4 k5) S P k1 k2 k3 k4 k5 = B)

/-- R156, at the machine: with the same tables and keys two runs of ENC that leave the same RES
started from the same Block in BLK, and every Block of the arity is some run's result. -/
def Obligations.EncryptionIsBijective : Prop :=
  ∀ (t : Topology) (s : State), DatapathInv s → s.busy = false → pipelineTablesOk t s →
    pipelineTagsOk t s →
    (∀ (b : BlockReg) (u v : State), b.len = s.blk.len →
      execTimes (stageCount t + 1) (.enc t) s = .next u →
      execTimes (stageCount t + 1) (.enc t) { s with blk := b } = .next v →
      u.res = v.res → activeCells t b.nib = activeCells t s.blk.nib) ∧
    (∀ c : Vector Nibble 4, ∃ (b : BlockReg) (v : State), b.len = s.blk.len ∧
      execTimes (stageCount t + 1) (.enc t) { s with blk := b } = .next v ∧
      v.res = regOf t (activeCells t c))

/-! ## WAIT and the reads of a trace -/

/-- R207, R191: a WAIT always ends. On a running command it ends after the controller's remaining
steps with DONE = 1 and ERR = 0; on an idle datapath, also after a reset, its first poll ends it.
The poll that ends it reads STATUS. That WAIT is one pending input which gives its turn to the
controller is the model's (log entries 1, 7). -/
def Obligations.WaitAlwaysEnds : Prop :=
  ∀ (s : State) (rest : List Event), DatapathInv s → s.inputs = .wait :: rest →
    ∃ n t, n ≤ 13 ∧ Host.Core.run Sys2Proof.core n s = .next t ∧ t.inputs = rest ∧
      t.busy = false ∧ t.rdata = some (readRegister .status t) ∧
      (s.busy = true → t.done = true ∧ t.err = 0) ∧
      (s.busy = false → n = 1 ∧ t.datapath = s.datapath)

/-- R93: the reads of a trace return TLEN and then the word of TRACE[j] for each `j` below TLEN, in
order, and change nothing of the datapath. That they are one pending input which becomes the reads
is the model's (log entries 1, 6, 17). -/
def Obligations.TraceReadsFollowTlen : Prop :=
  ∀ (s : State) (rest : List Event), s.tlen.toNat ≤ 13 → s.inputs = .readTrace :: rest →
    (∃ t, Host.Core.run Sys2Proof.core 1 s = .next t ∧ t.datapath = s.datapath ∧
      t.rdata = some s.tlen.toNat) ∧
    (∀ j : Fin 13, j.val < s.tlen.toNat →
      ∃ t, Host.Core.run Sys2Proof.core (j.val + 2) s = .next t ∧ t.datapath = s.datapath ∧
        t.rdata = some (s.trace[j]).toWord.toNat) ∧
    (∃ t, Host.Core.run Sys2Proof.core (s.tlen.toNat + 1) s = .next t ∧
      t.datapath = s.datapath ∧ t.inputs = rest)

/-- R93: the host sequences of `encryptWithTrace` and `decryptWithTrace` on an idle datapath with the
tables in the stores, with nothing between their accesses, take all their reads and end with ERR = 0,
the Block in RES and the ordered snapshots in TRACE[0..TLEN−1]. The list of pending inputs, the WAIT
and the reads of a trace as inputs, and the sequence as a list are the model's (log entries 1, 7,
17). -/
def Obligations.TracedSequencesReturnBlockAndSnapshots : Prop :=
  ∀ (t : Topology) (B : Block) (keys : List Block),
    B.length = arity t → keys.length = keyCount t → (∀ k ∈ keys, k.length = arity t) →
    (∃ seq, encryptWithTraceSequence t B keys = some seq ∧
      ∀ (s : State) (rest : List Event), s.busy = false → pipelineTablesOk t s →
      s.inputs = seq ++ rest →
      ∃ u, Host.Core.run Sys2Proof.core (keyCount t + 2 * stageCount t + 7) s = .next u ∧
        u.inputs = rest ∧ u.busy = false ∧ u.done = true ∧
        traceResult u = .ok
          (match t with
          | .toy =>
            (encryptToy B s.sbox.toList (keys.getD 0 []) (keys.getD 1 []),
              encryptToyTrace B s.sbox.toList (keys.getD 0 []) (keys.getD 1 []))
          | .spn =>
            (encryptSpn B s.sbox.toList s.pbox.toList (keys.getD 0 []) (keys.getD 1 [])
              (keys.getD 2 []) (keys.getD 3 []) (keys.getD 4 []),
              encryptSpnTrace B s.sbox.toList s.pbox.toList (keys.getD 0 []) (keys.getD 1 [])
                (keys.getD 2 []) (keys.getD 3 []) (keys.getD 4 [])))) ∧
    (∃ seq, decryptWithTraceSequence t B keys = some seq ∧
      ∀ (s : State) (rest : List Event), s.busy = false → pipelineTablesOk t s →
      s.inputs = seq ++ rest →
      ∃ u, Host.Core.run Sys2Proof.core (keyCount t + 2 * stageCount t + 7) s = .next u ∧
        u.inputs = rest ∧ u.busy = false ∧ u.done = true ∧
        traceResult u = .ok
          (match t with
          | .toy =>
            (decryptToy B s.sinv.toList (keys.getD 0 []) (keys.getD 1 []),
              decryptToyTrace B s.sinv.toList (keys.getD 0 []) (keys.getD 1 []))
          | .spn =>
            (decryptSpn B s.sinv.toList s.pinv.toList (keys.getD 0 []) (keys.getD 1 [])
              (keys.getD 2 []) (keys.getD 3 []) (keys.getD 4 []),
              decryptSpnTrace B s.sinv.toList s.pinv.toList (keys.getD 0 []) (keys.getD 1 [])
                (keys.getD 2 []) (keys.getD 3 []) (keys.getD 4 []))))
end

