-- ==== Sys2Proof/Laws/Functions.lean ====
section
/-! SUPPORT. The small lemmas of the pure functions and of the cell operations: lengths, single cells, and what a loop of writes leaves. -/

namespace Sys2Proof.Machine

@[simp] theorem arity_toy : arity .toy = 1 := rfl
@[simp] theorem arity_spn : arity .spn = 4 := rfl

theorem arity_le (t : Topology) : arity t ≤ 4 := by cases t <;> decide
theorem arity_pos (t : Topology) : 0 < arity t := by cases t <;> decide

/-! ## A loop of writes to a list -/

theorem length_foldl_set {α : Type} (p : Nat → Nat) (val : Nat → α) (n : Nat) (l : List α) :
    ((List.range n).foldl (fun O i => O.set (p i) (val i)) l).length = l.length := by
  induction n with
  | zero => rfl
  | succ n ih => simp [List.range_succ, ih]

/-- A cell no write of the loop names keeps its value. -/
theorem getElem?_foldl_set_of_ne {α : Type} (p : Nat → Nat) (val : Nat → α) (n : Nat) (l : List α)
    (k : Nat) (h : ∀ i < n, p i ≠ k) :
    ((List.range n).foldl (fun O i => O.set (p i) (val i)) l)[k]? = l[k]? := by
  induction n with
  | zero => rfl
  | succ n ih =>
    rw [List.range_succ, List.foldl_append]
    simp only [List.foldl_cons, List.foldl_nil]
    rw [List.getElem?_set_ne (h n (Nat.lt_succ_self n))]
    exact ih fun i hi => h i (Nat.lt_succ_of_lt hi)

/-- A cell exactly one write of the loop names holds that write's value. -/
theorem getElem?_foldl_set {α : Type} (p : Nat → Nat) (val : Nat → α) (n : Nat) (l : List α)
    (hinj : ∀ i < n, ∀ j < n, p i = p j → i = j) {i : Nat} (hi : i < n) (hl : p i < l.length) :
    ((List.range n).foldl (fun O i => O.set (p i) (val i)) l)[p i]? = some (val i) := by
  induction n with
  | zero => omega
  | succ n ih =>
    rw [List.range_succ, List.foldl_append]
    simp only [List.foldl_cons, List.foldl_nil]
    rcases Nat.lt_succ_iff_lt_or_eq.mp hi with h | rfl
    · have hne : p n ≠ p i := fun e =>
        absurd (hinj n (Nat.lt_succ_self n) i hi e) (by omega)
      rw [List.getElem?_set_ne hne]
      exact ih (fun a ha b hb => hinj a (by omega) b (by omega)) h
    · rw [List.getElem?_set_self (by rw [length_foldl_set]; exact hl)]

/-- The same loop over a vector. -/
theorem toList_foldl_setIfInBounds {α : Type} {m : Nat} (p : Nat → Nat) (val : Nat → α) (n : Nat)
    (v : Vector α m) :
    ((List.range n).foldl (fun (T : Vector α m) i => T.setIfInBounds (p i) (val i)) v).toList =
      (List.range n).foldl (fun O i => O.set (p i) (val i)) v.toList := by
  induction n with
  | zero => rfl
  | succ n ih =>
    rw [List.range_succ, List.foldl_append, List.foldl_append]
    simp only [List.foldl_cons, List.foldl_nil]
    rw [← ih]
    simp [Vector.toList]

/-! ## Lengths -/

@[simp] theorem length_nibbleBits (n : Nibble) : (nibbleBits n).length = 4 := rfl

@[simp] theorem length_toBits (B : Block) : (toBits B).length = 4 * B.length := by
  induction B with
  | nil => rfl
  | cons n B ih =>
    simp only [toBits, List.flatMap_cons, List.length_append, length_nibbleBits] at ih ⊢
    rw [ih, List.length_cons]
    omega

@[simp] theorem length_packNibbles (V : BitString) : (packNibbles V).length = V.length / 4 := by
  fun_induction packNibbles V with
  | case1 a b c d r ih =>
    simp only [List.length_cons, ih]
    omega
  | case2 V h =>
    rcases V with _ | ⟨a, _ | ⟨b, _ | ⟨c, _ | ⟨d, r⟩⟩⟩⟩
    · rfl
    · simp
    · simp
    · simp
    · exact absurd rfl (h a b c d r)

@[simp] theorem length_xorBlocks (B K : Block) :
    (xorBlocks B K).length = min B.length K.length := by
  simp [xorBlocks]

@[simp] theorem length_substitute (B : Block) (S : List Nibble) :
    (substitute B S).length = B.length := by
  simp [substitute]

@[simp] theorem length_relocate (V : BitString) (P : List Nibble) :
    (relocate V P).length = V.length := by
  unfold relocate
  rw [length_foldl_set fun i => (P.getD i 0).toNat]
  exact List.length_replicate

@[simp] theorem length_permute (B : Block) (P : List Nibble) :
    (permute B P).length = B.length := by
  simp [permute]

@[simp] theorem length_inverse (T : List Nibble) : (inverse T).length = T.length := by
  unfold inverse
  rw [length_foldl_set fun i => (T.getD i 0).toNat]
  exact List.length_replicate

@[simp] theorem length_blockOf {w : Nat} (hw : w ≤ 4) (v : Vector Nibble 4) :
    (blockOf w v).length = w := by
  simp [blockOf, hw]

/-! ## Single cells -/

theorem storeBlock_getElem (B : Block) (v : Vector Nibble 4) (i : Nat) (h : i < 4) :
    (storeBlock B v)[i] = B.getD i v[i] := by
  simp [storeBlock]

theorem fitBlock_getElem (B : Block) (i : Nat) (h : i < 4) : (fitBlock B)[i] = B.getD i 0 := by
  simp [fitBlock]

theorem fitBits_getElem (V : BitString) (i : Nat) (h : i < 16) :
    (fitBits V)[i] = V.getD i false := by
  simp [fitBits]

/-- The cells at and above the arity of the stored block keep their value. -/
theorem storeBlock_of_le (B : Block) (v : Vector Nibble 4) (j : Fin 4) (h : B.length ≤ j.val) :
    (storeBlock B v)[j] = v[j] := by
  have := storeBlock_getElem B v j.val j.isLt
  simpa [List.getElem?_eq_none h] using this

/-- The cells of a Block at and above its arity are 0. -/
theorem fitBlock_of_le (B : Block) (j : Fin 4) (h : B.length ≤ j.val) : (fitBlock B)[j] = 0 := by
  have := fitBlock_getElem B j.val j.isLt
  simpa [List.getElem?_eq_none h] using this

/-- Reading back the Block just stored. -/
@[simp] theorem blockOf_storeBlock (B : Block) (v : Vector Nibble 4) (h : B.length ≤ 4) :
    blockOf B.length (storeBlock B v) = B := by
  apply List.ext_getElem
  · simp [blockOf, h]
  · intro i h1 h2
    simp [blockOf, storeBlock_getElem, h2]

/-- The cells of a Block read back as the Block. -/
@[simp] theorem blockOf_fitBlock (B : Block) (h : B.length ≤ 4) :
    blockOf B.length (fitBlock B) = B := by
  apply List.ext_getElem
  · simp [blockOf, h]
  · intro i h1 h2
    simp [blockOf, fitBlock_getElem, h2]

/-- What the controller writes to a block-valued register has a legal arity and zero cells above
it. -/
theorem blockReg_written (t : Topology) (v : Vector Nibble 4) : (blockReg t v).Written := by
  refine ⟨t, by cases t <;> rfl, fun j hj => ?_⟩
  exact fitBlock_of_le _ j (by rw [length_blockOf (arity_le t)]; exact hj)

/-- What TOBITS writes to RBITS has a legal length and zero bits above it. -/
theorem bitReg_written (t : Topology) (V : BitString) (h : V.length = 4 * arity t) :
    (bitReg t V).Written := by
  refine ⟨t, by cases t <;> rfl, fun p hp => ?_⟩
  have := fitBits_getElem V p.val p.isLt
  simpa [bitReg, List.getElem?_eq_none (h ▸ hp : V.length ≤ p.val)] using this

/-! ## Cells and words -/

/-- The cells of the Block in four cells are the active ones of those four. -/
@[simp] theorem fitBlock_blockOf (t : Topology) (v : Vector Nibble 4) :
    fitBlock (blockOf (arity t) v) = activeCells t v := by
  apply Vector.ext
  intro j hj
  simp only [fitBlock_getElem, activeCells, Vector.getElem_ofFn, blockOf]
  by_cases h : j < arity t <;> simp [h, List.getD_eq_getElem?_getD, hj]

/-- Cells that are zero at and above `w` are all active. -/
theorem activeCells_of_lanes (t : Topology) (v : Vector Nibble 4)
    (h : ∀ j : Fin 4, arity t ≤ j.val → v[j] = 0) : activeCells t v = v := by
  apply Vector.ext
  intro j hj
  simp only [activeCells, Vector.getElem_ofFn]
  by_cases h' : j < arity t
  · simp [h']
  · simp only [h', if_false]
    exact (h ⟨j, hj⟩ (by simpa using h')).symm

@[simp] theorem activeCells_idem (t : Topology) (v : Vector Nibble 4) :
    activeCells t (activeCells t v) = activeCells t v :=
  activeCells_of_lanes t _ fun j hj => by simp [activeCells, Nat.not_lt.mpr hj]

/-- The cells of a Block of arity `w` are zero at and above `w`. -/
theorem activeCells_fitBlock (t : Topology) (B : Block) (h : B.length = arity t) :
    activeCells t (fitBlock B) = fitBlock B :=
  activeCells_of_lanes t _ fun j hj => fitBlock_of_le _ j (by omega)

@[simp] theorem blockOf_activeCells (t : Topology) (v : Vector Nibble 4) :
    blockOf (arity t) (activeCells t v) = blockOf (arity t) v := by
  apply List.ext_getElem
  · simp [length_blockOf (arity_le t)]
  · intro i h1 h2
    rw [length_blockOf (arity_le t)] at h1
    have := arity_le t
    simp [blockOf, activeCells, h1]

/-- What the controller writes to a block-valued register. -/
theorem blockReg_eq (t : Topology) (v : Vector Nibble 4) :
    blockReg t v = regOf t (activeCells t v) := by
  simp [blockReg, regOf]

/-- A stage that stores a Block of arity `w` over active cells leaves the cells of that Block. -/
theorem storeBlock_activeCells (t : Topology) (B : Block) (h : B.length = arity t)
    (v : Vector Nibble 4) : storeBlock B (activeCells t v) = fitBlock B := by
  apply Vector.ext
  intro j hj
  simp only [storeBlock_getElem, fitBlock_getElem]
  by_cases hjt : j < arity t
  · simp [h, hjt, List.getD_eq_getElem?_getD]
  · simp [h, hjt, List.getD_eq_getElem?_getD, activeCells]

/-- Shifting bits in one after another puts the last at bit 0. -/
theorem getLsbD_foldl_shift (L : List Bool) (d : BitVec 16) (k : Nat) (hk : k < 16) :
    (L.foldl (fun (d : BitVec 16) b => (d <<< 1) ||| (BitVec.ofBool b).setWidth 16) d).getLsbD k =
      if k < L.length then L.getD (L.length - 1 - k) false else d.getLsbD (k - L.length) := by
  induction L generalizing d with
  | nil => simp
  | cons b L ih =>
    rw [List.foldl_cons, ih]
    by_cases h : k < L.length
    · rw [if_pos h, if_pos (by simp; omega),
        show (b :: L).length - 1 - k = (L.length - 1 - k) + 1 by simp; omega]
      rfl
    · rw [if_neg h]
      by_cases h2 : k = L.length
      · subst h2
        simp
      · rw [if_neg (by simp; omega)]
        simp only [List.length_cons, BitVec.getLsbD_or, BitVec.getLsbD_shiftLeft,
          BitVec.getLsbD_setWidth]
        rw [show k - L.length = (k - (L.length + 1)) + 1 by omega]
        simp
        omega

/-- The data field of sixteen bit cells, bit by bit (R63). -/
theorem bitData_getLsbD (v : Vector Bool 16) (p : Fin 16) :
    (bitData v).getLsbD (15 - p.val) = v[p] := by
  unfold bitData
  rw [getLsbD_foldl_shift _ _ _ (by omega), if_pos (by simp; omega)]
  simp only [Vector.length_toList, List.getD_eq_getElem?_getD]
  rw [show 16 - 1 - (15 - p.val) = p.val by omega]
  simp

/-! ## The table builds -/

@[simp] theorem forwardStore_getElem (cand : Vector Byte 16) (N i : Nat) (h : i < 16) :
    (forwardStore cand N)[i] = if i < N then (cand[i]).setWidth 4 else 0 := by
  simp [forwardStore]

/-- A checked candidate has its `N` entries in CAND, in range and distinct. -/
theorem candidateOk_iff (s : State) {N : Nat} (hN : N ≤ 16) :
    s.candidateOk N = true ↔
      s.candlen.toNat = N ∧
      (∀ i : Nat, ∀ h : i < 16, i < N → (s.cand[i]).toNat < N) ∧
      (∀ i j : Nat, ∀ hi : i < 16, ∀ hj : j < 16, i < N → j < N →
        (s.cand[i]).toNat = (s.cand[j]).toNat → i = j) := by
  unfold State.candidateOk
  simp only [Bool.and_eq_true, decide_eq_true_eq]
  constructor
  · rintro ⟨hl, -, hr, hd⟩
    refine ⟨hl, fun i h hi => hr _ ?_, fun i j hi hj hin hjn he => ?_⟩
    · rw [State.candidate, hl]
      refine List.mem_iff_getElem.mpr ⟨i, by simp; omega, by simp⟩
    · rw [State.candidate, hl] at hd
      exact (List.Nodup.getElem_inj_iff hd (hi := by simp; omega) (hj := by simp; omega)).mp
        (by simpa using he)
  · rintro ⟨hl, hr, hd⟩
    refine ⟨hl, by simp [State.candidate, hl, hN], fun x hx => ?_, ?_⟩
    · rw [State.candidate, hl] at hx
      obtain ⟨i, hi, rfl⟩ := List.mem_iff_getElem.mp hx
      simp only [List.length_take, List.length_map, Vector.length_toList] at hi
      simpa using hr i (by omega) (by omega)
    · rw [State.candidate, hl]
      refine List.nodup_iff_injective_getElem.mpr fun a b hab => ?_
      obtain ⟨a, ha⟩ := a
      obtain ⟨b, hb⟩ := b
      simp only [List.length_take, List.length_map, Vector.length_toList] at ha hb
      simp only [List.getElem_take, List.getElem_map, Vector.getElem_toList] at hab
      exact Fin.ext (hd a b (by omega) (by omega) (by omega) (by omega) hab)

/-- For a checked candidate the inverse store maps every entry back to its index. -/
theorem inverseStore_at (s : State) {N : Nat} (hN : N ≤ 16) (hc : s.candidateOk N = true)
    (old : Table) (i : Nat) (hi : i < 16) (hin : i < N) (hx : (s.cand[i]).toNat < 16) :
    (inverseStore s.cand N old)[(s.cand[i]).toNat] = BitVec.ofNat 4 i := by
  obtain ⟨-, hr, hd⟩ := (candidateOk_iff s hN).mp hc
  have hlt := hr i hi hin
  unfold inverseStore
  simp only [Vector.getElem_ofFn, hlt, if_true]
  have hp : ∀ k, ∀ hk : k < 16, (s.cand.getD k 0#8) = s.cand[k] := fun k hk => by
    simp [Vector.getD, hk]
  have key := getElem?_foldl_set (fun k => (s.cand.getD k 0#8).toNat) (fun k => BitVec.ofNat 4 k) N
    old.toList (fun a ha b hb hab => hd a b (by omega) (by omega) ha hb
      (by simpa [hp a (by omega), hp b (by omega)] using hab)) hin
    (by simpa [hp i hi] using hx)
  rw [← toList_foldl_setIfInBounds] at key
  simp only [hp i hi] at key
  rw [List.getElem?_eq_some_iff] at key
  obtain ⟨h1, h2⟩ := key
  simpa using h2

/-- A checked candidate builds a table and its inverse (R113, R114, R117). -/
theorem tablePair_of_candidateOk (s : State) {N : Nat} (hN : N ≤ 16)
    (hc : s.candidateOk N = true) (old : Table) :
    TablePair (forwardStore s.cand N) (inverseStore s.cand N old) N := by
  obtain ⟨-, hr, hd⟩ := (candidateOk_iff s hN).mp hc
  have hval : ∀ i, ∀ hi : i < 16, i < N →
      ((forwardStore s.cand N)[i]).toNat = (s.cand[i]).toNat := fun i hi hin => by
    have := hr i hi hin
    rw [forwardStore_getElem, if_pos hin, BitVec.toNat_setWidth]
    exact Nat.mod_eq_of_lt (by omega)
  refine ⟨⟨?_, ?_, ?_⟩, ?_, ?_⟩
  · simp [tableEntries, hN]
  · intro x hx
    obtain ⟨i, hi, rfl⟩ := List.mem_iff_getElem.mp hx
    simp only [tableEntries, List.length_map, List.length_take, Vector.length_toList] at hi
    simp only [tableEntries, List.getElem_map, List.getElem_take, Vector.getElem_toList]
    rw [hval i (by omega) (by omega)]
    exact hr i (by omega) (by omega)
  · refine List.nodup_iff_injective_getElem.mpr fun a b hab => ?_
    obtain ⟨a, ha⟩ := a
    obtain ⟨b, hb⟩ := b
    simp only [tableEntries, List.length_map, List.length_take, Vector.length_toList] at ha hb
    simp only [tableEntries, List.getElem_map, List.getElem_take, Vector.getElem_toList] at hab
    rw [hval a (by omega) (by omega), hval b (by omega) (by omega)] at hab
    exact Fin.ext (hd a b (by omega) (by omega) (by omega) (by omega) hab)
  · intro i hi
    have h1 := hval i.val i.isLt hi
    have h2 : (s.cand[i.val]).toNat < 16 := by
      have := hr i.val i.isLt hi
      omega
    have h3 := inverseStore_at s hN hc old i.val i.isLt hi h2
    unfold cellAt
    simp only [Fin.getElem_fin, h1]
    exact h3
  · intro i hi
    simp [inverseStore, Nat.not_lt.mpr hi]

end Sys2Proof.Machine
end

