-- ==== Sys2Proof/Laws/State.lean ====
section
/-! SUPPORT. What each named update of the state leaves in each field: one lemma per field per update, so that no later proof unfolds a record update. -/

namespace Sys2Proof.Machine

/-! ## clearOutcome -/

@[simp] theorem clearOutcome_blk (s : State) : (clearOutcome s).blk = s.blk := rfl
@[simp] theorem clearOutcome_k1 (s : State) : (clearOutcome s).k1 = s.k1 := rfl
@[simp] theorem clearOutcome_k2 (s : State) : (clearOutcome s).k2 = s.k2 := rfl
@[simp] theorem clearOutcome_k3 (s : State) : (clearOutcome s).k3 = s.k3 := rfl
@[simp] theorem clearOutcome_k4 (s : State) : (clearOutcome s).k4 = s.k4 := rfl
@[simp] theorem clearOutcome_k5 (s : State) : (clearOutcome s).k5 = s.k5 := rfl
@[simp] theorem clearOutcome_bits (s : State) : (clearOutcome s).bits = s.bits := rfl
@[simp] theorem clearOutcome_candlen (s : State) : (clearOutcome s).candlen = s.candlen := rfl
@[simp] theorem clearOutcome_cand (s : State) : (clearOutcome s).cand = s.cand := rfl
@[simp] theorem clearOutcome_res (s : State) : (clearOutcome s).res = s.res := rfl
@[simp] theorem clearOutcome_rbits (s : State) : (clearOutcome s).rbits = s.rbits := rfl
@[simp] theorem clearOutcome_trace (s : State) : (clearOutcome s).trace = s.trace := rfl
@[simp] theorem clearOutcome_tlen (s : State) : (clearOutcome s).tlen = s.tlen := rfl
@[simp] theorem clearOutcome_sbox (s : State) : (clearOutcome s).sbox = s.sbox := rfl
@[simp] theorem clearOutcome_sinv (s : State) : (clearOutcome s).sinv = s.sinv := rfl
@[simp] theorem clearOutcome_pbox (s : State) : (clearOutcome s).pbox = s.pbox := rfl
@[simp] theorem clearOutcome_pinv (s : State) : (clearOutcome s).pinv = s.pinv := rfl
@[simp] theorem clearOutcome_busy (s : State) : (clearOutcome s).busy = s.busy := rfl
@[simp] theorem clearOutcome_done (s : State) : (clearOutcome s).done = false := rfl
@[simp] theorem clearOutcome_err (s : State) : (clearOutcome s).err = 0 := rfl
@[simp] theorem clearOutcome_svalid (s : State) : (clearOutcome s).svalid = s.svalid := rfl
@[simp] theorem clearOutcome_pvalid (s : State) : (clearOutcome s).pvalid = s.pvalid := rfl
@[simp] theorem clearOutcome_pt (s : State) : (clearOutcome s).pt = s.pt := rfl
@[simp] theorem clearOutcome_ir (s : State) : (clearOutcome s).ir = s.ir := rfl
@[simp] theorem clearOutcome_sc (s : State) : (clearOutcome s).sc = s.sc := rfl
@[simp] theorem clearOutcome_st (s : State) : (clearOutcome s).st = s.st := rfl
@[simp] theorem clearOutcome_inputs (s : State) : (clearOutcome s).inputs = s.inputs := rfl
@[simp] theorem clearOutcome_rdata (s : State) : (clearOutcome s).rdata = s.rdata := rfl
@[simp] theorem clearOutcome_freeCount (s : State) : (clearOutcome s).freeCount = s.freeCount := rfl

/-! ## beginAccept -/

@[simp] theorem beginAccept_blk (v : Byte) (s : State) : (beginAccept v s).blk = s.blk := rfl
@[simp] theorem beginAccept_k1 (v : Byte) (s : State) : (beginAccept v s).k1 = s.k1 := rfl
@[simp] theorem beginAccept_k2 (v : Byte) (s : State) : (beginAccept v s).k2 = s.k2 := rfl
@[simp] theorem beginAccept_k3 (v : Byte) (s : State) : (beginAccept v s).k3 = s.k3 := rfl
@[simp] theorem beginAccept_k4 (v : Byte) (s : State) : (beginAccept v s).k4 = s.k4 := rfl
@[simp] theorem beginAccept_k5 (v : Byte) (s : State) : (beginAccept v s).k5 = s.k5 := rfl
@[simp] theorem beginAccept_bits (v : Byte) (s : State) : (beginAccept v s).bits = s.bits := rfl
@[simp] theorem beginAccept_candlen (v : Byte) (s : State) :
    (beginAccept v s).candlen = s.candlen := rfl
@[simp] theorem beginAccept_cand (v : Byte) (s : State) : (beginAccept v s).cand = s.cand := rfl
@[simp] theorem beginAccept_res (v : Byte) (s : State) : (beginAccept v s).res = s.res := rfl
@[simp] theorem beginAccept_rbits (v : Byte) (s : State) : (beginAccept v s).rbits = s.rbits := rfl
@[simp] theorem beginAccept_trace (v : Byte) (s : State) : (beginAccept v s).trace = s.trace := rfl
@[simp] theorem beginAccept_tlen (v : Byte) (s : State) : (beginAccept v s).tlen = s.tlen := rfl
@[simp] theorem beginAccept_sbox (v : Byte) (s : State) : (beginAccept v s).sbox = s.sbox := rfl
@[simp] theorem beginAccept_sinv (v : Byte) (s : State) : (beginAccept v s).sinv = s.sinv := rfl
@[simp] theorem beginAccept_pbox (v : Byte) (s : State) : (beginAccept v s).pbox = s.pbox := rfl
@[simp] theorem beginAccept_pinv (v : Byte) (s : State) : (beginAccept v s).pinv = s.pinv := rfl
@[simp] theorem beginAccept_busy (v : Byte) (s : State) : (beginAccept v s).busy = s.busy := rfl
@[simp] theorem beginAccept_done (v : Byte) (s : State) : (beginAccept v s).done = false := rfl
@[simp] theorem beginAccept_err (v : Byte) (s : State) : (beginAccept v s).err = 0 := rfl
@[simp] theorem beginAccept_svalid (v : Byte) (s : State) :
    (beginAccept v s).svalid = s.svalid := rfl
@[simp] theorem beginAccept_pvalid (v : Byte) (s : State) :
    (beginAccept v s).pvalid = s.pvalid := rfl
@[simp] theorem beginAccept_pt (v : Byte) (s : State) : (beginAccept v s).pt = s.pt := rfl
@[simp] theorem beginAccept_ir (v : Byte) (s : State) : (beginAccept v s).ir = v := rfl
@[simp] theorem beginAccept_sc (v : Byte) (s : State) : (beginAccept v s).sc = s.sc := rfl
@[simp] theorem beginAccept_st (v : Byte) (s : State) : (beginAccept v s).st = s.st := rfl
@[simp] theorem beginAccept_inputs (v : Byte) (s : State) :
    (beginAccept v s).inputs = s.inputs := rfl
@[simp] theorem beginAccept_rdata (v : Byte) (s : State) : (beginAccept v s).rdata = s.rdata := rfl
@[simp] theorem beginAccept_freeCount (v : Byte) (s : State) :
    (beginAccept v s).freeCount = s.freeCount := rfl

/-! ## setBusy -/

@[simp] theorem setBusy_blk (s : State) : (setBusy s).blk = s.blk := rfl
@[simp] theorem setBusy_k1 (s : State) : (setBusy s).k1 = s.k1 := rfl
@[simp] theorem setBusy_k2 (s : State) : (setBusy s).k2 = s.k2 := rfl
@[simp] theorem setBusy_k3 (s : State) : (setBusy s).k3 = s.k3 := rfl
@[simp] theorem setBusy_k4 (s : State) : (setBusy s).k4 = s.k4 := rfl
@[simp] theorem setBusy_k5 (s : State) : (setBusy s).k5 = s.k5 := rfl
@[simp] theorem setBusy_bits (s : State) : (setBusy s).bits = s.bits := rfl
@[simp] theorem setBusy_candlen (s : State) : (setBusy s).candlen = s.candlen := rfl
@[simp] theorem setBusy_cand (s : State) : (setBusy s).cand = s.cand := rfl
@[simp] theorem setBusy_res (s : State) : (setBusy s).res = s.res := rfl
@[simp] theorem setBusy_rbits (s : State) : (setBusy s).rbits = s.rbits := rfl
@[simp] theorem setBusy_trace (s : State) : (setBusy s).trace = s.trace := rfl
@[simp] theorem setBusy_tlen (s : State) : (setBusy s).tlen = s.tlen := rfl
@[simp] theorem setBusy_sbox (s : State) : (setBusy s).sbox = s.sbox := rfl
@[simp] theorem setBusy_sinv (s : State) : (setBusy s).sinv = s.sinv := rfl
@[simp] theorem setBusy_pbox (s : State) : (setBusy s).pbox = s.pbox := rfl
@[simp] theorem setBusy_pinv (s : State) : (setBusy s).pinv = s.pinv := rfl
@[simp] theorem setBusy_busy (s : State) : (setBusy s).busy = true := rfl
@[simp] theorem setBusy_done (s : State) : (setBusy s).done = s.done := rfl
@[simp] theorem setBusy_err (s : State) : (setBusy s).err = s.err := rfl
@[simp] theorem setBusy_svalid (s : State) : (setBusy s).svalid = s.svalid := rfl
@[simp] theorem setBusy_pvalid (s : State) : (setBusy s).pvalid = s.pvalid := rfl
@[simp] theorem setBusy_pt (s : State) : (setBusy s).pt = s.pt := rfl
@[simp] theorem setBusy_ir (s : State) : (setBusy s).ir = s.ir := rfl
@[simp] theorem setBusy_sc (s : State) : (setBusy s).sc = 0 := rfl
@[simp] theorem setBusy_st (s : State) : (setBusy s).st = s.st := rfl
@[simp] theorem setBusy_inputs (s : State) : (setBusy s).inputs = s.inputs := rfl
@[simp] theorem setBusy_rdata (s : State) : (setBusy s).rdata = s.rdata := rfl
@[simp] theorem setBusy_freeCount (s : State) : (setBusy s).freeCount = s.freeCount := rfl

/-! ## setDone -/

@[simp] theorem setDone_blk (s : State) : (setDone s).blk = s.blk := rfl
@[simp] theorem setDone_k1 (s : State) : (setDone s).k1 = s.k1 := rfl
@[simp] theorem setDone_k2 (s : State) : (setDone s).k2 = s.k2 := rfl
@[simp] theorem setDone_k3 (s : State) : (setDone s).k3 = s.k3 := rfl
@[simp] theorem setDone_k4 (s : State) : (setDone s).k4 = s.k4 := rfl
@[simp] theorem setDone_k5 (s : State) : (setDone s).k5 = s.k5 := rfl
@[simp] theorem setDone_bits (s : State) : (setDone s).bits = s.bits := rfl
@[simp] theorem setDone_candlen (s : State) : (setDone s).candlen = s.candlen := rfl
@[simp] theorem setDone_cand (s : State) : (setDone s).cand = s.cand := rfl
@[simp] theorem setDone_res (s : State) : (setDone s).res = s.res := rfl
@[simp] theorem setDone_rbits (s : State) : (setDone s).rbits = s.rbits := rfl
@[simp] theorem setDone_trace (s : State) : (setDone s).trace = s.trace := rfl
@[simp] theorem setDone_tlen (s : State) : (setDone s).tlen = s.tlen := rfl
@[simp] theorem setDone_sbox (s : State) : (setDone s).sbox = s.sbox := rfl
@[simp] theorem setDone_sinv (s : State) : (setDone s).sinv = s.sinv := rfl
@[simp] theorem setDone_pbox (s : State) : (setDone s).pbox = s.pbox := rfl
@[simp] theorem setDone_pinv (s : State) : (setDone s).pinv = s.pinv := rfl
@[simp] theorem setDone_busy (s : State) : (setDone s).busy = false := rfl
@[simp] theorem setDone_done (s : State) : (setDone s).done = true := rfl
@[simp] theorem setDone_err (s : State) : (setDone s).err = s.err := rfl
@[simp] theorem setDone_svalid (s : State) : (setDone s).svalid = s.svalid := rfl
@[simp] theorem setDone_pvalid (s : State) : (setDone s).pvalid = s.pvalid := rfl
@[simp] theorem setDone_pt (s : State) : (setDone s).pt = s.pt := rfl
@[simp] theorem setDone_ir (s : State) : (setDone s).ir = s.ir := rfl
@[simp] theorem setDone_sc (s : State) : (setDone s).sc = s.sc := rfl
@[simp] theorem setDone_st (s : State) : (setDone s).st = s.st := rfl
@[simp] theorem setDone_inputs (s : State) : (setDone s).inputs = s.inputs := rfl
@[simp] theorem setDone_rdata (s : State) : (setDone s).rdata = s.rdata := rfl
@[simp] theorem setDone_freeCount (s : State) : (setDone s).freeCount = s.freeCount := rfl

/-! ## setError -/

@[simp] theorem setError_blk (e : ErrorCode) (s : State) : (setError e s).blk = s.blk := rfl
@[simp] theorem setError_k1 (e : ErrorCode) (s : State) : (setError e s).k1 = s.k1 := rfl
@[simp] theorem setError_k2 (e : ErrorCode) (s : State) : (setError e s).k2 = s.k2 := rfl
@[simp] theorem setError_k3 (e : ErrorCode) (s : State) : (setError e s).k3 = s.k3 := rfl
@[simp] theorem setError_k4 (e : ErrorCode) (s : State) : (setError e s).k4 = s.k4 := rfl
@[simp] theorem setError_k5 (e : ErrorCode) (s : State) : (setError e s).k5 = s.k5 := rfl
@[simp] theorem setError_bits (e : ErrorCode) (s : State) : (setError e s).bits = s.bits := rfl
@[simp] theorem setError_candlen (e : ErrorCode) (s : State) :
    (setError e s).candlen = s.candlen := rfl
@[simp] theorem setError_cand (e : ErrorCode) (s : State) : (setError e s).cand = s.cand := rfl
@[simp] theorem setError_res (e : ErrorCode) (s : State) : (setError e s).res = s.res := rfl
@[simp] theorem setError_rbits (e : ErrorCode) (s : State) : (setError e s).rbits = s.rbits := rfl
@[simp] theorem setError_trace (e : ErrorCode) (s : State) : (setError e s).trace = s.trace := rfl
@[simp] theorem setError_tlen (e : ErrorCode) (s : State) : (setError e s).tlen = s.tlen := rfl
@[simp] theorem setError_sbox (e : ErrorCode) (s : State) : (setError e s).sbox = s.sbox := rfl
@[simp] theorem setError_sinv (e : ErrorCode) (s : State) : (setError e s).sinv = s.sinv := rfl
@[simp] theorem setError_pbox (e : ErrorCode) (s : State) : (setError e s).pbox = s.pbox := rfl
@[simp] theorem setError_pinv (e : ErrorCode) (s : State) : (setError e s).pinv = s.pinv := rfl
@[simp] theorem setError_busy (e : ErrorCode) (s : State) : (setError e s).busy = s.busy := rfl
@[simp] theorem setError_done (e : ErrorCode) (s : State) : (setError e s).done = true := rfl
@[simp] theorem setError_err (e : ErrorCode) (s : State) : (setError e s).err = e.code := rfl
@[simp] theorem setError_svalid (e : ErrorCode) (s : State) :
    (setError e s).svalid = s.svalid := rfl
@[simp] theorem setError_pvalid (e : ErrorCode) (s : State) :
    (setError e s).pvalid = s.pvalid := rfl
@[simp] theorem setError_pt (e : ErrorCode) (s : State) : (setError e s).pt = s.pt := rfl
@[simp] theorem setError_ir (e : ErrorCode) (s : State) : (setError e s).ir = s.ir := rfl
@[simp] theorem setError_sc (e : ErrorCode) (s : State) : (setError e s).sc = s.sc := rfl
@[simp] theorem setError_st (e : ErrorCode) (s : State) : (setError e s).st = s.st := rfl
@[simp] theorem setError_inputs (e : ErrorCode) (s : State) :
    (setError e s).inputs = s.inputs := rfl
@[simp] theorem setError_rdata (e : ErrorCode) (s : State) : (setError e s).rdata = s.rdata := rfl
@[simp] theorem setError_freeCount (e : ErrorCode) (s : State) :
    (setError e s).freeCount = s.freeCount := rfl

/-! ## raise -/

@[simp] theorem raise_blk (e : ErrorCode) (s : State) : (raise e s).blk = s.blk := rfl
@[simp] theorem raise_k1 (e : ErrorCode) (s : State) : (raise e s).k1 = s.k1 := rfl
@[simp] theorem raise_k2 (e : ErrorCode) (s : State) : (raise e s).k2 = s.k2 := rfl
@[simp] theorem raise_k3 (e : ErrorCode) (s : State) : (raise e s).k3 = s.k3 := rfl
@[simp] theorem raise_k4 (e : ErrorCode) (s : State) : (raise e s).k4 = s.k4 := rfl
@[simp] theorem raise_k5 (e : ErrorCode) (s : State) : (raise e s).k5 = s.k5 := rfl
@[simp] theorem raise_bits (e : ErrorCode) (s : State) : (raise e s).bits = s.bits := rfl
@[simp] theorem raise_candlen (e : ErrorCode) (s : State) : (raise e s).candlen = s.candlen := rfl
@[simp] theorem raise_cand (e : ErrorCode) (s : State) : (raise e s).cand = s.cand := rfl
@[simp] theorem raise_res (e : ErrorCode) (s : State) : (raise e s).res = s.res := rfl
@[simp] theorem raise_rbits (e : ErrorCode) (s : State) : (raise e s).rbits = s.rbits := rfl
@[simp] theorem raise_trace (e : ErrorCode) (s : State) : (raise e s).trace = s.trace := rfl
@[simp] theorem raise_tlen (e : ErrorCode) (s : State) : (raise e s).tlen = s.tlen := rfl
@[simp] theorem raise_sbox (e : ErrorCode) (s : State) : (raise e s).sbox = s.sbox := rfl
@[simp] theorem raise_sinv (e : ErrorCode) (s : State) : (raise e s).sinv = s.sinv := rfl
@[simp] theorem raise_pbox (e : ErrorCode) (s : State) : (raise e s).pbox = s.pbox := rfl
@[simp] theorem raise_pinv (e : ErrorCode) (s : State) : (raise e s).pinv = s.pinv := rfl
@[simp] theorem raise_busy (e : ErrorCode) (s : State) : (raise e s).busy = s.busy := rfl
@[simp] theorem raise_done (e : ErrorCode) (s : State) : (raise e s).done = true := rfl
@[simp] theorem raise_err (e : ErrorCode) (s : State) : (raise e s).err = e.code := rfl
@[simp] theorem raise_svalid (e : ErrorCode) (s : State) : (raise e s).svalid = s.svalid := rfl
@[simp] theorem raise_pvalid (e : ErrorCode) (s : State) : (raise e s).pvalid = s.pvalid := rfl
@[simp] theorem raise_pt (e : ErrorCode) (s : State) : (raise e s).pt = s.pt := rfl
@[simp] theorem raise_ir (e : ErrorCode) (s : State) : (raise e s).ir = s.ir := rfl
@[simp] theorem raise_sc (e : ErrorCode) (s : State) : (raise e s).sc = s.sc := rfl
@[simp] theorem raise_st (e : ErrorCode) (s : State) : (raise e s).st = s.st := rfl
@[simp] theorem raise_inputs (e : ErrorCode) (s : State) : (raise e s).inputs = s.inputs := rfl
@[simp] theorem raise_rdata (e : ErrorCode) (s : State) : (raise e s).rdata = s.rdata := rfl
@[simp] theorem raise_freeCount (e : ErrorCode) (s : State) :
    (raise e s).freeCount = s.freeCount := rfl

/-! ## acceptIllegal -/

@[simp] theorem acceptIllegal_blk (v : Byte) (s : State) : (acceptIllegal v s).blk = s.blk := rfl
@[simp] theorem acceptIllegal_k1 (v : Byte) (s : State) : (acceptIllegal v s).k1 = s.k1 := rfl
@[simp] theorem acceptIllegal_k2 (v : Byte) (s : State) : (acceptIllegal v s).k2 = s.k2 := rfl
@[simp] theorem acceptIllegal_k3 (v : Byte) (s : State) : (acceptIllegal v s).k3 = s.k3 := rfl
@[simp] theorem acceptIllegal_k4 (v : Byte) (s : State) : (acceptIllegal v s).k4 = s.k4 := rfl
@[simp] theorem acceptIllegal_k5 (v : Byte) (s : State) : (acceptIllegal v s).k5 = s.k5 := rfl
@[simp] theorem acceptIllegal_bits (v : Byte) (s : State) : (acceptIllegal v s).bits = s.bits := rfl
@[simp] theorem acceptIllegal_candlen (v : Byte) (s : State) :
    (acceptIllegal v s).candlen = s.candlen := rfl
@[simp] theorem acceptIllegal_cand (v : Byte) (s : State) : (acceptIllegal v s).cand = s.cand := rfl
@[simp] theorem acceptIllegal_res (v : Byte) (s : State) : (acceptIllegal v s).res = s.res := rfl
@[simp] theorem acceptIllegal_rbits (v : Byte) (s : State) :
    (acceptIllegal v s).rbits = s.rbits := rfl
@[simp] theorem acceptIllegal_trace (v : Byte) (s : State) :
    (acceptIllegal v s).trace = s.trace := rfl
@[simp] theorem acceptIllegal_tlen (v : Byte) (s : State) : (acceptIllegal v s).tlen = s.tlen := rfl
@[simp] theorem acceptIllegal_sbox (v : Byte) (s : State) : (acceptIllegal v s).sbox = s.sbox := rfl
@[simp] theorem acceptIllegal_sinv (v : Byte) (s : State) : (acceptIllegal v s).sinv = s.sinv := rfl
@[simp] theorem acceptIllegal_pbox (v : Byte) (s : State) : (acceptIllegal v s).pbox = s.pbox := rfl
@[simp] theorem acceptIllegal_pinv (v : Byte) (s : State) : (acceptIllegal v s).pinv = s.pinv := rfl
@[simp] theorem acceptIllegal_busy (v : Byte) (s : State) : (acceptIllegal v s).busy = s.busy := rfl
@[simp] theorem acceptIllegal_done (v : Byte) (s : State) : (acceptIllegal v s).done = true := rfl
@[simp] theorem acceptIllegal_err (v : Byte) (s : State) : (acceptIllegal v s).err = 4 := rfl
@[simp] theorem acceptIllegal_svalid (v : Byte) (s : State) :
    (acceptIllegal v s).svalid = s.svalid := rfl
@[simp] theorem acceptIllegal_pvalid (v : Byte) (s : State) :
    (acceptIllegal v s).pvalid = s.pvalid := rfl
@[simp] theorem acceptIllegal_pt (v : Byte) (s : State) : (acceptIllegal v s).pt = s.pt := rfl
@[simp] theorem acceptIllegal_ir (v : Byte) (s : State) : (acceptIllegal v s).ir = v := rfl
@[simp] theorem acceptIllegal_sc (v : Byte) (s : State) : (acceptIllegal v s).sc = s.sc := rfl
@[simp] theorem acceptIllegal_st (v : Byte) (s : State) : (acceptIllegal v s).st = s.st := rfl
@[simp] theorem acceptIllegal_inputs (v : Byte) (s : State) :
    (acceptIllegal v s).inputs = s.inputs := rfl
@[simp] theorem acceptIllegal_rdata (v : Byte) (s : State) :
    (acceptIllegal v s).rdata = s.rdata := rfl
@[simp] theorem acceptIllegal_freeCount (v : Byte) (s : State) :
    (acceptIllegal v s).freeCount = s.freeCount := rfl

/-! ## clearSvalid -/

@[simp] theorem clearSvalid_blk (s : State) : (clearSvalid s).blk = s.blk := rfl
@[simp] theorem clearSvalid_k1 (s : State) : (clearSvalid s).k1 = s.k1 := rfl
@[simp] theorem clearSvalid_k2 (s : State) : (clearSvalid s).k2 = s.k2 := rfl
@[simp] theorem clearSvalid_k3 (s : State) : (clearSvalid s).k3 = s.k3 := rfl
@[simp] theorem clearSvalid_k4 (s : State) : (clearSvalid s).k4 = s.k4 := rfl
@[simp] theorem clearSvalid_k5 (s : State) : (clearSvalid s).k5 = s.k5 := rfl
@[simp] theorem clearSvalid_bits (s : State) : (clearSvalid s).bits = s.bits := rfl
@[simp] theorem clearSvalid_candlen (s : State) : (clearSvalid s).candlen = s.candlen := rfl
@[simp] theorem clearSvalid_cand (s : State) : (clearSvalid s).cand = s.cand := rfl
@[simp] theorem clearSvalid_res (s : State) : (clearSvalid s).res = s.res := rfl
@[simp] theorem clearSvalid_rbits (s : State) : (clearSvalid s).rbits = s.rbits := rfl
@[simp] theorem clearSvalid_trace (s : State) : (clearSvalid s).trace = s.trace := rfl
@[simp] theorem clearSvalid_tlen (s : State) : (clearSvalid s).tlen = s.tlen := rfl
@[simp] theorem clearSvalid_sbox (s : State) : (clearSvalid s).sbox = s.sbox := rfl
@[simp] theorem clearSvalid_sinv (s : State) : (clearSvalid s).sinv = s.sinv := rfl
@[simp] theorem clearSvalid_pbox (s : State) : (clearSvalid s).pbox = s.pbox := rfl
@[simp] theorem clearSvalid_pinv (s : State) : (clearSvalid s).pinv = s.pinv := rfl
@[simp] theorem clearSvalid_busy (s : State) : (clearSvalid s).busy = s.busy := rfl
@[simp] theorem clearSvalid_done (s : State) : (clearSvalid s).done = s.done := rfl
@[simp] theorem clearSvalid_err (s : State) : (clearSvalid s).err = s.err := rfl
@[simp] theorem clearSvalid_svalid (s : State) : (clearSvalid s).svalid = false := rfl
@[simp] theorem clearSvalid_pvalid (s : State) : (clearSvalid s).pvalid = s.pvalid := rfl
@[simp] theorem clearSvalid_pt (s : State) : (clearSvalid s).pt = s.pt := rfl
@[simp] theorem clearSvalid_ir (s : State) : (clearSvalid s).ir = s.ir := rfl
@[simp] theorem clearSvalid_sc (s : State) : (clearSvalid s).sc = s.sc := rfl
@[simp] theorem clearSvalid_st (s : State) : (clearSvalid s).st = s.st := rfl
@[simp] theorem clearSvalid_inputs (s : State) : (clearSvalid s).inputs = s.inputs := rfl
@[simp] theorem clearSvalid_rdata (s : State) : (clearSvalid s).rdata = s.rdata := rfl
@[simp] theorem clearSvalid_freeCount (s : State) : (clearSvalid s).freeCount = s.freeCount := rfl

/-! ## clearPvalid -/

@[simp] theorem clearPvalid_blk (s : State) : (clearPvalid s).blk = s.blk := rfl
@[simp] theorem clearPvalid_k1 (s : State) : (clearPvalid s).k1 = s.k1 := rfl
@[simp] theorem clearPvalid_k2 (s : State) : (clearPvalid s).k2 = s.k2 := rfl
@[simp] theorem clearPvalid_k3 (s : State) : (clearPvalid s).k3 = s.k3 := rfl
@[simp] theorem clearPvalid_k4 (s : State) : (clearPvalid s).k4 = s.k4 := rfl
@[simp] theorem clearPvalid_k5 (s : State) : (clearPvalid s).k5 = s.k5 := rfl
@[simp] theorem clearPvalid_bits (s : State) : (clearPvalid s).bits = s.bits := rfl
@[simp] theorem clearPvalid_candlen (s : State) : (clearPvalid s).candlen = s.candlen := rfl
@[simp] theorem clearPvalid_cand (s : State) : (clearPvalid s).cand = s.cand := rfl
@[simp] theorem clearPvalid_res (s : State) : (clearPvalid s).res = s.res := rfl
@[simp] theorem clearPvalid_rbits (s : State) : (clearPvalid s).rbits = s.rbits := rfl
@[simp] theorem clearPvalid_trace (s : State) : (clearPvalid s).trace = s.trace := rfl
@[simp] theorem clearPvalid_tlen (s : State) : (clearPvalid s).tlen = s.tlen := rfl
@[simp] theorem clearPvalid_sbox (s : State) : (clearPvalid s).sbox = s.sbox := rfl
@[simp] theorem clearPvalid_sinv (s : State) : (clearPvalid s).sinv = s.sinv := rfl
@[simp] theorem clearPvalid_pbox (s : State) : (clearPvalid s).pbox = s.pbox := rfl
@[simp] theorem clearPvalid_pinv (s : State) : (clearPvalid s).pinv = s.pinv := rfl
@[simp] theorem clearPvalid_busy (s : State) : (clearPvalid s).busy = s.busy := rfl
@[simp] theorem clearPvalid_done (s : State) : (clearPvalid s).done = s.done := rfl
@[simp] theorem clearPvalid_err (s : State) : (clearPvalid s).err = s.err := rfl
@[simp] theorem clearPvalid_svalid (s : State) : (clearPvalid s).svalid = s.svalid := rfl
@[simp] theorem clearPvalid_pvalid (s : State) : (clearPvalid s).pvalid = false := rfl
@[simp] theorem clearPvalid_pt (s : State) : (clearPvalid s).pt = s.pt := rfl
@[simp] theorem clearPvalid_ir (s : State) : (clearPvalid s).ir = s.ir := rfl
@[simp] theorem clearPvalid_sc (s : State) : (clearPvalid s).sc = s.sc := rfl
@[simp] theorem clearPvalid_st (s : State) : (clearPvalid s).st = s.st := rfl
@[simp] theorem clearPvalid_inputs (s : State) : (clearPvalid s).inputs = s.inputs := rfl
@[simp] theorem clearPvalid_rdata (s : State) : (clearPvalid s).rdata = s.rdata := rfl
@[simp] theorem clearPvalid_freeCount (s : State) : (clearPvalid s).freeCount = s.freeCount := rfl

/-! ## setSvalid -/

@[simp] theorem setSvalid_blk (s : State) : (setSvalid s).blk = s.blk := rfl
@[simp] theorem setSvalid_k1 (s : State) : (setSvalid s).k1 = s.k1 := rfl
@[simp] theorem setSvalid_k2 (s : State) : (setSvalid s).k2 = s.k2 := rfl
@[simp] theorem setSvalid_k3 (s : State) : (setSvalid s).k3 = s.k3 := rfl
@[simp] theorem setSvalid_k4 (s : State) : (setSvalid s).k4 = s.k4 := rfl
@[simp] theorem setSvalid_k5 (s : State) : (setSvalid s).k5 = s.k5 := rfl
@[simp] theorem setSvalid_bits (s : State) : (setSvalid s).bits = s.bits := rfl
@[simp] theorem setSvalid_candlen (s : State) : (setSvalid s).candlen = s.candlen := rfl
@[simp] theorem setSvalid_cand (s : State) : (setSvalid s).cand = s.cand := rfl
@[simp] theorem setSvalid_res (s : State) : (setSvalid s).res = s.res := rfl
@[simp] theorem setSvalid_rbits (s : State) : (setSvalid s).rbits = s.rbits := rfl
@[simp] theorem setSvalid_trace (s : State) : (setSvalid s).trace = s.trace := rfl
@[simp] theorem setSvalid_tlen (s : State) : (setSvalid s).tlen = s.tlen := rfl
@[simp] theorem setSvalid_sbox (s : State) : (setSvalid s).sbox = s.sbox := rfl
@[simp] theorem setSvalid_sinv (s : State) : (setSvalid s).sinv = s.sinv := rfl
@[simp] theorem setSvalid_pbox (s : State) : (setSvalid s).pbox = s.pbox := rfl
@[simp] theorem setSvalid_pinv (s : State) : (setSvalid s).pinv = s.pinv := rfl
@[simp] theorem setSvalid_busy (s : State) : (setSvalid s).busy = s.busy := rfl
@[simp] theorem setSvalid_done (s : State) : (setSvalid s).done = s.done := rfl
@[simp] theorem setSvalid_err (s : State) : (setSvalid s).err = s.err := rfl
@[simp] theorem setSvalid_svalid (s : State) : (setSvalid s).svalid = true := rfl
@[simp] theorem setSvalid_pvalid (s : State) : (setSvalid s).pvalid = s.pvalid := rfl
@[simp] theorem setSvalid_pt (s : State) : (setSvalid s).pt = s.pt := rfl
@[simp] theorem setSvalid_ir (s : State) : (setSvalid s).ir = s.ir := rfl
@[simp] theorem setSvalid_sc (s : State) : (setSvalid s).sc = s.sc := rfl
@[simp] theorem setSvalid_st (s : State) : (setSvalid s).st = s.st := rfl
@[simp] theorem setSvalid_inputs (s : State) : (setSvalid s).inputs = s.inputs := rfl
@[simp] theorem setSvalid_rdata (s : State) : (setSvalid s).rdata = s.rdata := rfl
@[simp] theorem setSvalid_freeCount (s : State) : (setSvalid s).freeCount = s.freeCount := rfl

/-! ## setPvalid -/

@[simp] theorem setPvalid_blk (t : Topology) (s : State) : (setPvalid t s).blk = s.blk := rfl
@[simp] theorem setPvalid_k1 (t : Topology) (s : State) : (setPvalid t s).k1 = s.k1 := rfl
@[simp] theorem setPvalid_k2 (t : Topology) (s : State) : (setPvalid t s).k2 = s.k2 := rfl
@[simp] theorem setPvalid_k3 (t : Topology) (s : State) : (setPvalid t s).k3 = s.k3 := rfl
@[simp] theorem setPvalid_k4 (t : Topology) (s : State) : (setPvalid t s).k4 = s.k4 := rfl
@[simp] theorem setPvalid_k5 (t : Topology) (s : State) : (setPvalid t s).k5 = s.k5 := rfl
@[simp] theorem setPvalid_bits (t : Topology) (s : State) : (setPvalid t s).bits = s.bits := rfl
@[simp] theorem setPvalid_candlen (t : Topology) (s : State) :
    (setPvalid t s).candlen = s.candlen := rfl
@[simp] theorem setPvalid_cand (t : Topology) (s : State) : (setPvalid t s).cand = s.cand := rfl
@[simp] theorem setPvalid_res (t : Topology) (s : State) : (setPvalid t s).res = s.res := rfl
@[simp] theorem setPvalid_rbits (t : Topology) (s : State) : (setPvalid t s).rbits = s.rbits := rfl
@[simp] theorem setPvalid_trace (t : Topology) (s : State) : (setPvalid t s).trace = s.trace := rfl
@[simp] theorem setPvalid_tlen (t : Topology) (s : State) : (setPvalid t s).tlen = s.tlen := rfl
@[simp] theorem setPvalid_sbox (t : Topology) (s : State) : (setPvalid t s).sbox = s.sbox := rfl
@[simp] theorem setPvalid_sinv (t : Topology) (s : State) : (setPvalid t s).sinv = s.sinv := rfl
@[simp] theorem setPvalid_pbox (t : Topology) (s : State) : (setPvalid t s).pbox = s.pbox := rfl
@[simp] theorem setPvalid_pinv (t : Topology) (s : State) : (setPvalid t s).pinv = s.pinv := rfl
@[simp] theorem setPvalid_busy (t : Topology) (s : State) : (setPvalid t s).busy = s.busy := rfl
@[simp] theorem setPvalid_done (t : Topology) (s : State) : (setPvalid t s).done = s.done := rfl
@[simp] theorem setPvalid_err (t : Topology) (s : State) : (setPvalid t s).err = s.err := rfl
@[simp] theorem setPvalid_svalid (t : Topology) (s : State) :
    (setPvalid t s).svalid = s.svalid := rfl
@[simp] theorem setPvalid_pvalid (t : Topology) (s : State) : (setPvalid t s).pvalid = true := rfl
@[simp] theorem setPvalid_pt (t : Topology) (s : State) :
    (setPvalid t s).pt = topologyToBit t := rfl
@[simp] theorem setPvalid_ir (t : Topology) (s : State) : (setPvalid t s).ir = s.ir := rfl
@[simp] theorem setPvalid_sc (t : Topology) (s : State) : (setPvalid t s).sc = s.sc := rfl
@[simp] theorem setPvalid_st (t : Topology) (s : State) : (setPvalid t s).st = s.st := rfl
@[simp] theorem setPvalid_inputs (t : Topology) (s : State) :
    (setPvalid t s).inputs = s.inputs := rfl
@[simp] theorem setPvalid_rdata (t : Topology) (s : State) : (setPvalid t s).rdata = s.rdata := rfl
@[simp] theorem setPvalid_freeCount (t : Topology) (s : State) :
    (setPvalid t s).freeCount = s.freeCount := rfl

/-! ## stageCvtb -/

@[simp] theorem stageCvtb_blk (t : Topology) (s : State) : (stageCvtb t s).blk = s.blk := rfl
@[simp] theorem stageCvtb_k1 (t : Topology) (s : State) : (stageCvtb t s).k1 = s.k1 := rfl
@[simp] theorem stageCvtb_k2 (t : Topology) (s : State) : (stageCvtb t s).k2 = s.k2 := rfl
@[simp] theorem stageCvtb_k3 (t : Topology) (s : State) : (stageCvtb t s).k3 = s.k3 := rfl
@[simp] theorem stageCvtb_k4 (t : Topology) (s : State) : (stageCvtb t s).k4 = s.k4 := rfl
@[simp] theorem stageCvtb_k5 (t : Topology) (s : State) : (stageCvtb t s).k5 = s.k5 := rfl
@[simp] theorem stageCvtb_bits (t : Topology) (s : State) : (stageCvtb t s).bits = s.bits := rfl
@[simp] theorem stageCvtb_candlen (t : Topology) (s : State) :
    (stageCvtb t s).candlen = s.candlen := rfl
@[simp] theorem stageCvtb_cand (t : Topology) (s : State) : (stageCvtb t s).cand = s.cand := rfl
@[simp] theorem stageCvtb_res (t : Topology) (s : State) : (stageCvtb t s).res = s.res := rfl
@[simp] theorem stageCvtb_rbits (t : Topology) (s : State) :
    (stageCvtb t s).rbits = bitReg t (toBits (blockOf (arity t) s.st)) := rfl
@[simp] theorem stageCvtb_trace (t : Topology) (s : State) : (stageCvtb t s).trace = s.trace := rfl
@[simp] theorem stageCvtb_tlen (t : Topology) (s : State) : (stageCvtb t s).tlen = s.tlen := rfl
@[simp] theorem stageCvtb_sbox (t : Topology) (s : State) : (stageCvtb t s).sbox = s.sbox := rfl
@[simp] theorem stageCvtb_sinv (t : Topology) (s : State) : (stageCvtb t s).sinv = s.sinv := rfl
@[simp] theorem stageCvtb_pbox (t : Topology) (s : State) : (stageCvtb t s).pbox = s.pbox := rfl
@[simp] theorem stageCvtb_pinv (t : Topology) (s : State) : (stageCvtb t s).pinv = s.pinv := rfl
@[simp] theorem stageCvtb_busy (t : Topology) (s : State) : (stageCvtb t s).busy = s.busy := rfl
@[simp] theorem stageCvtb_done (t : Topology) (s : State) : (stageCvtb t s).done = s.done := rfl
@[simp] theorem stageCvtb_err (t : Topology) (s : State) : (stageCvtb t s).err = s.err := rfl
@[simp] theorem stageCvtb_svalid (t : Topology) (s : State) :
    (stageCvtb t s).svalid = s.svalid := rfl
@[simp] theorem stageCvtb_pvalid (t : Topology) (s : State) :
    (stageCvtb t s).pvalid = s.pvalid := rfl
@[simp] theorem stageCvtb_pt (t : Topology) (s : State) : (stageCvtb t s).pt = s.pt := rfl
@[simp] theorem stageCvtb_ir (t : Topology) (s : State) : (stageCvtb t s).ir = s.ir := rfl
@[simp] theorem stageCvtb_sc (t : Topology) (s : State) : (stageCvtb t s).sc = s.sc := rfl
@[simp] theorem stageCvtb_st (t : Topology) (s : State) : (stageCvtb t s).st = s.st := rfl
@[simp] theorem stageCvtb_inputs (t : Topology) (s : State) :
    (stageCvtb t s).inputs = s.inputs := rfl
@[simp] theorem stageCvtb_rdata (t : Topology) (s : State) : (stageCvtb t s).rdata = s.rdata := rfl
@[simp] theorem stageCvtb_freeCount (t : Topology) (s : State) :
    (stageCvtb t s).freeCount = s.freeCount := rfl

/-! ## stageCvtn -/

@[simp] theorem stageCvtn_blk (t : Topology) (s : State) : (stageCvtn t s).blk = s.blk := rfl
@[simp] theorem stageCvtn_k1 (t : Topology) (s : State) : (stageCvtn t s).k1 = s.k1 := rfl
@[simp] theorem stageCvtn_k2 (t : Topology) (s : State) : (stageCvtn t s).k2 = s.k2 := rfl
@[simp] theorem stageCvtn_k3 (t : Topology) (s : State) : (stageCvtn t s).k3 = s.k3 := rfl
@[simp] theorem stageCvtn_k4 (t : Topology) (s : State) : (stageCvtn t s).k4 = s.k4 := rfl
@[simp] theorem stageCvtn_k5 (t : Topology) (s : State) : (stageCvtn t s).k5 = s.k5 := rfl
@[simp] theorem stageCvtn_bits (t : Topology) (s : State) : (stageCvtn t s).bits = s.bits := rfl
@[simp] theorem stageCvtn_candlen (t : Topology) (s : State) :
    (stageCvtn t s).candlen = s.candlen := rfl
@[simp] theorem stageCvtn_cand (t : Topology) (s : State) : (stageCvtn t s).cand = s.cand := rfl
@[simp] theorem stageCvtn_res (t : Topology) (s : State) : (stageCvtn t s).res = s.res := rfl
@[simp] theorem stageCvtn_rbits (t : Topology) (s : State) : (stageCvtn t s).rbits = s.rbits := rfl
@[simp] theorem stageCvtn_trace (t : Topology) (s : State) : (stageCvtn t s).trace = s.trace := rfl
@[simp] theorem stageCvtn_tlen (t : Topology) (s : State) : (stageCvtn t s).tlen = s.tlen := rfl
@[simp] theorem stageCvtn_sbox (t : Topology) (s : State) : (stageCvtn t s).sbox = s.sbox := rfl
@[simp] theorem stageCvtn_sinv (t : Topology) (s : State) : (stageCvtn t s).sinv = s.sinv := rfl
@[simp] theorem stageCvtn_pbox (t : Topology) (s : State) : (stageCvtn t s).pbox = s.pbox := rfl
@[simp] theorem stageCvtn_pinv (t : Topology) (s : State) : (stageCvtn t s).pinv = s.pinv := rfl
@[simp] theorem stageCvtn_busy (t : Topology) (s : State) : (stageCvtn t s).busy = s.busy := rfl
@[simp] theorem stageCvtn_done (t : Topology) (s : State) : (stageCvtn t s).done = s.done := rfl
@[simp] theorem stageCvtn_err (t : Topology) (s : State) : (stageCvtn t s).err = s.err := rfl
@[simp] theorem stageCvtn_svalid (t : Topology) (s : State) :
    (stageCvtn t s).svalid = s.svalid := rfl
@[simp] theorem stageCvtn_pvalid (t : Topology) (s : State) :
    (stageCvtn t s).pvalid = s.pvalid := rfl
@[simp] theorem stageCvtn_pt (t : Topology) (s : State) : (stageCvtn t s).pt = s.pt := rfl
@[simp] theorem stageCvtn_ir (t : Topology) (s : State) : (stageCvtn t s).ir = s.ir := rfl
@[simp] theorem stageCvtn_sc (t : Topology) (s : State) : (stageCvtn t s).sc = s.sc := rfl
@[simp] theorem stageCvtn_st (t : Topology) (s : State) :
    (stageCvtn t s).st = storeBlock (packNibbles (s.bits.bit.toList.take (4 * arity t))) s.st := rfl
@[simp] theorem stageCvtn_inputs (t : Topology) (s : State) :
    (stageCvtn t s).inputs = s.inputs := rfl
@[simp] theorem stageCvtn_rdata (t : Topology) (s : State) : (stageCvtn t s).rdata = s.rdata := rfl
@[simp] theorem stageCvtn_freeCount (t : Topology) (s : State) :
    (stageCvtn t s).freeCount = s.freeCount := rfl

/-! ## stageBlds -/

@[simp] theorem stageBlds_blk (s : State) : (stageBlds s).blk = s.blk := by
  unfold stageBlds setSvalid; rfl
@[simp] theorem stageBlds_k1 (s : State) : (stageBlds s).k1 = s.k1 := by
  unfold stageBlds setSvalid; rfl
@[simp] theorem stageBlds_k2 (s : State) : (stageBlds s).k2 = s.k2 := by
  unfold stageBlds setSvalid; rfl
@[simp] theorem stageBlds_k3 (s : State) : (stageBlds s).k3 = s.k3 := by
  unfold stageBlds setSvalid; rfl
@[simp] theorem stageBlds_k4 (s : State) : (stageBlds s).k4 = s.k4 := by
  unfold stageBlds setSvalid; rfl
@[simp] theorem stageBlds_k5 (s : State) : (stageBlds s).k5 = s.k5 := by
  unfold stageBlds setSvalid; rfl
@[simp] theorem stageBlds_bits (s : State) : (stageBlds s).bits = s.bits := by
  unfold stageBlds setSvalid; rfl
@[simp] theorem stageBlds_candlen (s : State) : (stageBlds s).candlen = s.candlen := by
  unfold stageBlds setSvalid; rfl
@[simp] theorem stageBlds_cand (s : State) : (stageBlds s).cand = s.cand := by
  unfold stageBlds setSvalid; rfl
@[simp] theorem stageBlds_res (s : State) : (stageBlds s).res = s.res := by
  unfold stageBlds setSvalid; rfl
@[simp] theorem stageBlds_rbits (s : State) : (stageBlds s).rbits = s.rbits := by
  unfold stageBlds setSvalid; rfl
@[simp] theorem stageBlds_trace (s : State) : (stageBlds s).trace = s.trace := by
  unfold stageBlds setSvalid; rfl
@[simp] theorem stageBlds_tlen (s : State) : (stageBlds s).tlen = s.tlen := by
  unfold stageBlds setSvalid; rfl
@[simp] theorem stageBlds_sbox (s : State) : (stageBlds s).sbox = forwardStore s.cand 16 := by
  unfold stageBlds setSvalid; rfl
@[simp] theorem stageBlds_sinv (s : State) :
    (stageBlds s).sinv = inverseStore s.cand 16 s.sinv := by
  unfold stageBlds setSvalid; rfl
@[simp] theorem stageBlds_pbox (s : State) : (stageBlds s).pbox = s.pbox := by
  unfold stageBlds setSvalid; rfl
@[simp] theorem stageBlds_pinv (s : State) : (stageBlds s).pinv = s.pinv := by
  unfold stageBlds setSvalid; rfl
@[simp] theorem stageBlds_busy (s : State) : (stageBlds s).busy = s.busy := by
  unfold stageBlds setSvalid; rfl
@[simp] theorem stageBlds_done (s : State) : (stageBlds s).done = s.done := by
  unfold stageBlds setSvalid; rfl
@[simp] theorem stageBlds_err (s : State) : (stageBlds s).err = s.err := by
  unfold stageBlds setSvalid; rfl
@[simp] theorem stageBlds_svalid (s : State) : (stageBlds s).svalid = true := by
  unfold stageBlds setSvalid; rfl
@[simp] theorem stageBlds_pvalid (s : State) : (stageBlds s).pvalid = s.pvalid := by
  unfold stageBlds setSvalid; rfl
@[simp] theorem stageBlds_pt (s : State) : (stageBlds s).pt = s.pt := by
  unfold stageBlds setSvalid; rfl
@[simp] theorem stageBlds_ir (s : State) : (stageBlds s).ir = s.ir := by
  unfold stageBlds setSvalid; rfl
@[simp] theorem stageBlds_sc (s : State) : (stageBlds s).sc = s.sc := by
  unfold stageBlds setSvalid; rfl
@[simp] theorem stageBlds_st (s : State) : (stageBlds s).st = s.st := by
  unfold stageBlds setSvalid; rfl
@[simp] theorem stageBlds_inputs (s : State) : (stageBlds s).inputs = s.inputs := by
  unfold stageBlds setSvalid; rfl
@[simp] theorem stageBlds_rdata (s : State) : (stageBlds s).rdata = s.rdata := by
  unfold stageBlds setSvalid; rfl
@[simp] theorem stageBlds_freeCount (s : State) : (stageBlds s).freeCount = s.freeCount := by
  unfold stageBlds setSvalid; rfl

/-! ## stageBldp -/

@[simp] theorem stageBldp_blk (t : Topology) (s : State) : (stageBldp t s).blk = s.blk := by
  unfold stageBldp setPvalid; rfl
@[simp] theorem stageBldp_k1 (t : Topology) (s : State) : (stageBldp t s).k1 = s.k1 := by
  unfold stageBldp setPvalid; rfl
@[simp] theorem stageBldp_k2 (t : Topology) (s : State) : (stageBldp t s).k2 = s.k2 := by
  unfold stageBldp setPvalid; rfl
@[simp] theorem stageBldp_k3 (t : Topology) (s : State) : (stageBldp t s).k3 = s.k3 := by
  unfold stageBldp setPvalid; rfl
@[simp] theorem stageBldp_k4 (t : Topology) (s : State) : (stageBldp t s).k4 = s.k4 := by
  unfold stageBldp setPvalid; rfl
@[simp] theorem stageBldp_k5 (t : Topology) (s : State) : (stageBldp t s).k5 = s.k5 := by
  unfold stageBldp setPvalid; rfl
@[simp] theorem stageBldp_bits (t : Topology) (s : State) : (stageBldp t s).bits = s.bits := by
  unfold stageBldp setPvalid; rfl
@[simp] theorem stageBldp_candlen (t : Topology) (s : State) :
    (stageBldp t s).candlen = s.candlen := by
  unfold stageBldp setPvalid; rfl
@[simp] theorem stageBldp_cand (t : Topology) (s : State) : (stageBldp t s).cand = s.cand := by
  unfold stageBldp setPvalid; rfl
@[simp] theorem stageBldp_res (t : Topology) (s : State) : (stageBldp t s).res = s.res := by
  unfold stageBldp setPvalid; rfl
@[simp] theorem stageBldp_rbits (t : Topology) (s : State) : (stageBldp t s).rbits = s.rbits := by
  unfold stageBldp setPvalid; rfl
@[simp] theorem stageBldp_trace (t : Topology) (s : State) : (stageBldp t s).trace = s.trace := by
  unfold stageBldp setPvalid; rfl
@[simp] theorem stageBldp_tlen (t : Topology) (s : State) : (stageBldp t s).tlen = s.tlen := by
  unfold stageBldp setPvalid; rfl
@[simp] theorem stageBldp_sbox (t : Topology) (s : State) : (stageBldp t s).sbox = s.sbox := by
  unfold stageBldp setPvalid; rfl
@[simp] theorem stageBldp_sinv (t : Topology) (s : State) : (stageBldp t s).sinv = s.sinv := by
  unfold stageBldp setPvalid; rfl
@[simp] theorem stageBldp_pbox (t : Topology) (s : State) :
    (stageBldp t s).pbox = forwardStore s.cand (4 * arity t) := by
  unfold stageBldp setPvalid; rfl
@[simp] theorem stageBldp_pinv (t : Topology) (s : State) :
    (stageBldp t s).pinv = inverseStore s.cand (4 * arity t) s.pinv := by
  unfold stageBldp setPvalid; rfl
@[simp] theorem stageBldp_busy (t : Topology) (s : State) : (stageBldp t s).busy = s.busy := by
  unfold stageBldp setPvalid; rfl
@[simp] theorem stageBldp_done (t : Topology) (s : State) : (stageBldp t s).done = s.done := by
  unfold stageBldp setPvalid; rfl
@[simp] theorem stageBldp_err (t : Topology) (s : State) : (stageBldp t s).err = s.err := by
  unfold stageBldp setPvalid; rfl
@[simp] theorem stageBldp_svalid (t : Topology) (s : State) :
    (stageBldp t s).svalid = s.svalid := by
  unfold stageBldp setPvalid; rfl
@[simp] theorem stageBldp_pvalid (t : Topology) (s : State) : (stageBldp t s).pvalid = true := by
  unfold stageBldp setPvalid; rfl
@[simp] theorem stageBldp_pt (t : Topology) (s : State) : (stageBldp t s).pt = topologyToBit t := by
  unfold stageBldp setPvalid; rfl
@[simp] theorem stageBldp_ir (t : Topology) (s : State) : (stageBldp t s).ir = s.ir := by
  unfold stageBldp setPvalid; rfl
@[simp] theorem stageBldp_sc (t : Topology) (s : State) : (stageBldp t s).sc = s.sc := by
  unfold stageBldp setPvalid; rfl
@[simp] theorem stageBldp_st (t : Topology) (s : State) : (stageBldp t s).st = s.st := by
  unfold stageBldp setPvalid; rfl
@[simp] theorem stageBldp_inputs (t : Topology) (s : State) :
    (stageBldp t s).inputs = s.inputs := by
  unfold stageBldp setPvalid; rfl
@[simp] theorem stageBldp_rdata (t : Topology) (s : State) : (stageBldp t s).rdata = s.rdata := by
  unfold stageBldp setPvalid; rfl
@[simp] theorem stageBldp_freeCount (t : Topology) (s : State) :
    (stageBldp t s).freeCount = s.freeCount := by
  unfold stageBldp setPvalid; rfl

/-! ## stageKmix -/

@[simp] theorem stageKmix_blk (t : Topology) (k : KeyIndex) (s : State) :
    (stageKmix t k s).blk = s.blk := rfl
@[simp] theorem stageKmix_k1 (t : Topology) (k : KeyIndex) (s : State) :
    (stageKmix t k s).k1 = s.k1 := rfl
@[simp] theorem stageKmix_k2 (t : Topology) (k : KeyIndex) (s : State) :
    (stageKmix t k s).k2 = s.k2 := rfl
@[simp] theorem stageKmix_k3 (t : Topology) (k : KeyIndex) (s : State) :
    (stageKmix t k s).k3 = s.k3 := rfl
@[simp] theorem stageKmix_k4 (t : Topology) (k : KeyIndex) (s : State) :
    (stageKmix t k s).k4 = s.k4 := rfl
@[simp] theorem stageKmix_k5 (t : Topology) (k : KeyIndex) (s : State) :
    (stageKmix t k s).k5 = s.k5 := rfl
@[simp] theorem stageKmix_bits (t : Topology) (k : KeyIndex) (s : State) :
    (stageKmix t k s).bits = s.bits := rfl
@[simp] theorem stageKmix_candlen (t : Topology) (k : KeyIndex) (s : State) :
    (stageKmix t k s).candlen = s.candlen := rfl
@[simp] theorem stageKmix_cand (t : Topology) (k : KeyIndex) (s : State) :
    (stageKmix t k s).cand = s.cand := rfl
@[simp] theorem stageKmix_res (t : Topology) (k : KeyIndex) (s : State) :
    (stageKmix t k s).res = s.res := rfl
@[simp] theorem stageKmix_rbits (t : Topology) (k : KeyIndex) (s : State) :
    (stageKmix t k s).rbits = s.rbits := rfl
@[simp] theorem stageKmix_trace (t : Topology) (k : KeyIndex) (s : State) :
    (stageKmix t k s).trace = s.trace := rfl
@[simp] theorem stageKmix_tlen (t : Topology) (k : KeyIndex) (s : State) :
    (stageKmix t k s).tlen = s.tlen := rfl
@[simp] theorem stageKmix_sbox (t : Topology) (k : KeyIndex) (s : State) :
    (stageKmix t k s).sbox = s.sbox := rfl
@[simp] theorem stageKmix_sinv (t : Topology) (k : KeyIndex) (s : State) :
    (stageKmix t k s).sinv = s.sinv := rfl
@[simp] theorem stageKmix_pbox (t : Topology) (k : KeyIndex) (s : State) :
    (stageKmix t k s).pbox = s.pbox := rfl
@[simp] theorem stageKmix_pinv (t : Topology) (k : KeyIndex) (s : State) :
    (stageKmix t k s).pinv = s.pinv := rfl
@[simp] theorem stageKmix_busy (t : Topology) (k : KeyIndex) (s : State) :
    (stageKmix t k s).busy = s.busy := rfl
@[simp] theorem stageKmix_done (t : Topology) (k : KeyIndex) (s : State) :
    (stageKmix t k s).done = s.done := rfl
@[simp] theorem stageKmix_err (t : Topology) (k : KeyIndex) (s : State) :
    (stageKmix t k s).err = s.err := rfl
@[simp] theorem stageKmix_svalid (t : Topology) (k : KeyIndex) (s : State) :
    (stageKmix t k s).svalid = s.svalid := rfl
@[simp] theorem stageKmix_pvalid (t : Topology) (k : KeyIndex) (s : State) :
    (stageKmix t k s).pvalid = s.pvalid := rfl
@[simp] theorem stageKmix_pt (t : Topology) (k : KeyIndex) (s : State) :
    (stageKmix t k s).pt = s.pt := rfl
@[simp] theorem stageKmix_ir (t : Topology) (k : KeyIndex) (s : State) :
    (stageKmix t k s).ir = s.ir := rfl
@[simp] theorem stageKmix_sc (t : Topology) (k : KeyIndex) (s : State) :
    (stageKmix t k s).sc = s.sc := rfl
@[simp] theorem stageKmix_st (t : Topology) (k : KeyIndex) (s : State) :
    (stageKmix t k s).st = storeBlock (xorBlocks (blockOf (arity t) s.st) (blockOf (arity t) (s.key k).nib)) s.st := rfl
@[simp] theorem stageKmix_inputs (t : Topology) (k : KeyIndex) (s : State) :
    (stageKmix t k s).inputs = s.inputs := rfl
@[simp] theorem stageKmix_rdata (t : Topology) (k : KeyIndex) (s : State) :
    (stageKmix t k s).rdata = s.rdata := rfl
@[simp] theorem stageKmix_freeCount (t : Topology) (k : KeyIndex) (s : State) :
    (stageKmix t k s).freeCount = s.freeCount := rfl

/-! ## stageSubstitute -/

@[simp] theorem stageSubstitute_blk (t : Topology) (T : Table) (s : State) :
    (stageSubstitute t T s).blk = s.blk := rfl
@[simp] theorem stageSubstitute_k1 (t : Topology) (T : Table) (s : State) :
    (stageSubstitute t T s).k1 = s.k1 := rfl
@[simp] theorem stageSubstitute_k2 (t : Topology) (T : Table) (s : State) :
    (stageSubstitute t T s).k2 = s.k2 := rfl
@[simp] theorem stageSubstitute_k3 (t : Topology) (T : Table) (s : State) :
    (stageSubstitute t T s).k3 = s.k3 := rfl
@[simp] theorem stageSubstitute_k4 (t : Topology) (T : Table) (s : State) :
    (stageSubstitute t T s).k4 = s.k4 := rfl
@[simp] theorem stageSubstitute_k5 (t : Topology) (T : Table) (s : State) :
    (stageSubstitute t T s).k5 = s.k5 := rfl
@[simp] theorem stageSubstitute_bits (t : Topology) (T : Table) (s : State) :
    (stageSubstitute t T s).bits = s.bits := rfl
@[simp] theorem stageSubstitute_candlen (t : Topology) (T : Table) (s : State) :
    (stageSubstitute t T s).candlen = s.candlen := rfl
@[simp] theorem stageSubstitute_cand (t : Topology) (T : Table) (s : State) :
    (stageSubstitute t T s).cand = s.cand := rfl
@[simp] theorem stageSubstitute_res (t : Topology) (T : Table) (s : State) :
    (stageSubstitute t T s).res = s.res := rfl
@[simp] theorem stageSubstitute_rbits (t : Topology) (T : Table) (s : State) :
    (stageSubstitute t T s).rbits = s.rbits := rfl
@[simp] theorem stageSubstitute_trace (t : Topology) (T : Table) (s : State) :
    (stageSubstitute t T s).trace = s.trace := rfl
@[simp] theorem stageSubstitute_tlen (t : Topology) (T : Table) (s : State) :
    (stageSubstitute t T s).tlen = s.tlen := rfl
@[simp] theorem stageSubstitute_sbox (t : Topology) (T : Table) (s : State) :
    (stageSubstitute t T s).sbox = s.sbox := rfl
@[simp] theorem stageSubstitute_sinv (t : Topology) (T : Table) (s : State) :
    (stageSubstitute t T s).sinv = s.sinv := rfl
@[simp] theorem stageSubstitute_pbox (t : Topology) (T : Table) (s : State) :
    (stageSubstitute t T s).pbox = s.pbox := rfl
@[simp] theorem stageSubstitute_pinv (t : Topology) (T : Table) (s : State) :
    (stageSubstitute t T s).pinv = s.pinv := rfl
@[simp] theorem stageSubstitute_busy (t : Topology) (T : Table) (s : State) :
    (stageSubstitute t T s).busy = s.busy := rfl
@[simp] theorem stageSubstitute_done (t : Topology) (T : Table) (s : State) :
    (stageSubstitute t T s).done = s.done := rfl
@[simp] theorem stageSubstitute_err (t : Topology) (T : Table) (s : State) :
    (stageSubstitute t T s).err = s.err := rfl
@[simp] theorem stageSubstitute_svalid (t : Topology) (T : Table) (s : State) :
    (stageSubstitute t T s).svalid = s.svalid := rfl
@[simp] theorem stageSubstitute_pvalid (t : Topology) (T : Table) (s : State) :
    (stageSubstitute t T s).pvalid = s.pvalid := rfl
@[simp] theorem stageSubstitute_pt (t : Topology) (T : Table) (s : State) :
    (stageSubstitute t T s).pt = s.pt := rfl
@[simp] theorem stageSubstitute_ir (t : Topology) (T : Table) (s : State) :
    (stageSubstitute t T s).ir = s.ir := rfl
@[simp] theorem stageSubstitute_sc (t : Topology) (T : Table) (s : State) :
    (stageSubstitute t T s).sc = s.sc := rfl
@[simp] theorem stageSubstitute_st (t : Topology) (T : Table) (s : State) :
    (stageSubstitute t T s).st = storeBlock (substitute (blockOf (arity t) s.st) T.toList) s.st := rfl
@[simp] theorem stageSubstitute_inputs (t : Topology) (T : Table) (s : State) :
    (stageSubstitute t T s).inputs = s.inputs := rfl
@[simp] theorem stageSubstitute_rdata (t : Topology) (T : Table) (s : State) :
    (stageSubstitute t T s).rdata = s.rdata := rfl
@[simp] theorem stageSubstitute_freeCount (t : Topology) (T : Table) (s : State) :
    (stageSubstitute t T s).freeCount = s.freeCount := rfl

/-! ## stagePermute -/

@[simp] theorem stagePermute_blk (t : Topology) (T : Table) (s : State) :
    (stagePermute t T s).blk = s.blk := rfl
@[simp] theorem stagePermute_k1 (t : Topology) (T : Table) (s : State) :
    (stagePermute t T s).k1 = s.k1 := rfl
@[simp] theorem stagePermute_k2 (t : Topology) (T : Table) (s : State) :
    (stagePermute t T s).k2 = s.k2 := rfl
@[simp] theorem stagePermute_k3 (t : Topology) (T : Table) (s : State) :
    (stagePermute t T s).k3 = s.k3 := rfl
@[simp] theorem stagePermute_k4 (t : Topology) (T : Table) (s : State) :
    (stagePermute t T s).k4 = s.k4 := rfl
@[simp] theorem stagePermute_k5 (t : Topology) (T : Table) (s : State) :
    (stagePermute t T s).k5 = s.k5 := rfl
@[simp] theorem stagePermute_bits (t : Topology) (T : Table) (s : State) :
    (stagePermute t T s).bits = s.bits := rfl
@[simp] theorem stagePermute_candlen (t : Topology) (T : Table) (s : State) :
    (stagePermute t T s).candlen = s.candlen := rfl
@[simp] theorem stagePermute_cand (t : Topology) (T : Table) (s : State) :
    (stagePermute t T s).cand = s.cand := rfl
@[simp] theorem stagePermute_res (t : Topology) (T : Table) (s : State) :
    (stagePermute t T s).res = s.res := rfl
@[simp] theorem stagePermute_rbits (t : Topology) (T : Table) (s : State) :
    (stagePermute t T s).rbits = s.rbits := rfl
@[simp] theorem stagePermute_trace (t : Topology) (T : Table) (s : State) :
    (stagePermute t T s).trace = s.trace := rfl
@[simp] theorem stagePermute_tlen (t : Topology) (T : Table) (s : State) :
    (stagePermute t T s).tlen = s.tlen := rfl
@[simp] theorem stagePermute_sbox (t : Topology) (T : Table) (s : State) :
    (stagePermute t T s).sbox = s.sbox := rfl
@[simp] theorem stagePermute_sinv (t : Topology) (T : Table) (s : State) :
    (stagePermute t T s).sinv = s.sinv := rfl
@[simp] theorem stagePermute_pbox (t : Topology) (T : Table) (s : State) :
    (stagePermute t T s).pbox = s.pbox := rfl
@[simp] theorem stagePermute_pinv (t : Topology) (T : Table) (s : State) :
    (stagePermute t T s).pinv = s.pinv := rfl
@[simp] theorem stagePermute_busy (t : Topology) (T : Table) (s : State) :
    (stagePermute t T s).busy = s.busy := rfl
@[simp] theorem stagePermute_done (t : Topology) (T : Table) (s : State) :
    (stagePermute t T s).done = s.done := rfl
@[simp] theorem stagePermute_err (t : Topology) (T : Table) (s : State) :
    (stagePermute t T s).err = s.err := rfl
@[simp] theorem stagePermute_svalid (t : Topology) (T : Table) (s : State) :
    (stagePermute t T s).svalid = s.svalid := rfl
@[simp] theorem stagePermute_pvalid (t : Topology) (T : Table) (s : State) :
    (stagePermute t T s).pvalid = s.pvalid := rfl
@[simp] theorem stagePermute_pt (t : Topology) (T : Table) (s : State) :
    (stagePermute t T s).pt = s.pt := rfl
@[simp] theorem stagePermute_ir (t : Topology) (T : Table) (s : State) :
    (stagePermute t T s).ir = s.ir := rfl
@[simp] theorem stagePermute_sc (t : Topology) (T : Table) (s : State) :
    (stagePermute t T s).sc = s.sc := rfl
@[simp] theorem stagePermute_st (t : Topology) (T : Table) (s : State) :
    (stagePermute t T s).st = storeBlock (permute (blockOf (arity t) s.st) (T.toList.take (4 * arity t))) s.st := rfl
@[simp] theorem stagePermute_inputs (t : Topology) (T : Table) (s : State) :
    (stagePermute t T s).inputs = s.inputs := rfl
@[simp] theorem stagePermute_rdata (t : Topology) (T : Table) (s : State) :
    (stagePermute t T s).rdata = s.rdata := rfl
@[simp] theorem stagePermute_freeCount (t : Topology) (T : Table) (s : State) :
    (stagePermute t T s).freeCount = s.freeCount := rfl

/-! ## firstSnapshot -/

@[simp] theorem firstSnapshot_blk (t : Topology) (s : State) :
    (firstSnapshot t s).blk = s.blk := rfl
@[simp] theorem firstSnapshot_k1 (t : Topology) (s : State) : (firstSnapshot t s).k1 = s.k1 := rfl
@[simp] theorem firstSnapshot_k2 (t : Topology) (s : State) : (firstSnapshot t s).k2 = s.k2 := rfl
@[simp] theorem firstSnapshot_k3 (t : Topology) (s : State) : (firstSnapshot t s).k3 = s.k3 := rfl
@[simp] theorem firstSnapshot_k4 (t : Topology) (s : State) : (firstSnapshot t s).k4 = s.k4 := rfl
@[simp] theorem firstSnapshot_k5 (t : Topology) (s : State) : (firstSnapshot t s).k5 = s.k5 := rfl
@[simp] theorem firstSnapshot_bits (t : Topology) (s : State) :
    (firstSnapshot t s).bits = s.bits := rfl
@[simp] theorem firstSnapshot_candlen (t : Topology) (s : State) :
    (firstSnapshot t s).candlen = s.candlen := rfl
@[simp] theorem firstSnapshot_cand (t : Topology) (s : State) :
    (firstSnapshot t s).cand = s.cand := rfl
@[simp] theorem firstSnapshot_res (t : Topology) (s : State) :
    (firstSnapshot t s).res = s.res := rfl
@[simp] theorem firstSnapshot_rbits (t : Topology) (s : State) :
    (firstSnapshot t s).rbits = s.rbits := rfl
@[simp] theorem firstSnapshot_trace (t : Topology) (s : State) :
    (firstSnapshot t s).trace = s.trace.set 0 (blockReg t s.st) := rfl
@[simp] theorem firstSnapshot_tlen (t : Topology) (s : State) : (firstSnapshot t s).tlen = 1 := rfl
@[simp] theorem firstSnapshot_sbox (t : Topology) (s : State) :
    (firstSnapshot t s).sbox = s.sbox := rfl
@[simp] theorem firstSnapshot_sinv (t : Topology) (s : State) :
    (firstSnapshot t s).sinv = s.sinv := rfl
@[simp] theorem firstSnapshot_pbox (t : Topology) (s : State) :
    (firstSnapshot t s).pbox = s.pbox := rfl
@[simp] theorem firstSnapshot_pinv (t : Topology) (s : State) :
    (firstSnapshot t s).pinv = s.pinv := rfl
@[simp] theorem firstSnapshot_busy (t : Topology) (s : State) :
    (firstSnapshot t s).busy = s.busy := rfl
@[simp] theorem firstSnapshot_done (t : Topology) (s : State) :
    (firstSnapshot t s).done = s.done := rfl
@[simp] theorem firstSnapshot_err (t : Topology) (s : State) :
    (firstSnapshot t s).err = s.err := rfl
@[simp] theorem firstSnapshot_svalid (t : Topology) (s : State) :
    (firstSnapshot t s).svalid = s.svalid := rfl
@[simp] theorem firstSnapshot_pvalid (t : Topology) (s : State) :
    (firstSnapshot t s).pvalid = s.pvalid := rfl
@[simp] theorem firstSnapshot_pt (t : Topology) (s : State) : (firstSnapshot t s).pt = s.pt := rfl
@[simp] theorem firstSnapshot_ir (t : Topology) (s : State) : (firstSnapshot t s).ir = s.ir := rfl
@[simp] theorem firstSnapshot_sc (t : Topology) (s : State) : (firstSnapshot t s).sc = s.sc := rfl
@[simp] theorem firstSnapshot_st (t : Topology) (s : State) : (firstSnapshot t s).st = s.st := rfl
@[simp] theorem firstSnapshot_inputs (t : Topology) (s : State) :
    (firstSnapshot t s).inputs = s.inputs := rfl
@[simp] theorem firstSnapshot_rdata (t : Topology) (s : State) :
    (firstSnapshot t s).rdata = s.rdata := rfl
@[simp] theorem firstSnapshot_freeCount (t : Topology) (s : State) :
    (firstSnapshot t s).freeCount = s.freeCount := rfl

/-! ## loadWork, complete, advance: the fields no case of theirs writes -/

@[simp] theorem loadWork_blk (t : Topology) (l : Load) (s : State) : (loadWork t l s).blk = s.blk := by cases l <;> rfl
@[simp] theorem loadWork_k1 (t : Topology) (l : Load) (s : State) : (loadWork t l s).k1 = s.k1 := by cases l <;> rfl
@[simp] theorem loadWork_k2 (t : Topology) (l : Load) (s : State) : (loadWork t l s).k2 = s.k2 := by cases l <;> rfl
@[simp] theorem loadWork_k3 (t : Topology) (l : Load) (s : State) : (loadWork t l s).k3 = s.k3 := by cases l <;> rfl
@[simp] theorem loadWork_k4 (t : Topology) (l : Load) (s : State) : (loadWork t l s).k4 = s.k4 := by cases l <;> rfl
@[simp] theorem loadWork_k5 (t : Topology) (l : Load) (s : State) : (loadWork t l s).k5 = s.k5 := by cases l <;> rfl
@[simp] theorem loadWork_bits (t : Topology) (l : Load) (s : State) : (loadWork t l s).bits = s.bits := by cases l <;> rfl
@[simp] theorem loadWork_candlen (t : Topology) (l : Load) (s : State) : (loadWork t l s).candlen = s.candlen := by cases l <;> rfl
@[simp] theorem loadWork_cand (t : Topology) (l : Load) (s : State) : (loadWork t l s).cand = s.cand := by cases l <;> rfl
@[simp] theorem loadWork_res (t : Topology) (l : Load) (s : State) : (loadWork t l s).res = s.res := by cases l <;> rfl
@[simp] theorem loadWork_rbits (t : Topology) (l : Load) (s : State) : (loadWork t l s).rbits = s.rbits := by cases l <;> rfl
@[simp] theorem loadWork_trace (t : Topology) (l : Load) (s : State) : (loadWork t l s).trace = s.trace := by cases l <;> rfl
@[simp] theorem loadWork_tlen (t : Topology) (l : Load) (s : State) : (loadWork t l s).tlen = s.tlen := by cases l <;> rfl
@[simp] theorem loadWork_sbox (t : Topology) (l : Load) (s : State) : (loadWork t l s).sbox = s.sbox := by cases l <;> rfl
@[simp] theorem loadWork_sinv (t : Topology) (l : Load) (s : State) : (loadWork t l s).sinv = s.sinv := by cases l <;> rfl
@[simp] theorem loadWork_pbox (t : Topology) (l : Load) (s : State) : (loadWork t l s).pbox = s.pbox := by cases l <;> rfl
@[simp] theorem loadWork_pinv (t : Topology) (l : Load) (s : State) : (loadWork t l s).pinv = s.pinv := by cases l <;> rfl
@[simp] theorem loadWork_busy (t : Topology) (l : Load) (s : State) : (loadWork t l s).busy = s.busy := by cases l <;> rfl
@[simp] theorem loadWork_done (t : Topology) (l : Load) (s : State) : (loadWork t l s).done = s.done := by cases l <;> rfl
@[simp] theorem loadWork_err (t : Topology) (l : Load) (s : State) : (loadWork t l s).err = s.err := by cases l <;> rfl
@[simp] theorem loadWork_svalid (t : Topology) (l : Load) (s : State) : (loadWork t l s).svalid = s.svalid := by cases l <;> rfl
@[simp] theorem loadWork_pvalid (t : Topology) (l : Load) (s : State) : (loadWork t l s).pvalid = s.pvalid := by cases l <;> rfl
@[simp] theorem loadWork_pt (t : Topology) (l : Load) (s : State) : (loadWork t l s).pt = s.pt := by cases l <;> rfl
@[simp] theorem loadWork_ir (t : Topology) (l : Load) (s : State) : (loadWork t l s).ir = s.ir := by cases l <;> rfl
@[simp] theorem loadWork_sc (t : Topology) (l : Load) (s : State) : (loadWork t l s).sc = s.sc := by cases l <;> rfl
@[simp] theorem loadWork_inputs (t : Topology) (l : Load) (s : State) : (loadWork t l s).inputs = s.inputs := by cases l <;> rfl
@[simp] theorem loadWork_rdata (t : Topology) (l : Load) (s : State) : (loadWork t l s).rdata = s.rdata := by cases l <;> rfl
@[simp] theorem loadWork_freeCount (t : Topology) (l : Load) (s : State) : (loadWork t l s).freeCount = s.freeCount := by cases l <;> rfl

@[simp] theorem complete_blk (c : Command) (s : State) : (complete c s).blk = s.blk := by
  unfold complete; split <;> rfl
@[simp] theorem complete_k1 (c : Command) (s : State) : (complete c s).k1 = s.k1 := by
  unfold complete; split <;> rfl
@[simp] theorem complete_k2 (c : Command) (s : State) : (complete c s).k2 = s.k2 := by
  unfold complete; split <;> rfl
@[simp] theorem complete_k3 (c : Command) (s : State) : (complete c s).k3 = s.k3 := by
  unfold complete; split <;> rfl
@[simp] theorem complete_k4 (c : Command) (s : State) : (complete c s).k4 = s.k4 := by
  unfold complete; split <;> rfl
@[simp] theorem complete_k5 (c : Command) (s : State) : (complete c s).k5 = s.k5 := by
  unfold complete; split <;> rfl
@[simp] theorem complete_bits (c : Command) (s : State) : (complete c s).bits = s.bits := by
  unfold complete; split <;> rfl
@[simp] theorem complete_candlen (c : Command) (s : State) : (complete c s).candlen = s.candlen := by
  unfold complete; split <;> rfl
@[simp] theorem complete_cand (c : Command) (s : State) : (complete c s).cand = s.cand := by
  unfold complete; split <;> rfl
@[simp] theorem complete_rbits (c : Command) (s : State) : (complete c s).rbits = s.rbits := by
  unfold complete; split <;> rfl
@[simp] theorem complete_trace (c : Command) (s : State) : (complete c s).trace = s.trace := by
  unfold complete; split <;> rfl
@[simp] theorem complete_tlen (c : Command) (s : State) : (complete c s).tlen = s.tlen := by
  unfold complete; split <;> rfl
@[simp] theorem complete_sbox (c : Command) (s : State) : (complete c s).sbox = s.sbox := by
  unfold complete; split <;> rfl
@[simp] theorem complete_sinv (c : Command) (s : State) : (complete c s).sinv = s.sinv := by
  unfold complete; split <;> rfl
@[simp] theorem complete_pbox (c : Command) (s : State) : (complete c s).pbox = s.pbox := by
  unfold complete; split <;> rfl
@[simp] theorem complete_pinv (c : Command) (s : State) : (complete c s).pinv = s.pinv := by
  unfold complete; split <;> rfl
@[simp] theorem complete_err (c : Command) (s : State) : (complete c s).err = s.err := by
  unfold complete; split <;> rfl
@[simp] theorem complete_svalid (c : Command) (s : State) : (complete c s).svalid = s.svalid := by
  unfold complete; split <;> rfl
@[simp] theorem complete_pvalid (c : Command) (s : State) : (complete c s).pvalid = s.pvalid := by
  unfold complete; split <;> rfl
@[simp] theorem complete_pt (c : Command) (s : State) : (complete c s).pt = s.pt := by
  unfold complete; split <;> rfl
@[simp] theorem complete_ir (c : Command) (s : State) : (complete c s).ir = s.ir := by
  unfold complete; split <;> rfl
@[simp] theorem complete_sc (c : Command) (s : State) : (complete c s).sc = s.sc := by
  unfold complete; split <;> rfl
@[simp] theorem complete_st (c : Command) (s : State) : (complete c s).st = s.st := by
  unfold complete; split <;> rfl
@[simp] theorem complete_inputs (c : Command) (s : State) : (complete c s).inputs = s.inputs := by
  unfold complete; split <;> rfl
@[simp] theorem complete_rdata (c : Command) (s : State) : (complete c s).rdata = s.rdata := by
  unfold complete; split <;> rfl
@[simp] theorem complete_freeCount (c : Command) (s : State) : (complete c s).freeCount = s.freeCount := by
  unfold complete; split <;> rfl

@[simp] theorem advance_blk (c : Command) (s : State) : (advance c s).blk = s.blk := by
  unfold advance complete; dsimp only; split <;> [split; skip] <;> rfl
@[simp] theorem advance_k1 (c : Command) (s : State) : (advance c s).k1 = s.k1 := by
  unfold advance complete; dsimp only; split <;> [split; skip] <;> rfl
@[simp] theorem advance_k2 (c : Command) (s : State) : (advance c s).k2 = s.k2 := by
  unfold advance complete; dsimp only; split <;> [split; skip] <;> rfl
@[simp] theorem advance_k3 (c : Command) (s : State) : (advance c s).k3 = s.k3 := by
  unfold advance complete; dsimp only; split <;> [split; skip] <;> rfl
@[simp] theorem advance_k4 (c : Command) (s : State) : (advance c s).k4 = s.k4 := by
  unfold advance complete; dsimp only; split <;> [split; skip] <;> rfl
@[simp] theorem advance_k5 (c : Command) (s : State) : (advance c s).k5 = s.k5 := by
  unfold advance complete; dsimp only; split <;> [split; skip] <;> rfl
@[simp] theorem advance_bits (c : Command) (s : State) : (advance c s).bits = s.bits := by
  unfold advance complete; dsimp only; split <;> [split; skip] <;> rfl
@[simp] theorem advance_candlen (c : Command) (s : State) : (advance c s).candlen = s.candlen := by
  unfold advance complete; dsimp only; split <;> [split; skip] <;> rfl
@[simp] theorem advance_cand (c : Command) (s : State) : (advance c s).cand = s.cand := by
  unfold advance complete; dsimp only; split <;> [split; skip] <;> rfl
@[simp] theorem advance_rbits (c : Command) (s : State) : (advance c s).rbits = s.rbits := by
  unfold advance complete; dsimp only; split <;> [split; skip] <;> rfl
@[simp] theorem advance_trace (c : Command) (s : State) : (advance c s).trace = s.trace := by
  unfold advance complete; dsimp only; split <;> [split; skip] <;> rfl
@[simp] theorem advance_tlen (c : Command) (s : State) : (advance c s).tlen = s.tlen := by
  unfold advance complete; dsimp only; split <;> [split; skip] <;> rfl
@[simp] theorem advance_sbox (c : Command) (s : State) : (advance c s).sbox = s.sbox := by
  unfold advance complete; dsimp only; split <;> [split; skip] <;> rfl
@[simp] theorem advance_sinv (c : Command) (s : State) : (advance c s).sinv = s.sinv := by
  unfold advance complete; dsimp only; split <;> [split; skip] <;> rfl
@[simp] theorem advance_pbox (c : Command) (s : State) : (advance c s).pbox = s.pbox := by
  unfold advance complete; dsimp only; split <;> [split; skip] <;> rfl
@[simp] theorem advance_pinv (c : Command) (s : State) : (advance c s).pinv = s.pinv := by
  unfold advance complete; dsimp only; split <;> [split; skip] <;> rfl
@[simp] theorem advance_err (c : Command) (s : State) : (advance c s).err = s.err := by
  unfold advance complete; dsimp only; split <;> [split; skip] <;> rfl
@[simp] theorem advance_svalid (c : Command) (s : State) : (advance c s).svalid = s.svalid := by
  unfold advance complete; dsimp only; split <;> [split; skip] <;> rfl
@[simp] theorem advance_pvalid (c : Command) (s : State) : (advance c s).pvalid = s.pvalid := by
  unfold advance complete; dsimp only; split <;> [split; skip] <;> rfl
@[simp] theorem advance_pt (c : Command) (s : State) : (advance c s).pt = s.pt := by
  unfold advance complete; dsimp only; split <;> [split; skip] <;> rfl
@[simp] theorem advance_ir (c : Command) (s : State) : (advance c s).ir = s.ir := by
  unfold advance complete; dsimp only; split <;> [split; skip] <;> rfl
@[simp] theorem advance_st (c : Command) (s : State) : (advance c s).st = s.st := by
  unfold advance complete; dsimp only; split <;> [split; skip] <;> rfl
@[simp] theorem advance_inputs (c : Command) (s : State) : (advance c s).inputs = s.inputs := by
  unfold advance complete; dsimp only; split <;> [split; skip] <;> rfl
@[simp] theorem advance_rdata (c : Command) (s : State) : (advance c s).rdata = s.rdata := by
  unfold advance complete; dsimp only; split <;> [split; skip] <;> rfl
@[simp] theorem advance_freeCount (c : Command) (s : State) : (advance c s).freeCount = s.freeCount := by
  unfold advance complete; dsimp only; split <;> [split; skip] <;> rfl

@[simp] theorem begin_blk (c : Command) (s : State) : (begin c s).blk = s.blk := by
  unfold begin; split <;> cases c.load <;> rfl
@[simp] theorem begin_k1 (c : Command) (s : State) : (begin c s).k1 = s.k1 := by
  unfold begin; split <;> cases c.load <;> rfl
@[simp] theorem begin_k2 (c : Command) (s : State) : (begin c s).k2 = s.k2 := by
  unfold begin; split <;> cases c.load <;> rfl
@[simp] theorem begin_k3 (c : Command) (s : State) : (begin c s).k3 = s.k3 := by
  unfold begin; split <;> cases c.load <;> rfl
@[simp] theorem begin_k4 (c : Command) (s : State) : (begin c s).k4 = s.k4 := by
  unfold begin; split <;> cases c.load <;> rfl
@[simp] theorem begin_k5 (c : Command) (s : State) : (begin c s).k5 = s.k5 := by
  unfold begin; split <;> cases c.load <;> rfl
@[simp] theorem begin_bits (c : Command) (s : State) : (begin c s).bits = s.bits := by
  unfold begin; split <;> cases c.load <;> rfl
@[simp] theorem begin_candlen (c : Command) (s : State) : (begin c s).candlen = s.candlen := by
  unfold begin; split <;> cases c.load <;> rfl
@[simp] theorem begin_cand (c : Command) (s : State) : (begin c s).cand = s.cand := by
  unfold begin; split <;> cases c.load <;> rfl
@[simp] theorem begin_res (c : Command) (s : State) : (begin c s).res = s.res := by
  unfold begin; split <;> cases c.load <;> rfl
@[simp] theorem begin_rbits (c : Command) (s : State) : (begin c s).rbits = s.rbits := by
  unfold begin; split <;> cases c.load <;> rfl
@[simp] theorem begin_sbox (c : Command) (s : State) : (begin c s).sbox = s.sbox := by
  unfold begin; split <;> cases c.load <;> rfl
@[simp] theorem begin_sinv (c : Command) (s : State) : (begin c s).sinv = s.sinv := by
  unfold begin; split <;> cases c.load <;> rfl
@[simp] theorem begin_pbox (c : Command) (s : State) : (begin c s).pbox = s.pbox := by
  unfold begin; split <;> cases c.load <;> rfl
@[simp] theorem begin_pinv (c : Command) (s : State) : (begin c s).pinv = s.pinv := by
  unfold begin; split <;> cases c.load <;> rfl
@[simp] theorem begin_done (c : Command) (s : State) : (begin c s).done = s.done := by
  unfold begin; split <;> cases c.load <;> rfl
@[simp] theorem begin_err (c : Command) (s : State) : (begin c s).err = s.err := by
  unfold begin; split <;> cases c.load <;> rfl
@[simp] theorem begin_svalid (c : Command) (s : State) : (begin c s).svalid = s.svalid := by
  unfold begin; split <;> cases c.load <;> rfl
@[simp] theorem begin_pvalid (c : Command) (s : State) : (begin c s).pvalid = s.pvalid := by
  unfold begin; split <;> cases c.load <;> rfl
@[simp] theorem begin_pt (c : Command) (s : State) : (begin c s).pt = s.pt := by
  unfold begin; split <;> cases c.load <;> rfl
@[simp] theorem begin_ir (c : Command) (s : State) : (begin c s).ir = s.ir := by
  unfold begin; split <;> cases c.load <;> rfl
@[simp] theorem begin_inputs (c : Command) (s : State) : (begin c s).inputs = s.inputs := by
  unfold begin; split <;> cases c.load <;> rfl
@[simp] theorem begin_rdata (c : Command) (s : State) : (begin c s).rdata = s.rdata := by
  unfold begin; split <;> cases c.load <;> rfl
@[simp] theorem begin_freeCount (c : Command) (s : State) : (begin c s).freeCount = s.freeCount := by
  unfold begin; split <;> cases c.load <;> rfl

@[simp] theorem complete_busy (c : Command) (s : State) : (complete c s).busy = false := by
  unfold complete; split <;> rfl
@[simp] theorem complete_done (c : Command) (s : State) : (complete c s).done = true := by
  unfold complete; split <;> rfl
@[simp] theorem advance_sc (c : Command) (s : State) : (advance c s).sc = s.sc + 1 := by
  unfold advance complete; dsimp only; split <;> [split; skip] <;> rfl
@[simp] theorem begin_busy (c : Command) (s : State) : (begin c s).busy = true := by
  unfold begin; split <;> cases c.load <;> rfl
@[simp] theorem begin_sc (c : Command) (s : State) : (begin c s).sc = 0 := by
  unfold begin; split <;> cases c.load <;> rfl

end Sys2Proof.Machine
end

