-- ==== Sys2Proof/Laws/Ops.lean ====
section
/-! SUPPORT. What each shared operation can do, said once: the lifecycle, the accept step, the entry checks, the controller step, the host's accesses and the step of the machine. -/

namespace Sys2Proof.Machine

/-! ## Meanings -/

/-- Every meaning is the lifecycle of its command. -/
theorem exec_eq_lifecycle (i : Instr) (s : State) : exec i s = lifecycle (commandOf i) s := by
  cases i <;> rfl

theorem exec_idle {s : State} (i : Instr) (h : s.busy = false) :
    exec i s = .next (accept (commandOf i) s) := by
  simp [exec_eq_lifecycle, lifecycle, h]

theorem exec_busy {s : State} (i : Instr) (h : s.busy = true) :
    exec i s = controllerStep (commandOf i) s := by
  simp [exec_eq_lifecycle, lifecycle, h]

@[simp] theorem commandOf_word (i : Instr) : (commandOf i).word = encode i := by
  cases i <;> rfl

theorem execTimes_succ_of_next {i : Instr} {s t : State} (n : Nat) (h : exec i s = .next t) :
    execTimes (n + 1) i s = execTimes n i t := by
  simp [execTimes, h]

/-- `execTimes` splits: first `m` steps, then `n` more. -/
theorem execTimes_add {i : Instr} {s t : State} (m n : Nat) (h : execTimes m i s = .next t) :
    execTimes (m + n) i s = execTimes n i t := by
  induction m generalizing s with
  | zero => simp [execTimes] at h; simp [h]
  | succ m ih =>
    rw [Nat.succ_add]
    cases he : exec i s with
    | next u =>
      rw [execTimes_succ_of_next _ he] at h ⊢
      exact ih h
    | fault r => simp [execTimes, he] at h
    | refused r => simp [execTimes, he] at h

/-- States with one datapath agree on every field the spec gives the machine. -/
theorem fields_of_datapath_eq {s t : State} (h : s.datapath = t.datapath) :
    s.blk = t.blk ∧ s.k1 = t.k1 ∧ s.k2 = t.k2 ∧ s.k3 = t.k3 ∧ s.k4 = t.k4 ∧ s.k5 = t.k5 ∧ s.bits
    = t.bits ∧ s.candlen = t.candlen ∧ s.cand = t.cand ∧ s.res = t.res ∧ s.rbits = t.rbits ∧
    s.trace = t.trace ∧ s.tlen = t.tlen ∧ s.sbox = t.sbox ∧ s.sinv = t.sinv ∧ s.pbox = t.pbox ∧
    s.pinv = t.pinv ∧ s.busy = t.busy ∧ s.done = t.done ∧ s.err = t.err ∧ s.svalid = t.svalid ∧
    s.pvalid = t.pvalid ∧ s.pt = t.pt ∧ s.ir = t.ir ∧ s.sc = t.sc ∧ s.st = t.st := by
  cases s
  cases t
  simpa [State.datapath] using h

/-! ## Entry checks -/

@[simp] theorem require_eq_none (b : Bool) (e : ErrorCode) : require b e = none ↔ b = true := by
  cases b <;> simp [require]

@[simp] theorem firstError_nil : firstError [] = none := rfl

@[simp] theorem firstError_cons_none (l : List (Option ErrorCode)) :
    firstError (none :: l) = firstError l := rfl

@[simp] theorem firstError_cons_some (e : ErrorCode) (l : List (Option ErrorCode)) :
    firstError (some e :: l) = some e := rfl

theorem firstError_cons (x : Option ErrorCode) (l : List (Option ErrorCode)) :
    firstError (x :: l) = none ↔ x = none ∧ firstError l = none := by
  cases x <;> simp

/-- The candidate check reads only CANDLEN and CAND (R183). -/
theorem candidateOk_congr {s t : State} (N : Nat) (hlen : t.candlen = s.candlen)
    (hcand : t.cand = s.cand) : t.candidateOk N = s.candidateOk N := by
  unfold State.candidateOk State.candidate
  rw [hlen, hcand]

/-- The entry checks read nothing but the tags of BLK, BITS and the keys, CANDLEN, CAND and the
three table flags (R183). -/
theorem check_congr (i : Instr) {s t : State} (hblk : t.blk = s.blk) (hbits : t.bits = s.bits)
    (hk1 : t.k1 = s.k1) (hk2 : t.k2 = s.k2) (hk3 : t.k3 = s.k3) (hk4 : t.k4 = s.k4)
    (hk5 : t.k5 = s.k5) (hlen : t.candlen = s.candlen) (hcand : t.cand = s.cand)
    (hs : t.svalid = s.svalid) (hp : t.pvalid = s.pvalid) (ht : t.pt = s.pt) :
    (commandOf i).check t = (commandOf i).check s := by
  cases i with
  | mixkey w k =>
    simp only [commandOf, mixkeyCommand, mixkeyCheck]
    cases keyIndex k with
    | none => rfl
    | some j => cases j <;> simp [State.key, *]
  | enc w => cases w <;>
      simp [commandOf, encCommand, pipelineCheck, State.sboxReady, State.pboxReady, *]
  | enct w => cases w <;>
      simp [commandOf, enctCommand, pipelineCheck, State.sboxReady, State.pboxReady, *]
  | dec w => cases w <;>
      simp [commandOf, decCommand, pipelineCheck, State.sboxReady, State.pboxReady, *]
  | dect w => cases w <;>
      simp [commandOf, dectCommand, pipelineCheck, State.sboxReady, State.pboxReady, *]
  | _ =>
    simp [commandOf, tobitsCommand, tonibCommand, vsboxCommand, vpboxCommand, subCommand,
      subiCommand, permCommand, permiCommand, substitutionCheck, permutationCheck,
      State.sboxReady, State.pboxReady, candidateOk_congr _ hlen hcand, *]

/-- The table checks read only CANDLEN and CAND. -/
theorem check_congr_tables (i : Instr) (h : (commandOf i).load = .keep) {s t : State}
    (hlen : t.candlen = s.candlen) (hcand : t.cand = s.cand) :
    (commandOf i).check t = (commandOf i).check s := by
  cases i with
  | vsbox => simp [commandOf, vsboxCommand, candidateOk_congr _ hlen hcand]
  | vpbox w => simp [commandOf, vpboxCommand, candidateOk_congr _ hlen hcand]
  | _ => simp [commandOf, tobitsCommand, tonibCommand, mixkeyCommand, subCommand, subiCommand,
      permCommand, permiCommand, encCommand, enctCommand, decCommand, dectCommand] at h

/-- The lines of the accept step before the checks change no check. -/
@[simp] theorem check_beginAccept (i : Instr) (v : Byte) (s : State) :
    (commandOf i).check ((commandOf i).clear (beginAccept v s)) = (commandOf i).check s := by
  cases i with
  | vsbox => exact check_congr_tables .vsbox rfl rfl rfl
  | vpbox w => exact check_congr_tables (.vpbox w) rfl rfl rfl
  | _ => exact check_congr _ rfl rfl rfl rfl rfl rfl rfl rfl rfl rfl rfl rfl

/-! ## Accept -/

/-- The accept step of a command that passes its entry checks. -/
theorem accept_of_check_none {i : Instr} {s : State} (h : (commandOf i).check s = none) :
    accept (commandOf i) s =
      begin (commandOf i) ((commandOf i).clear (beginAccept (encode i) s)) := by
  simp [accept, h]

/-- The accept step of a command that fails an entry check. -/
theorem accept_of_check_some {i : Instr} {s : State} {e : ErrorCode}
    (h : (commandOf i).check s = some e) :
    accept (commandOf i) s = raise e ((commandOf i).clear (beginAccept (encode i) s)) := by
  simp [accept, h]

/-! ## Controller step -/

/-- A snapshot either writes one cell of TRACE and advances TLEN, or TRACE has no such cell. -/
theorem snapshot_eq_next {t : Topology} {s u : State} (h : snapshot t s = .next u) :
    ∃ hl : s.tlen.toNat < 13,
      u = { s with trace := s.trace.set s.tlen.toNat (blockReg t s.st) hl, tlen := s.tlen + 1 } := by
  unfold snapshot at h
  split at h
  · rename_i hl
    exact ⟨hl, by simpa using h.symm⟩
  · cases h

/-- Everything a controller step can do when it answers a next state. -/
theorem controllerStep_eq_next {c : Command} {s u : State} (h : controllerStep c s = .next u) :
    ∃ stage, c.stages[s.sc.toNat]? = some stage ∧
      ((c.traced = false ∧ u = advance c (runStage c.topo stage s)) ∨
       (c.traced = true ∧ ∃ v, snapshot c.topo (runStage c.topo stage s) = .next v ∧
          u = advance c v)) := by
  unfold controllerStep at h
  split at h
  · cases h
  · rename_i stage hs
    refine ⟨stage, hs, ?_⟩
    dsimp only at h
    split at h
    · rename_i ht
      refine .inr ⟨ht, ?_⟩
      split at h
      · rename_i v hv
        exact ⟨v, hv, by simpa using h.symm⟩
      · cases h
      · cases h
    · rename_i ht
      exact .inl ⟨by simpa using ht, by simpa using h.symm⟩

/-- The controller step of an untraced command at a stage of its list. -/
theorem controllerStep_untraced {c : Command} {s : State} {stage : Stage}
    (hs : c.stages[s.sc.toNat]? = some stage) (ht : c.traced = false) :
    controllerStep c s = .next (advance c (runStage c.topo stage s)) := by
  simp [controllerStep, hs, ht]

/-- The controller step of a traced command at a stage of its list. -/
theorem controllerStep_traced {c : Command} {s v : State} {stage : Stage}
    (hs : c.stages[s.sc.toNat]? = some stage) (ht : c.traced = true)
    (hv : snapshot c.topo (runStage c.topo stage s) = .next v) :
    controllerStep c s = .next (advance c v) := by
  simp [controllerStep, hs, ht, hv]

/-- A controller step before the last stage only advances SC. -/
theorem advance_of_ne {c : Command} {s : State} (h : (s.sc + 1).toNat ≠ c.stages.length) :
    advance c s = { s with sc := s.sc + 1 } := by
  unfold advance
  exact if_neg h

/-- The controller step of the last stage completes the command. -/
theorem advance_of_eq {c : Command} {s : State} (h : (s.sc + 1).toNat = c.stages.length) :
    advance c s = complete c { s with sc := s.sc + 1 } := by
  unfold advance
  exact if_pos h

theorem complete_of_writesRes {c : Command} (s : State) (h : c.writesRes = true) :
    complete c s = { s with res := blockReg c.topo s.st, busy := false, done := true } := by
  simp [complete, h, setDone]

theorem complete_of_not_writesRes {c : Command} (s : State) (h : c.writesRes = false) :
    complete c s = { s with busy := false, done := true } := by
  simp [complete, h, setDone]

/-- No stage writes a host-written register, IR, SC, BUSY, DONE, ERR, RES, TRACE or TLEN
(R73, R160, R186). -/
theorem runStage_frame (t : Topology) (g : Stage) (s : State) :
    (runStage t g s).blk = s.blk ∧ (runStage t g s).bits = s.bits ∧
    (runStage t g s).k1 = s.k1 ∧ (runStage t g s).k2 = s.k2 ∧ (runStage t g s).k3 = s.k3 ∧
    (runStage t g s).k4 = s.k4 ∧ (runStage t g s).k5 = s.k5 ∧
    (runStage t g s).candlen = s.candlen ∧ (runStage t g s).cand = s.cand ∧
    (runStage t g s).ir = s.ir ∧ (runStage t g s).sc = s.sc ∧ (runStage t g s).busy = s.busy ∧
    (runStage t g s).done = s.done ∧ (runStage t g s).err = s.err ∧
    (runStage t g s).res = s.res ∧ (runStage t g s).trace = s.trace ∧
    (runStage t g s).tlen = s.tlen ∧ (runStage t g s).inputs = s.inputs ∧
    (runStage t g s).rdata = s.rdata ∧ (runStage t g s).freeCount = s.freeCount := by
  cases g <;> simp [runStage]

/-- Only the two build stages write a table store or a table flag (R39, R40). -/
theorem runStage_tables (t : Topology) (g : Stage) (s : State) (h1 : g ≠ .blds) (h2 : g ≠ .bldp) :
    (runStage t g s).sbox = s.sbox ∧ (runStage t g s).sinv = s.sinv ∧
    (runStage t g s).pbox = s.pbox ∧ (runStage t g s).pinv = s.pinv ∧
    (runStage t g s).svalid = s.svalid ∧ (runStage t g s).pvalid = s.pvalid ∧
    (runStage t g s).pt = s.pt := by
  cases g <;> simp_all [runStage]

/-! ## Host accesses and steps -/

/-- A host read changes only the last read word and the counter of free values (R70). -/
theorem hostRead_datapath (r : BitVec 7) (s : State) :
    (hostRead r s).datapath = s.datapath := by
  unfold hostRead State.datapath
  split <;> rfl

/-- While BUSY = 1 a host write that is no accept is dropped (R204). -/
theorem hostWrite_busy {s : State} (r : BitVec 7) (v : Nat) (h : s.busy = true) :
    hostWrite r v s = s := by
  simp [hostWrite, h]

/-- While BUSY = 1 no write is an accept (R204). -/
theorem commandWrite_busy {s : State} (r : BitVec 7) (v : Nat) (h : s.busy = true) :
    commandWrite r v s = none := by
  simp [commandWrite, h]

/-- While BUSY = 1 every host write is dropped (R204). -/
theorem hostWriteStep_busy {s : State} (r : BitVec 7) (v : Nat) (h : s.busy = true) :
    hostWriteStep r v s = .next s := by
  simp [hostWriteStep, commandWrite_busy r v h, hostWrite_busy r v h]

/-- Everything a host write of a register can do: one host-written register changes, or none. -/
theorem writeRegister_cases (r : Reg) (v : Nat) (s : State) :
    writeRegister r v s = s ∨
    (∃ b, writeRegister r v s = { s with blk := b }) ∨
    (∃ b, writeRegister r v s = { s with bits := b }) ∨
    (∃ k b, writeRegister r v s = setKey k b s) ∨
    (∃ n, writeRegister r v s = { s with candlen := n }) ∨
    (∃ c, writeRegister r v s = { s with cand := c }) := by
  cases r <;> simp only [writeRegister, true_or]
  · exact .inr (.inl ⟨_, rfl⟩)
  · exact .inr (.inr (.inl ⟨_, rfl⟩))
  · exact .inr (.inr (.inr (.inl ⟨_, _, rfl⟩)))
  · exact .inr (.inr (.inr (.inr (.inl ⟨_, rfl⟩))))
  · exact .inr (.inr (.inr (.inr (.inr ⟨_, rfl⟩))))

/-- Everything the step can do when it answers a next state: a step of the command in IR, an
accept, an illegal accept, a register write, a read, a reset, or nothing. `u` is the state the
pending input was taken from. -/
theorem step_eq_next {s t : State} (h : step s = .next t) :
    ∃ u : State, (u = s ∨ ∃ rest, u = { s with inputs := rest }) ∧
      ((u.busy = true ∧ ∃ i, decode u.ir = .ok i ∧ exec i u = .next t) ∨
       (u.busy = false ∧ ∃ v i, decode v = .ok i ∧ exec i u = .next t) ∨
       (u.busy = false ∧ ∃ v e, decode v = .error e ∧ t = acceptIllegal v u) ∨
       (∃ r v, t = hostWrite r v u) ∨
       (∃ r, t = hostRead r u) ∨
       t = resetEvent u ∨
       t = u) := by
  have turn : ∀ u : State, controllerTurn u = .next t →
      (u.busy = true ∧ ∃ i, decode u.ir = .ok i ∧ exec i u = .next t) ∨ t = u := by
    intro u hu
    unfold controllerTurn at hu
    split at hu
    · rename_i hb
      split at hu
      · rename_i i hi
        exact .inl ⟨hb, i, hi, hu⟩
      · cases hu
    · exact .inr (by simpa using hu.symm)
  unfold step at h
  split at h
  · rcases turn _ h with h | h
    · exact ⟨s, .inl rfl, .inl h⟩
    · exact ⟨s, .inl rfl, by simp [h]⟩
  · rename_i rest _
    refine ⟨{ s with inputs := rest }, .inr ⟨rest, rfl⟩, ?_⟩
    rcases turn _ h with h | h
    · exact .inl h
    · simp [h]
  · rename_i r v rest _
    refine ⟨{ s with inputs := rest }, .inr ⟨rest, rfl⟩, ?_⟩
    unfold hostWriteStep at h
    split at h
    · rename_i b hb
      have hidle : s.busy = false := by
        unfold commandWrite at hb
        split at hb
        · rename_i hc; exact hc.1
        · cases hb
      unfold acceptByte at h
      split at h
      · rename_i i hi
        exact .inr (.inl ⟨hidle, b, i, hi, h⟩)
      · rename_i e he
        exact .inr (.inr (.inl ⟨hidle, b, e, he, by simpa using h.symm⟩))
    · exact .inr (.inr (.inr (.inl ⟨r, v, by simpa using h.symm⟩)))
  · rename_i r rest _
    exact ⟨{ s with inputs := rest }, .inr ⟨rest, rfl⟩,
      .inr (.inr (.inr (.inr (.inl ⟨r, by simpa using h.symm⟩))))⟩
  · rename_i rest _
    split at h
    · exact ⟨{ s with inputs := rest }, .inr ⟨rest, rfl⟩,
        .inr (.inr (.inr (.inr (.inl ⟨_, by simpa using h.symm⟩))))⟩
    · rcases turn _ h with h | h
      · exact ⟨s, .inl rfl, .inl h⟩
      · exact ⟨s, .inl rfl, by simp [h]⟩
  · exact ⟨{ s with inputs := _ }, .inr ⟨_, rfl⟩,
      .inr (.inr (.inr (.inr (.inl ⟨_, by simpa using h.symm⟩))))⟩
  · rename_i rest _
    exact ⟨{ s with inputs := rest }, .inr ⟨rest, rfl⟩,
      .inr (.inr (.inr (.inr (.inr (.inl (by simpa using h.symm))))))⟩

end Sys2Proof.Machine
end

