-- ==== Sys2Proof/Laws/PerInstr.lean ====
section
/-! SUPPORT. Laws of every command as syntax: its byte has the fixed bits of its row of the opcode table (30_encoding.md rule R81). -/

namespace Sys2Proof.Laws.EncodeMatchesTable

/-- A row's fixed bits in the byte of a command. -/
def rowMatches (mask value : Byte) (i : Instr) : Prop := encode i &&& mask = value

/-- The byte of `i` has the fixed bits of its row of spec/opcode_table.json. -/
def Statement (i : Instr) : Prop :=
  match i with
  | .tobits _ => rowMatches 0xF7 0x10 i
  | .tonib _ => rowMatches 0xF7 0x20 i
  | .vsbox => rowMatches 0xFF 0x30 i
  | .vpbox _ => rowMatches 0xF7 0x40 i
  | .mixkey _ _ => rowMatches 0xF0 0x50 i
  | .sub _ => rowMatches 0xF7 0x60 i
  | .subi _ => rowMatches 0xF7 0x61 i
  | .perm _ => rowMatches 0xF7 0x70 i
  | .permi _ => rowMatches 0xF7 0x71 i
  | .enc _ => rowMatches 0xF7 0x80 i
  | .enct _ => rowMatches 0xF7 0x81 i
  | .dec _ => rowMatches 0xF7 0x90 i
  | .dect _ => rowMatches 0xF7 0x91 i

theorem tobits (t : Topology) : Statement (.tobits t) := by
  unfold Statement rowMatches
  cases t <;> decide

theorem tonib (t : Topology) : Statement (.tonib t) := by
  unfold Statement rowMatches
  cases t <;> decide

theorem vsbox : Statement .vsbox := by
  unfold Statement rowMatches
  decide

theorem vpbox (t : Topology) : Statement (.vpbox t) := by
  unfold Statement rowMatches
  cases t <;> decide

theorem mixkey (t : Topology) (k : BitVec 3) : Statement (.mixkey t k) := by
  unfold Statement rowMatches
  have key : ∀ n : Fin 8, encode (.mixkey t (BitVec.ofFin n)) &&& 0xF0 = 0x50 := by
    cases t <;> decide
  exact key k.toFin

theorem sub (t : Topology) : Statement (.sub t) := by
  unfold Statement rowMatches
  cases t <;> decide

theorem subi (t : Topology) : Statement (.subi t) := by
  unfold Statement rowMatches
  cases t <;> decide

theorem perm (t : Topology) : Statement (.perm t) := by
  unfold Statement rowMatches
  cases t <;> decide

theorem permi (t : Topology) : Statement (.permi t) := by
  unfold Statement rowMatches
  cases t <;> decide

theorem enc (t : Topology) : Statement (.enc t) := by
  unfold Statement rowMatches
  cases t <;> decide

theorem enct (t : Topology) : Statement (.enct t) := by
  unfold Statement rowMatches
  cases t <;> decide

theorem dec (t : Topology) : Statement (.dec t) := by
  unfold Statement rowMatches
  cases t <;> decide

theorem dect (t : Topology) : Statement (.dect t) := by
  unfold Statement rowMatches
  cases t <;> decide

end Sys2Proof.Laws.EncodeMatchesTable
end

