-- ==== Sys2Proof/Laws/Runs.lean ====
section
/-! SUPPORT. The accept step, the controller step and the step of the machine, as what they change and what they leave: the lemmas a proof over all commands cites instead of unfolding the lifecycle. -/

namespace Sys2Proof.Machine

/-! ## Accept -/

/-- The accept step of an untraced command that takes its input from BLK and passes its checks. -/
theorem exec_accept_block {i : Instr} {t : Topology} {s : State} (hb : s.busy = false)
    (hc : (commandOf i).check s = none) (hl : (commandOf i).load = .block)
    (ht : (commandOf i).topo = t) (hcl : (commandOf i).clear = id)
    (htr : (commandOf i).traced = false) : exec i s = .next (acceptedBlock i t s) := by
  rw [exec_idle i hb, accept_of_check_none hc]
  simp only [begin, hl, ht, htr, hcl, id, loadWork, setBusy, beginAccept, clearOutcome,
    fitBlock_blockOf]
  rfl

/-- The accept step of a traced command that passes its checks. -/
theorem exec_accept_traced {i : Instr} {t : Topology} {s : State} (hb : s.busy = false)
    (hc : (commandOf i).check s = none) (hl : (commandOf i).load = .block)
    (ht : (commandOf i).topo = t) (hcl : (commandOf i).clear = id)
    (htr : (commandOf i).traced = true) : exec i s = .next (acceptedTraced i t s) := by
  rw [exec_idle i hb, accept_of_check_none hc]
  simp only [begin, hl, ht, htr, hcl, id, loadWork, setBusy, beginAccept, clearOutcome,
    fitBlock_blockOf, if_true, firstSnapshot, blockReg_eq, activeCells_idem]
  rfl

/-- What `begin` leaves as it is. -/
theorem begin_frame (c : Command) (w : State) :
    (begin c w).blk = w.blk ∧ (begin c w).bits = w.bits ∧ (begin c w).k1 = w.k1 ∧
    (begin c w).k2 = w.k2 ∧ (begin c w).k3 = w.k3 ∧ (begin c w).k4 = w.k4 ∧
    (begin c w).k5 = w.k5 ∧ (begin c w).candlen = w.candlen ∧ (begin c w).cand = w.cand ∧
    (begin c w).res = w.res ∧ (begin c w).rbits = w.rbits ∧ (begin c w).sbox = w.sbox ∧
    (begin c w).sinv = w.sinv ∧ (begin c w).pbox = w.pbox ∧ (begin c w).pinv = w.pinv ∧
    (begin c w).pt = w.pt ∧ (begin c w).svalid = w.svalid ∧ (begin c w).pvalid = w.pvalid ∧
    (begin c w).ir = w.ir := by
  unfold begin
  cases c.load <;> cases c.traced <;>
    exact ⟨rfl, rfl, rfl, rfl, rfl, rfl, rfl, rfl, rfl, rfl, rfl, rfl, rfl, rfl, rfl, rfl, rfl, rfl,
      rfl⟩

/-- Without a trace `begin` leaves TRACE and TLEN. -/
theorem begin_untraced {c : Command} (h : c.traced = false) (w : State) :
    (begin c w).trace = w.trace ∧ (begin c w).tlen = w.tlen := by
  simp only [begin, h, Bool.false_eq_true, if_false]
  cases c.load <;> exact ⟨rfl, rfl⟩

/-- An accept step clears nothing, or SVALID, or PVALID, before the checks. -/
theorem clear_eq (i : Instr) : (commandOf i).clear = id ∨ (commandOf i).clear = clearSvalid ∨
    (commandOf i).clear = clearPvalid := by
  cases i <;> first | exact .inl rfl | exact .inr (.inl rfl) | exact .inr (.inr rfl)

/-! ## Controller step -/

/-- The last controller step of a one-stage block command that leaves `v` in ST. -/
theorem exec_finish_block {i : Instr} {t : Topology} {s : State} {g : Stage}
    {v : Vector Nibble 4} (hst : (commandOf i).stages = [g]) (ht : (commandOf i).topo = t)
    (htr : (commandOf i).traced = false) (hw : (commandOf i).writesRes = true)
    (hv : activeCells t v = v)
    (hrun : runStage t g (acceptedBlock i t s) = { acceptedBlock i t s with st := v }) :
    exec i (acceptedBlock i t s) = .next (finishedBlock i t 1 v s) := by
  rw [exec_busy i rfl, controllerStep_untraced (stage := g) (by rw [hst]; rfl) htr, ht, hrun,
    advance_of_eq (by rw [hst]; rfl), complete_of_writesRes _ hw, ht, blockReg_eq]
  simp only [hv]
  rfl

/-- Which stage writes the table stores, and which RBITS. -/
theorem runStage_writes (t : Topology) (g : Stage) (s : State) :
    (g ≠ .blds → (runStage t g s).sbox = s.sbox ∧ (runStage t g s).sinv = s.sinv ∧
      (runStage t g s).svalid = s.svalid) ∧
    (g ≠ .bldp → (runStage t g s).pbox = s.pbox ∧ (runStage t g s).pinv = s.pinv ∧
      (runStage t g s).pvalid = s.pvalid ∧ (runStage t g s).pt = s.pt) ∧
    (g ≠ .cvtb → (runStage t g s).rbits = s.rbits) := by
  cases g <;> simp [runStage]

/-- The end of a controller step writes RES only when it completes a command that has it. -/
theorem advance_res (c : Command) (w : State) : (advance c w).res = w.res ∨
    ((advance c w).busy = false ∧ (advance c w).done = true ∧ c.writesRes = true) := by
  by_cases he : (w.sc + 1).toNat = c.stages.length
  · rw [advance_of_eq he]
    cases hwr : c.writesRes with
    | true => exact .inr ⟨by rw [complete_of_writesRes _ hwr], by rw [complete_of_writesRes _ hwr],
        rfl⟩
    | false => exact .inl (by rw [complete_of_not_writesRes _ hwr])
  · rw [advance_of_ne he]
    exact .inl rfl

/-! ## The step -/

/-- CMD is register number 0 alone. -/
theorem registerOf_eq_cmd {r : BitVec 7} (h : registerOf r = some .cmd) : r = 0x00 := by
  have key : ∀ n : Fin 128, registerOf (BitVec.ofFin n) = some .cmd → n = 0 := by decide
  exact BitVec.eq_of_toFin_eq (key r.toFin h)

/-- Everything the step can do outside a reset, with the input it took: the controller's turn, an
accept step, a register write, a read, or nothing. `u` is the state the input was taken from. -/
theorem step_without_reset {s t : State} (h : step s = .next t)
    (hr : ∀ rest, s.inputs ≠ .reset :: rest) :
    ∃ u : State, (∃ l, u = { s with inputs := l }) ∧
      ((u.busy = true ∧ ∃ i, decode u.ir = .ok i ∧ controllerStep (commandOf i) u = .next t) ∨
       (u.busy = false ∧ (∃ n rest, s.inputs = .write 0x00 n :: rest) ∧
         ((∃ v i, decode v = .ok i ∧ t = accept (commandOf i) u) ∨ ∃ v, t = acceptIllegal v u)) ∨
       (u.busy = false ∧ ∃ r v rest reg, s.inputs = .write r v :: rest ∧
         registerOf r = some reg ∧ reg ≠ .cmd ∧ t = writeRegister reg v u) ∨
       (∃ r, t = hostRead r u) ∨ t = u) := by
  have turn : ∀ u : State, controllerTurn u = .next t →
      (u.busy = true ∧ ∃ i, decode u.ir = .ok i ∧ controllerStep (commandOf i) u = .next t) ∨
        t = u := by
    intro u hu
    unfold controllerTurn at hu
    split at hu
    · rename_i hb
      split at hu
      · rename_i i hi
        exact .inl ⟨hb, i, hi, by rw [← exec_busy i hb]; exact hu⟩
      · cases hu
    · exact .inr (by simpa using hu.symm)
  unfold step at h
  split at h
  · rcases turn _ h with h | h
    · exact ⟨s, ⟨s.inputs, rfl⟩, .inl h⟩
    · exact ⟨s, ⟨s.inputs, rfl⟩, by simp [h]⟩
  · rename_i rest _
    refine ⟨{ s with inputs := rest }, ⟨rest, rfl⟩, ?_⟩
    rcases turn _ h with h | h
    · exact .inl h
    · simp [h]
  · rename_i r v rest hi
    refine ⟨{ s with inputs := rest }, ⟨rest, rfl⟩, ?_⟩
    unfold hostWriteStep commandWrite at h
    by_cases hc : s.busy = false ∧ registerOf r = some .cmd
    · rw [if_pos hc] at h
      refine .inr (.inl ⟨hc.1, ⟨v, rest, by rw [hi, registerOf_eq_cmd hc.2]⟩, ?_⟩)
      simp only [acceptByte] at h
      split at h
      · rename_i i hd
        rw [exec_idle (s := { s with inputs := rest }) i hc.1] at h
        injection h with h
        exact .inl ⟨_, i, hd, h.symm⟩
      · injection h with h
        exact .inr ⟨_, h.symm⟩
    · rw [if_neg hc] at h
      simp only at h
      injection h with h
      subst h
      unfold hostWrite
      cases hb : s.busy with
      | true => exact .inr (.inr (.inr (.inr (by simp))))
      | false =>
        simp only [Bool.false_eq_true, if_false]
        cases hreg : registerOf r with
        | none => exact .inr (.inr (.inr (.inr rfl)))
        | some reg =>
          refine .inr (.inr (.inl ⟨by trivial, r, v, rest, reg, hi, hreg, ?_, rfl⟩))
          rintro rfl
          exact hc ⟨hb, hreg⟩
  · rename_i r rest _
    injection h with h
    exact ⟨{ s with inputs := rest }, ⟨rest, rfl⟩, .inr (.inr (.inr (.inl ⟨r, h.symm⟩)))⟩
  · rename_i rest _
    split at h
    · injection h with h
      exact ⟨{ s with inputs := rest }, ⟨rest, rfl⟩, .inr (.inr (.inr (.inl ⟨_, h.symm⟩)))⟩
    · rcases turn _ h with h | h
      · exact ⟨s, ⟨s.inputs, rfl⟩, .inl h⟩
      · exact ⟨s, ⟨s.inputs, rfl⟩, by simp [h]⟩
  · injection h with h
    exact ⟨{ s with inputs := _ }, ⟨_, rfl⟩, .inr (.inr (.inr (.inl ⟨_, h.symm⟩)))⟩
  · rename_i rest hi
    exact absurd hi (hr rest)

/-- The pending inputs are no part of the invariant. -/
theorem datapathInv_inputs {s : State} (h : DatapathInv s) (l : List Event) :
    DatapathInv { s with inputs := l } where
  sbox := h.sbox
  pbox := h.pbox
  err := h.err
  failed := h.failed
  tlen := h.tlen
  sc := h.sc
  trace := h.trace
  res := h.res
  rbits := h.rbits
  running hb := by
    obtain ⟨i, r⟩ := h.running hb
    have hc : (commandOf i).check { s with inputs := l } = none := by
      rw [← r.checked]
      exact check_congr i rfl rfl rfl rfl rfl rfl rfl rfl rfl rfl rfl rfl
    exact ⟨i, r.latched, hc, r.stage, r.done, r.err, r.snapshots, r.lanes, r.sboxCleared,
      r.pboxCleared⟩

/-- A WAIT on an idle datapath ends: its poll reads STATUS. -/
theorem step_wait_idle {s : State} {rest : List Event} (hi : s.inputs = .wait :: rest)
    (hb : s.busy = false) : step s = .next (hostRead statusNumber { s with inputs := rest }) := by
  simp [step, hi, hb]

/-- A WAIT on a running command gives the turn to the controller and stays pending. -/
theorem step_wait_busy {s : State} {rest : List Event} (hi : s.inputs = .wait :: rest)
    (hb : s.busy = true) (hd : s.done = false) : step s = controllerTurn s := by
  simp [step, hi, hb, hd]

/-- The reads of a trace begin with the one of TLEN and leave one read for each snapshot below it. -/
theorem step_readTrace {s : State} {rest : List Event} (hi : s.inputs = .readTrace :: rest) :
    step s = .next { s with
      inputs := traceReads s.tlen.toNat ++ rest, rdata := some s.tlen.toNat } := by
  simp only [step, hi]
  rfl

/-- A read of the number of a mapped register. -/
theorem step_read {s : State} {r : BitVec 7} {reg : Reg} {rest : List Event}
    (hi : s.inputs = .read r :: rest) (hr : registerOf r = some reg) :
    step s = .next { s with inputs := rest, rdata := some (readRegister reg s) } := by
  simp only [step, hi, hostRead, hr]
  cases reg with
  | key k => cases k <;> rfl
  | _ => rfl

/-- A write to a mapped register other than CMD while idle. -/
theorem step_write_idle {s : State} {r : BitVec 7} {v : Nat} {reg : Reg} {rest : List Event}
    (hi : s.inputs = .write r v :: rest) (hb : s.busy = false) (hr : registerOf r = some reg)
    (hne : reg ≠ .cmd) : step s = .next (writeRegister reg v { s with inputs := rest }) := by
  simp [step, hi, hostWriteStep, commandWrite, hb, hr, hne, hostWrite]

/-- TRACE[j] stands at register number 0x20 + j. -/
theorem registerOf_trace (j : Fin 13) :
    registerOf (BitVec.ofNat 7 (0x20 + j.val)) = some (.trace j) := by
  revert j
  decide

/-! ## Host sequences -/

/-- A call has a sequence exactly when its operands can be presented. -/
theorem presentWhen_eq_some {ok : Bool} {l seq : List Event} :
    presentWhen ok l = some seq ↔ ok = true ∧ seq = l := by
  cases ok <;> simp [presentWhen, eq_comm]

/-- A call whose operands cannot be presented has no sequence. -/
theorem presentWhen_eq_none {ok : Bool} {l : List Event} :
    presentWhen ok l = none ↔ ok = false := by
  cases ok <;> simp [presentWhen]

/-- Operands of the arities and the number the topology needs can be presented. -/
theorem operandsPresentable_of_arity {t : Topology} {B : Block} {keys : List Block}
    (hB : B.length = arity t) (hk : keys.length = keyCount t)
    (hks : ∀ k ∈ keys, k.length = arity t) : operandsPresentable t B keys = true := by
  have hw : arity t < 8 := by cases t <;> decide
  simp only [operandsPresentable, blockPresentable, Bool.and_eq_true, decide_eq_true_eq,
    List.all_eq_true]
  exact ⟨⟨hk, hB ▸ hw⟩, fun k h => (hks k h) ▸ hw⟩

/-- A run of one step more. -/
theorem run_succ_of_step (n : Nat) {s t : State} (h : step s = .next t) :
    Host.Core.run Sys2Proof.core (n + 1) s = Host.Core.run Sys2Proof.core n t := by
  have hs : Sys2Proof.core.step s = .next t := h
  simp only [Host.Core.run]
  rw [hs]

/-- A run of `m + n` steps is a run of `m` and then of `n`. -/
theorem run_add {m : Nat} (n : Nat) {s t : State}
    (h : Host.Core.run Sys2Proof.core m s = .next t) :
    Host.Core.run Sys2Proof.core (m + n) s = Host.Core.run Sys2Proof.core n t := by
  induction m generalizing s with
  | zero =>
    injection h with h
    subst h
    simp
  | succ m ih =>
    cases hs : Sys2Proof.core.step s with
    | next u =>
      have hu : step s = .next u := hs
      rw [Nat.succ_add, run_succ_of_step _ hu]
      rw [run_succ_of_step _ hu] at h
      exact ih h
    | fault r => simp [Host.Core.run, hs] at h
    | refused r => simp [Host.Core.run, hs] at h

end Sys2Proof.Machine
end

