-- ==== Sys2Proof/Tests/Slice0.lean ====
section
/-! SUPPORT. Tests of the model and the witnesses of the statements' hypotheses. The expected values are those of 95_test_vectors.md, parts A and B, whose notation the comments use: SH, PT, ROT, T2 and KA are its example tables and keys. -/

namespace Sys2Proof.Tests

open Sys2Proof.Machine

/-! ## Helpers -/

/-- A store from its hex digits in index order. -/
def tableOf (d : Nat) : Table := Vector.ofFn fun i => BitVec.ofNat 4 (d / 16 ^ (15 - i.val) % 16)

/-- A candidate buffer from its hex digits in index order. -/
def candOf (d : Nat) : Vector Byte 16 :=
  Vector.ofFn fun i => BitVec.ofNat 8 (d / 16 ^ (15 - i.val) % 16)

/-- A block-valued register from its word. -/
def block (d : Nat) : BlockReg := BlockReg.ofWord (BitVec.ofNat 19 d)

/-- A bit-valued register from its word. -/
def bitsOf (d : Nat) : BitReg := BitReg.ofWord (BitVec.ofNat 21 d)

/-- A property of the next state of one atomic step of a command. -/
def after (i : Instr) (s : State) (p : State → Bool) : Bool :=
  match exec i s with
  | .next t => p t
  | .fault _ => false
  | .refused _ => false

/-- A property of the next state of one step of the machine. -/
def afterStep (s : State) (p : State → Bool) : Bool :=
  match step s with
  | .next t => p t
  | .fault _ => false
  | .refused _ => false

/-- Idle, with S-box SH, the SPN P-box ROT, the keys KA and BLK = 26B7. -/
def spn : State :=
  { State.reset with
    blk := block 0x426B7
    k1 := block 0x43A94
    k2 := block 0x4D63F
    k3 := block 0x4A1B2
    k4 := block 0x4C3D4
    k5 := block 0x4E5F6
    bits := bitsOf 0x10A3F0
    candlen := 16
    cand := candOf 0xE4D12FB83A6C5907
    sbox := tableOf 0xE4D12FB83A6C5907
    sinv := tableOf 0xE3481CAF7D96B205
    pbox := tableOf 0x123456789ABCDEF0
    pinv := tableOf 0xF0123456789ABCDE
    svalid := true
    pvalid := true
    pt := true }

/-- Idle, with S-box SH, the toy P-box T2, the keys 3 and 1 and BLK = 5. -/
def toy : State :=
  { State.reset with
    blk := block 0x15000
    k1 := block 0x13000
    k2 := block 0x11000
    k5 := block 0x1F000
    bits := bitsOf 0x045FFF
    candlen := 4
    cand := candOf 0x2031000000000000
    sbox := tableOf 0xE4D12FB83A6C5907
    sinv := tableOf 0xE3481CAF7D96B205
    pbox := tableOf 0x2031000000000000
    pinv := tableOf 0x1302000000000000
    svalid := true
    pvalid := true }

/-- Running the command `i` at stage `n` with `x` in ST. -/
def running (i : Instr) (n : Nat) (x : Nat) (s : State) : State :=
  { s with ir := encode i, busy := true, sc := BitVec.ofNat 4 n, st := nibCells (BitVec.ofNat 16 x) }

/-! ## WellFormed -/

theorem test_wellFormed_refuses_key_0 : (Instr.mixkey .toy 0).wellFormed = false := by decide
theorem test_wellFormed_refuses_key_6 : (Instr.mixkey .toy 6).wellFormed = false := by decide
theorem test_wellFormed_refuses_key_7 : (Instr.mixkey .spn 7).wellFormed = false := by decide
theorem test_wellFormed_admits_key_1 : (Instr.mixkey .spn 1).wellFormed = true := by decide
theorem test_wellFormed_admits_key_5 : (Instr.mixkey .toy 5).wellFormed = true := by decide

/-! ## Decode: the bytes of R81, written out bit by bit as op, t, a -/

theorem test_decode_tobits : decode (0b0001#4 ++ 0b0#1 ++ 0b000#3) = .ok (.tobits .toy) ∧
    decode (0b0001#4 ++ 0b1#1 ++ 0b000#3) = .ok (.tobits .spn) := by decide
theorem test_decode_tonib : decode (0b0010#4 ++ 0b0#1 ++ 0b000#3) = .ok (.tonib .toy) ∧
    decode (0b0010#4 ++ 0b1#1 ++ 0b000#3) = .ok (.tonib .spn) := by decide
theorem test_decode_vsbox : decode (0b0011#4 ++ 0b0#1 ++ 0b000#3) = .ok .vsbox := by decide
theorem test_decode_vpbox : decode (0b0100#4 ++ 0b0#1 ++ 0b000#3) = .ok (.vpbox .toy) ∧
    decode (0b0100#4 ++ 0b1#1 ++ 0b000#3) = .ok (.vpbox .spn) := by decide
theorem test_decode_mixkey : decode (0b0101#4 ++ 0b0#1 ++ 0b101#3) = .ok (.mixkey .toy 5) ∧
    decode (0b0101#4 ++ 0b1#1 ++ 0b011#3) = .ok (.mixkey .spn 3) := by decide
theorem test_decode_sub : decode (0b0110#4 ++ 0b0#1 ++ 0b000#3) = .ok (.sub .toy) ∧
    decode (0b0110#4 ++ 0b1#1 ++ 0b000#3) = .ok (.sub .spn) := by decide
theorem test_decode_subi : decode (0b0110#4 ++ 0b0#1 ++ 0b001#3) = .ok (.subi .toy) ∧
    decode (0b0110#4 ++ 0b1#1 ++ 0b001#3) = .ok (.subi .spn) := by decide
theorem test_decode_perm : decode (0b0111#4 ++ 0b0#1 ++ 0b000#3) = .ok (.perm .toy) ∧
    decode (0b0111#4 ++ 0b1#1 ++ 0b000#3) = .ok (.perm .spn) := by decide
theorem test_decode_permi : decode (0b0111#4 ++ 0b0#1 ++ 0b001#3) = .ok (.permi .toy) ∧
    decode (0b0111#4 ++ 0b1#1 ++ 0b001#3) = .ok (.permi .spn) := by decide
theorem test_decode_enc : decode (0b1000#4 ++ 0b0#1 ++ 0b000#3) = .ok (.enc .toy) ∧
    decode (0b1000#4 ++ 0b1#1 ++ 0b000#3) = .ok (.enc .spn) := by decide
theorem test_decode_enct : decode (0b1000#4 ++ 0b0#1 ++ 0b001#3) = .ok (.enct .toy) ∧
    decode (0b1000#4 ++ 0b1#1 ++ 0b001#3) = .ok (.enct .spn) := by decide
theorem test_decode_dec : decode (0b1001#4 ++ 0b0#1 ++ 0b000#3) = .ok (.dec .toy) ∧
    decode (0b1001#4 ++ 0b1#1 ++ 0b000#3) = .ok (.dec .spn) := by decide
theorem test_decode_dect : decode (0b1001#4 ++ 0b0#1 ++ 0b001#3) = .ok (.dect .toy) ∧
    decode (0b1001#4 ++ 0b1#1 ++ 0b001#3) = .ok (.dect .spn) := by decide
/-- B1: illegal samples, one for each reason. -/
theorem test_decode_illegal : decode 0x00 = .error .reservedOperation ∧
    decode 0xFF = .error .reservedOperation ∧ decode 0x38 = .error .noSpnForm ∧
    decode 0x31 = .error .badArgument ∧ decode 0x62 = .error .badArgument ∧
    decode 0x50 = .error .badKeyIndex ∧ decode 0x5E = .error .badKeyIndex := by decide

/-! ## One step of each command -/

/-- B2: BLK = 0x4A3F0, TOBITS.SPN. -/
theorem test_tobits_spn :
    after (.tobits .spn) (running (.tobits .spn) 0 0xA3F0 spn)
      (fun t => t.rbits.toWord == 0x10A3F0 && t.done && !t.busy) = true := by decide
/-- B2: BLK = 0x15ABC, TOBITS.TOY: the junk does not reach ST. -/
theorem test_tobits_toy_accept :
    after (.tobits .toy) { toy with blk := block 0x15ABC }
      (fun t => nibData t.st == 0x5000 && t.busy) = true := by decide
/-- B2: BITS = 0x10A3F0, TONIB.SPN. -/
theorem test_tonib_spn :
    after (.tonib .spn) (running (.tonib .spn) 0 0 spn) (fun t => t.res.toWord == 0x4A3F0) = true := by
  decide
/-- B2: BITS = 0x045FFF, TONIB.TOY: bits past position 3 are not read. -/
theorem test_tonib_toy :
    after (.tonib .toy) (running (.tonib .toy) 0 0 toy) (fun t => t.res.toWord == 0x15000) = true := by
  decide
/-- B3: SH, VSBOX. -/
theorem test_vsbox :
    after .vsbox (running .vsbox 0 0 { spn with sbox := tableOf 0, sinv := tableOf 0, svalid := false })
      (fun t => t.sbox == tableOf 0xE4D12FB83A6C5907 && t.sinv == tableOf 0xE3481CAF7D96B205 &&
        t.svalid) = true := by decide
/-- A3: the candidate 0, 0, 2, 3, …; STATUS was 0xE2 without DONE. -/
theorem test_vsbox_duplicate :
    after .vsbox { spn with cand := candOf 0x0023456789ABCDEF }
      (fun t => readRegister .status t == 0xC6 && t.sbox == spn.sbox) = true := by decide
/-- B3: T2, VPBOX.TOY over an SPN P-box: cells 4..15 become 0 and PT becomes 0. -/
theorem test_vpbox_toy :
    after (.vpbox .toy)
      (running (.vpbox .toy) 0 0 { spn with cand := candOf 0x2031FFFFFFFFFFFF, candlen := 4, pvalid := false })
      (fun t => t.pbox == tableOf 0x2031000000000000 && t.pinv == tableOf 0x1302000000000000 &&
        t.pvalid && !t.pt) = true := by decide
/-- A4: length 15, VPBOX.SPN; B3: PT keeps its value. -/
theorem test_vpbox_length :
    after (.vpbox .spn) { spn with candlen := 15 }
      (fun t => readRegister .status t == 0xA6) = true := by decide
/-- B4: MIXKEY.SPN 3. -/
theorem test_mixkey_spn :
    after (.mixkey .spn 3) (running (.mixkey .spn 3) 0 0x26B7 spn)
      (fun t => t.res.toWord == 0x48705) = true := by decide
/-- B4: MIXKEY.TOY 5 with K5 = F. -/
theorem test_mixkey_toy :
    after (.mixkey .toy 5) (running (.mixkey .toy 5) 0 0x5000 toy)
      (fun t => t.res.toWord == 0x1A000) = true := by decide
/-- B4: SUB with SH. -/
theorem test_sub :
    after (.sub .spn) (running (.sub .spn) 0 0x26B7 spn) (fun t => t.res.toWord == 0x4DBC8) = true := by
  decide
/-- B4: SUBI with SH. -/
theorem test_subi :
    after (.subi .spn) (running (.subi .spn) 0 0x26B7 spn) (fun t => t.res.toWord == 0x44A6F) = true := by
  decide
/-- B4: PERM with ROT; a source reading of the entries would give another word. -/
theorem test_perm_rot :
    after (.perm .spn) (running (.perm .spn) 0 0x1234 spn) (fun t => t.res.toWord == 0x4091A) = true := by
  decide
/-- B4: PERM with T2. -/
theorem test_perm_toy :
    after (.perm .toy) (running (.perm .toy) 0 0x8000 toy) (fun t => t.res.toWord == 0x12000) = true := by
  decide
/-- B4: PERMI with ROT. -/
theorem test_permi_rot :
    after (.permi .spn) (running (.permi .spn) 0 0x1234 spn) (fun t => t.res.toWord == 0x42468) = true := by
  decide
/-- B4: PERMI.SPN on a toy P-box is TableNotReady. -/
theorem test_permi_wrong_pbox :
    after (.permi .spn) { toy with blk := block 0x426B7 } (fun t => t.err == 3 && t.done && !t.busy) = true := by
  decide
/-- B5: the last stage of ENC.TOY on 5 with SH, K1 = 3, K2 = 1: B to A. -/
theorem test_enc_toy_last :
    after (.enc .toy) (running (.enc .toy) 2 0xB000 toy)
      (fun t => t.res.toWord == 0x1A000 && t.sc == 3 && t.done && !t.busy) = true := by decide
/-- B5: stage 1 of ENC.SPN on 26B7: 1C23 to 45D1. -/
theorem test_enc_spn_sub :
    after (.enc .spn) (running (.enc .spn) 1 0x1C23 spn)
      (fun t => nibData t.st == 0x45D1 && t.sc == 2 && t.busy && t.res == spn.res) = true := by decide
/-- B5: stage 2 of ENCT.SPN with PBOX = PT: 45D1 to 2E07, recorded as snapshot 3. -/
theorem test_enct_spn_perm :
    after (.enct .spn)
      { running (.enct .spn) 2 0x45D1 { spn with pbox := tableOf 0x048C159D26AE37BF } with tlen := 3 }
      (fun t => nibData t.st == 0x2E07 && t.trace[3].toWord == 0x42E07 && t.tlen == 4) = true := by
  decide
/-- B5: the accept step of ENCT.TOY on 5 records snapshot 0. -/
theorem test_enct_toy_accept :
    after (.enct .toy) toy (fun t => t.trace[0].toWord == 0x15000 && t.tlen == 1 && t.busy) = true := by
  decide
/-- B5: stage 1 of DEC.TOY on A: B to 6. -/
theorem test_dec_toy_sub :
    after (.dec .toy) (running (.dec .toy) 1 0xB000 toy) (fun t => nibData t.st == 0x6000) = true := by
  decide
/-- B5: stage 2 of DECT.SPN on 29EE: BB37 to 78E3, recorded as snapshot 3. -/
theorem test_dect_spn_mix :
    after (.dect .spn) { running (.dect .spn) 2 0xBB37 spn with tlen := 3 }
      (fun t => nibData t.st == 0x78E3 && t.trace[3].toWord == 0x478E3 && t.tlen == 4) = true := by
  decide

/-! ## One step of the machine -/

/-- P4: a write while BUSY = 1 is dropped. -/
theorem test_step_write_busy :
    afterStep { running (.enc .spn) 1 0x1C23 spn with inputs := [.write 0x05 0x40000] }
      (fun t => t.k2 == spn.k2 && t.sc == 1) = true := by decide
/-- The table word of DEC.SPN runs as the first instruction after reset: SVALID = 0, so ERR = 3. -/
theorem test_step_withFetchWord :
    afterStep (State.reset.withFetchWord 8 0x98)
      (fun t => t.err == 3 && t.done && t.ir == 0x98) = true := by decide
/-- R90: a write of 0x1FF to CAND[0] stores 0xFF. -/
theorem test_step_write_truncates :
    afterStep { spn with inputs := [.write 0x10 0x1FF] } (fun t => t.cand[0] == 0xFF) = true := by decide

/-- R191, R207: after reset BUSY = 0, so a WAIT ends with its first poll. -/
theorem test_step_wait_after_reset :
    afterStep { State.reset with inputs := [.wait, .read 0x09] }
      (fun t => t.inputs == [.read 0x09] && t.rdata == some 0) = true := by decide
/-- R93: a host that reads TLEN = 2 reads two snapshots. -/
theorem test_step_readTrace :
    afterStep { toy with tlen := 2, inputs := [.readTrace, .wait] }
      (fun t => t.inputs == [.read 0x20, .read 0x21, .wait] && t.rdata == some 2) = true := by decide

/-! ## D00's operations as host sequences: the lines of R93, written out -/

theorem test_encrypt_sequence_toy : encryptSequence .toy [5] [[3], [1]] =
    some [.write 0x02 0x15000, .write 0x04 0x13000, .write 0x05 0x11000, .write 0x00 0x80, .wait,
      .read 0x01, .read 0x09] := by decide
theorem test_decryptWithTrace_sequence_toy : decryptWithTraceSequence .toy [7] [[3], [1]] =
    some [.write 0x02 0x17000, .write 0x04 0x13000, .write 0x05 0x11000, .write 0x00 0x91, .wait,
      .read 0x01, .read 0x09, .readTrace] := by decide
/-- A surplus and a missing key fail the call at the host. -/
theorem test_encrypt_sequence_key_count : encryptSequence .toy [5] [[3], [1], [2]] = none ∧
    encryptSequence .spn [2, 6, 0xB, 7] [[3, 0xA, 9, 4]] = none := by decide
theorem test_validatePBox_sequence_toy : validatePBoxSequence .toy [2, 0, 3, 1] =
    some [.write 0x0C 4, .write 0x10 2, .write 0x11 0, .write 0x12 3, .write 0x13 1,
      .write 0x00 0x40, .wait, .read 0x01] := by decide
/-- U12: an entry above 255 never reaches CAND. -/
theorem test_validatePBox_sequence_entry : validatePBoxSequence .toy [2, 0, 256, 1] = none := by decide
theorem test_mixKey_sequence : mixKeySequence .spn .k3 [2, 6, 0xB, 7] [3, 0xA, 9, 4] =
    some [.write 0x02 0x426B7, .write 0x06 0x43A94, .write 0x00 0x5B, .wait, .read 0x01,
      .read 0x09] := by decide
theorem test_toBits_sequence : toBitsSequence .spn [0xA, 3, 0xF, 0] =
    some [.write 0x02 0x4A3F0, .write 0x00 0x18, .wait, .read 0x01, .read 0x0A] := by decide
theorem test_toNibbles_sequence : toNibblesSequence .toy [false, true, false, true] =
    some [.write 0x03 0x045000, .write 0x00 0x20, .wait, .read 0x01, .read 0x09] := by decide

/-! ## Witnesses: concrete states and operands that meet each statement's hypotheses -/

/-- SH and its inverse are a table and its inverse. -/
theorem pair_SH : TablePair (tableOf 0xE4D12FB83A6C5907) (tableOf 0xE3481CAF7D96B205) 16 :=
  ⟨by decide, by decide, by decide⟩

/-- ROT and its inverse. -/
theorem pair_ROT : TablePair (tableOf 0x123456789ABCDEF0) (tableOf 0xF0123456789ABCDE) 16 :=
  ⟨by decide, by decide, by decide⟩

/-- T2 and its inverse. -/
theorem pair_T2 : TablePair (tableOf 0x2031000000000000) (tableOf 0x1302000000000000) 4 :=
  ⟨by decide, by decide, by decide⟩

theorem spn_inv : DatapathInv spn where
  sbox _ := pair_SH
  pbox _ := pair_ROT
  err := by decide
  failed := by decide
  tlen := by decide
  sc := by decide
  trace _ h := absurd h (Nat.not_lt_zero _)
  res := .inl rfl
  rbits := .inl rfl
  running h := absurd h (by decide)

theorem toy_inv : DatapathInv toy where
  sbox _ := pair_SH
  pbox _ := pair_T2
  err := by decide
  failed := by decide
  tlen := by decide
  sc := by decide
  trace _ h := absurd h (Nat.not_lt_zero _)
  res := .inl rfl
  rbits := .inl rfl
  running h := absurd h (by decide)

/-- ENC.SPN in its third stage. -/
def busySpn : State := running (.enc .spn) 2 0x45D1 spn

theorem busySpn_inv : DatapathInv busySpn where
  sbox _ := pair_SH
  pbox _ := pair_ROT
  err := by decide
  failed := by decide
  tlen := by decide
  sc := by decide
  trace _ h := absurd h (Nat.not_lt_zero _)
  res := .inl rfl
  rbits := .inl rfl
  running _ := ⟨.enc .spn, {
    latched := by decide
    checked := by decide
    stage := by decide
    done := rfl
    err := rfl
    snapshots := fun h => absurd h (by decide)
    lanes := fun _ j h => absurd h (by revert j; decide)
    sboxCleared := fun h => absurd h (by decide)
    pboxCleared := fun _ h => by cases h }⟩

/-- The hypotheses shared by the pipeline statements, in both topologies. -/
theorem spn_ready : spn.busy = false ∧ pipelineTablesOk .spn spn ∧ pipelineTagsOk .spn spn :=
  ⟨rfl, ⟨rfl, rfl, rfl⟩, by decide, by decide, by decide, by decide, by decide, by decide⟩

theorem toy_ready : toy.busy = false ∧ pipelineTablesOk .toy toy ∧ pipelineTagsOk .toy toy :=
  ⟨rfl, rfl, by decide, by decide, by decide⟩

/-- SPN P-box missing: an S-box alone is not enough. -/
theorem spn_noPbox : ¬ pipelineTablesOk .spn { spn with pvalid := false } := fun h => by cases h.2.1

/-- A toy P-box is no SPN P-box. -/
theorem spn_toyPbox : ¬ pipelineTablesOk .spn { spn with pt := false } := fun h => by cases h.2.2

theorem toy_noSbox : ¬ pipelineTablesOk .toy { toy with svalid := false } := fun h => by cases h

/-- K5, the last tag checked, is wrong (P3 of part C). -/
theorem spn_badTag : pipelineTablesOk .spn { spn with k5 := block 0x3E5F6 } ∧
    ¬ pipelineTagsOk .spn { spn with k5 := block 0x3E5F6 } :=
  ⟨⟨rfl, rfl, rfl⟩, fun h => absurd h.2.2.2.2.2 (by decide)⟩

theorem toy_badTag : pipelineTablesOk .toy { toy with k2 := block 0x41000 } ∧
    ¬ pipelineTagsOk .toy { toy with k2 := block 0x41000 } :=
  ⟨rfl, fun h => absurd h.2.2 (by decide)⟩

theorem witness_DecodeInvertsEncode : (Instr.mixkey .spn 1).wellFormed = true ∧
    (Instr.mixkey .toy 5).wellFormed = true ∧ Instr.vsbox.wellFormed = true := by decide

theorem witness_EncodeInvertsDecode : decode 0x5D = .ok (.mixkey .spn 5) := by decide

theorem witness_IllegalBytesRaiseIllegalCommand :
    spn.busy = false ∧ decode 0x5E = .error .badKeyIndex := by decide

theorem witness_StepRunsDecodedInstruction :
    (spn.busy = false ∧
      ({ spn with inputs := [.write 0x00 0x189] } : State).inputs = [.write 0x00 0x189] ∧
      decode (BitVec.ofNat 8 0x189) = .ok (.enct .spn)) ∧
    (({ spn with inputs := [.write 0x00 0x100] } : State).inputs = [.write 0x00 0x100] ∧
      decode (BitVec.ofNat 8 0x100) = .error .reservedOperation) ∧
    (busySpn.busy = true ∧ busySpn.inputs = [] ∧ decode busySpn.ir = .ok (.enc .spn)) ∧
    ({ busySpn with inputs := [.controller] } : State).inputs = [.controller] ∧
    (spn.busy = false ∧ spn.inputs = []) ∧
    decodeTableWord 8 0x5B = some (.mixkey .spn 3) := by decide

theorem witness_ResetLeavesStatedValues :
    (∃ s, s = State.reset) ∧ ∃ s u, s = resetEvent u ∧ u.busy = true :=
  ⟨⟨_, rfl⟩, _, busySpn, rfl, rfl⟩

theorem witness_ResetEventAlwaysCompletes :
    ({ busySpn with inputs := [.reset] } : State).inputs = .reset :: [] := rfl

theorem witness_EveryCommandFailsAfterReset :
    (Instr.mixkey .spn 5).wellFormed = true ∧ State.reset.busy = false ∧
    State.reset.svalid = false ∧ State.reset.pvalid = false ∧ State.reset.candlen = 0 ∧
    State.reset.blk.len = 0 ∧ State.reset.bits.len = 0 := by decide

theorem witness_ResetMeetsInvariant :
    ({ busySpn with inputs := [.reset] } : State).inputs = .reset :: [] ∧
    step { busySpn with inputs := [.reset] } = .next (resetEvent { busySpn with inputs := [] }) :=
  ⟨rfl, rfl⟩

theorem witness_StepKeepsInvariant : DatapathInv busySpn ∧ ∃ t, step busySpn = .next t ∧ t.sc = 3 :=
  ⟨busySpn_inv, _, rfl, by decide⟩

theorem witness_NoInternalFault : DatapathInv busySpn ∧ busySpn.busy = true ∧ busySpn.inputs = [] ∧
    (∃ t, step busySpn = .next t) ∧
    (DatapathInv { busySpn with inputs := [.controller, .read 0x01] } ∧
      ∃ t, step { busySpn with inputs := [.controller, .read 0x01] } = .next t) ∧
    (DatapathInv { busySpn with inputs := [.wait, .read 0x09] } ∧
      ∃ t, step { busySpn with inputs := [.wait, .read 0x09] } = .next t) :=
  ⟨busySpn_inv, rfl, rfl, ⟨_, rfl⟩, ⟨datapathInv_inputs busySpn_inv _, _, rfl⟩,
    datapathInv_inputs busySpn_inv _, _, rfl⟩

/-- A WAIT on a running command, and one right after reset. -/
theorem witness_WaitAlwaysEnds :
    (DatapathInv { busySpn with inputs := [.wait, .read 0x09] } ∧
      ({ busySpn with inputs := [.wait, .read 0x09] } : State).inputs = .wait :: [.read 0x09] ∧
      busySpn.busy = true) ∧
    DatapathInv { spn with inputs := [.wait] } ∧
    ({ spn with inputs := [.wait] } : State).inputs = .wait :: [] ∧ spn.busy = false ∧
    spn.done = false :=
  ⟨⟨datapathInv_inputs busySpn_inv _, rfl, rfl⟩, datapathInv_inputs spn_inv _, rfl, rfl, rfl⟩

theorem witness_FailedCommandChangesNothingElse :
    spn.busy = false ∧
    (commandOf .vsbox).check { spn with candlen := 17 } = some .invalidTable ∧
    (commandOf (.tonib .toy)).check spn = some .invalidLength ∧
    (commandOf (.sub .spn)).check { spn with svalid := false } = some .tableNotReady ∧
    (commandOf (.mixkey .spn 0)).check spn = some .illegalCommand := by decide

theorem witness_MissingTableIsReportedFirst :
    (State.reset.busy = false ∧ State.reset.svalid = false ∧
      Instr.sub .spn ∈ [Instr.sub .spn, .subi .spn, .enc .spn, .enct .spn, .dec .spn, .dect .spn]) ∧
    (State.reset.pvalid = false ∧ toy.busy = false ∧ toy.pt ≠ topologyToBit .spn ∧
      Instr.permi .spn ∈ [Instr.perm .spn, .permi .spn]) ∧
    (toy.pvalid = true ∧ toy.pt = false ∧
      Instr.dect .spn ∈ [Instr.enc .spn, .enct .spn, .dec .spn, .dect .spn]) := by decide

/-- One illegal byte of every opcode 1 to 9: the hypotheses of OtherBytesAreIllegal. -/
theorem witness_OtherBytesAreIllegal :
    ((0x11#8).toNat / 16 = 1 ∧ 0x11#8 ∉ [0x10#8, 0x18]) ∧
    ((0x2F#8).toNat / 16 = 2 ∧ 0x2F#8 ∉ [0x20#8, 0x28]) ∧
    ((0x38#8).toNat / 16 = 3 ∧ 0x38#8 ∉ [0x30#8]) ∧
    ((0x4C#8).toNat / 16 = 4 ∧ 0x4C#8 ∉ [0x40#8, 0x48]) ∧
    ((0x5E#8).toNat / 16 = 5 ∧
      0x5E#8 ∉ [0x51#8, 0x52, 0x53, 0x54, 0x55, 0x59, 0x5A, 0x5B, 0x5C, 0x5D]) ∧
    ((0x62#8).toNat / 16 = 6 ∧ 0x62#8 ∉ [0x60#8, 0x61, 0x68, 0x69]) ∧
    ((0x7A#8).toNat / 16 = 7 ∧ 0x7A#8 ∉ [0x70#8, 0x71, 0x78, 0x79]) ∧
    ((0x87#8).toNat / 16 = 8 ∧ 0x87#8 ∉ [0x80#8, 0x81, 0x88, 0x89]) ∧
    ((0x9F#8).toNat / 16 = 9 ∧ 0x9F#8 ∉ [0x90#8, 0x91, 0x98, 0x99]) := by decide

theorem witness_TobitsWritesBitsOfBlk :
    spn.busy = false ∧ spn.blk.len.toNat = arity .spn ∧ toy.blk.len.toNat = arity .toy ∧
    toy.blk.len.toNat ≠ arity .spn := by decide

theorem witness_TonibWritesNibblesOfBits :
    spn.busy = false ∧ spn.bits.len.toNat = 4 * arity .spn ∧ toy.bits.len.toNat = 4 * arity .toy ∧
    spn.bits.len.toNat ≠ 4 * arity .toy := by decide

theorem witness_TobitsThenTonibReturnsBlock :
    toy.busy = false ∧ toy.blk.len.toNat = arity .toy := by decide

theorem witness_VsboxBuildsTableAndInverse :
    spn.busy = false ∧
    (spn.candlen.toNat = 16 ∧ (∀ i : Fin 16, (spn.cand[i]).toNat ≤ 15) ∧
      (∀ i j : Fin 16, spn.cand[i] = spn.cand[j] → i = j)) ∧
    ¬ (toy.candlen.toNat = 16 ∧ (∀ i : Fin 16, (toy.cand[i]).toNat ≤ 15) ∧
      (∀ i j : Fin 16, toy.cand[i] = toy.cand[j] → i = j)) := by decide

theorem witness_VpboxBuildsTableAndInverse :
    toy.busy = false ∧
    (toy.candlen.toNat = 4 * arity .toy ∧
      (∀ i : Fin 16, i.val < 4 * arity .toy → (toy.cand[i]).toNat ≤ 4 * arity .toy - 1) ∧
      (∀ i j : Fin 16, i.val < 4 * arity .toy → j.val < 4 * arity .toy →
        toy.cand[i] = toy.cand[j] → i = j)) ∧
    ¬ (toy.candlen.toNat = 4 * arity .spn ∧
      (∀ i : Fin 16, i.val < 4 * arity .spn → (toy.cand[i]).toNat ≤ 4 * arity .spn - 1) ∧
      (∀ i j : Fin 16, i.val < 4 * arity .spn → j.val < 4 * arity .spn →
        toy.cand[i] = toy.cand[j] → i = j)) := by decide

theorem witness_MixkeyXorsKeyIntoBlk :
    (5#3, toy.k5) ∈ [(1#3, toy.k1), (2#3, toy.k2), (3#3, toy.k3), (4#3, toy.k4), (5#3, toy.k5)] ∧
    toy.busy = false ∧ (toy.blk.len.toNat = arity .toy ∧ toy.k5.len.toNat = arity .toy) ∧
    ¬ (toy.blk.len.toNat = arity .toy ∧ toy.k3.len.toNat = arity .toy) := by decide

theorem witness_SubLooksUpSbox :
    spn.busy = false ∧ spn.svalid = true ∧ spn.blk.len.toNat = arity .spn ∧
    State.reset.svalid = false ∧ spn.blk.len.toNat ≠ arity .toy := by decide

theorem witness_SubiLooksUpSinv :
    toy.busy = false ∧ toy.svalid = true ∧ toy.blk.len.toNat = arity .toy ∧
    State.reset.svalid = false ∧ toy.blk.len.toNat ≠ arity .spn := by decide

theorem witness_PermMovesBitsThroughPbox :
    DatapathInv spn ∧ DatapathInv toy ∧ (spn.busy = false ∧ spn.pvalid = true ∧
    spn.pt = topologyToBit .spn ∧ spn.blk.len.toNat = arity .spn) ∧ toy.pt ≠ topologyToBit .spn ∧
    (toy.pvalid = true ∧ toy.pt = topologyToBit .toy ∧ toy.blk.len.toNat = arity .toy) :=
  ⟨spn_inv, toy_inv, by decide, by decide, by decide⟩

theorem witness_PermiMovesBitsThroughPinv :
    DatapathInv toy ∧ (toy.busy = false ∧ toy.pvalid = true ∧ toy.pt = topologyToBit .toy ∧
    toy.blk.len.toNat = arity .toy) ∧ spn.pt ≠ topologyToBit .toy ∧
    ({ toy with blk := block 0x41234 } : State).blk.len.toNat ≠ arity .toy :=
  ⟨toy_inv, by decide, by decide, by decide⟩

theorem witness_EncWritesCiphertext :
    (spn.busy = false ∧ pipelineTablesOk .spn spn ∧ pipelineTagsOk .spn spn) ∧
    ¬ pipelineTablesOk .spn { spn with pvalid := false } ∧
    (pipelineTablesOk .spn { spn with k5 := block 0x3E5F6 } ∧
      ¬ pipelineTagsOk .spn { spn with k5 := block 0x3E5F6 }) :=
  ⟨spn_ready, spn_noPbox, spn_badTag⟩

theorem witness_DecWritesPlaintext :
    (toy.busy = false ∧ pipelineTablesOk .toy toy ∧ pipelineTagsOk .toy toy) ∧
    ¬ pipelineTablesOk .toy { toy with svalid := false } ∧
    (pipelineTablesOk .toy { toy with k2 := block 0x41000 } ∧
      ¬ pipelineTagsOk .toy { toy with k2 := block 0x41000 }) :=
  ⟨toy_ready, toy_noSbox, toy_badTag⟩

theorem witness_EnctWritesCiphertextAndTrace :
    (toy.busy = false ∧ pipelineTablesOk .toy toy ∧ pipelineTagsOk .toy toy) ∧
    ¬ pipelineTablesOk .spn { spn with pt := false } ∧
    (pipelineTablesOk .toy { toy with k2 := block 0x41000 } ∧
      ¬ pipelineTagsOk .toy { toy with k2 := block 0x41000 }) :=
  ⟨toy_ready, spn_toyPbox, toy_badTag⟩

theorem witness_DectWritesPlaintextAndTrace :
    (spn.busy = false ∧ pipelineTablesOk .spn spn ∧ pipelineTagsOk .spn spn) ∧
    ¬ pipelineTablesOk .toy { toy with svalid := false } ∧
    (pipelineTablesOk .spn { spn with k5 := block 0x3E5F6 } ∧
      ¬ pipelineTagsOk .spn { spn with k5 := block 0x3E5F6 }) :=
  ⟨spn_ready, toy_noSbox, spn_badTag⟩

theorem witness_EncThenDecReturnsBlock :
    DatapathInv spn ∧ spn.busy = false ∧ pipelineTablesOk .spn spn ∧ pipelineTagsOk .spn spn :=
  ⟨spn_inv, spn_ready⟩

theorem witness_TraceIsObservational : toy.busy = false ∧ 4 ≤ stageCount .toy + 1 := by decide

theorem witness_DecryptTraceMirrorsEncryptTrace :
    DatapathInv toy ∧ toy.busy = false ∧ pipelineTablesOk .toy toy ∧ pipelineTagsOk .toy toy ∧
    (3 : Fin 13).val + (0 : Fin 13).val = stageCount .toy :=
  ⟨toy_inv, toy_ready.1, toy_ready.2.1, toy_ready.2.2, by decide⟩

theorem witness_EncryptionIsBijective :
    DatapathInv toy ∧ toy.busy = false ∧ pipelineTablesOk .toy toy ∧ pipelineTagsOk .toy toy ∧
    (block 0x15FFF).len = toy.blk.len ∧
    ∃ u v, execTimes (stageCount .toy + 1) (.enc .toy) toy = .next u ∧
      execTimes (stageCount .toy + 1) (.enc .toy) { toy with blk := block 0x15FFF } = .next v ∧
      u.res = v.res :=
  ⟨toy_inv, toy_ready.1, toy_ready.2.1, toy_ready.2.2, by decide, _, _, rfl, rfl, by decide⟩

theorem witness_AcceptedCommandRunsItsStages :
    spn.busy = false ∧ (commandOf (.enct .spn)).check spn = none ∧
    11 < (commandOf (.enct .spn)).stages.length := by decide

/-- The running command with a dropped write, a turn and a read before the next turn. -/
def busyHost : State :=
  { busySpn with inputs := [.write 0x02 0x4FFFF, .controller, .read 0x01] ++ .controller :: [.wait] }

theorem busyHost_inv : DatapathInv busyHost := datapathInv_inputs busySpn_inv _

theorem witness_HostAccessesDoNotDisturbCommand :
    DatapathInv busyHost ∧ busyHost.busy = true ∧
    busyHost.inputs = [.write 0x02 0x4FFFF, .controller, .read 0x01] ++ .controller :: [.wait] ∧
    (∀ e ∈ [Event.write 0x02 0x4FFFF, .controller, .read 0x01],
      e.isHostAccess = true ∨ e.isController = true) ∧
    ∃ u, Host.Core.run Sys2Proof.core
        ([Event.write 0x02 0x4FFFF, .controller, .read 0x01].countP Event.isController)
        { busyHost with inputs := [] } = .next u ∧ u.busy = true :=
  ⟨busyHost_inv, rfl, rfl, by decide, _, rfl, by decide⟩

/-- Stage BLDS of a VSBOX that replaces SH by ROT. -/
def busyVsbox : State :=
  running .vsbox 0 0 { spn with cand := candOf 0x123456789ABCDEF0, svalid := false }

/-- Stage BLDP of a VPBOX.TOY that replaces ROT by T2. -/
def busyVpbox : State :=
  running (.vpbox .toy) 0 0
    { spn with cand := candOf 0x2031000000000000, candlen := 4, pvalid := false }

theorem witness_TablesChangeOnlyByBuildStages :
    (∃ t, step busyVsbox = .next t ∧ (∀ rest, busyVsbox.inputs ≠ .reset :: rest) ∧
      t.svalid = true ∧ busyVsbox.svalid = false ∧ t.sbox ≠ busyVsbox.sbox) ∧
    (∃ t, step busyVpbox = .next t ∧ (∀ rest, busyVpbox.inputs ≠ .reset :: rest) ∧
      t.pvalid = true ∧ busyVpbox.pvalid = false ∧ t.pt ≠ busyVpbox.pt) :=
  ⟨⟨_, rfl, fun _ h => (by cases h), by decide⟩, ⟨_, rfl, fun _ h => (by cases h), by decide⟩⟩

theorem witness_InputRegistersChangeOnlyByHostWrites :
    ∃ t, step { spn with inputs := [.write 0x08 0x40000] } = .next t ∧
      (∀ rest, ({ spn with inputs := [.write 0x08 0x40000] } : State).inputs ≠ .reset :: rest) ∧
      t.k5 ≠ spn.k5 :=
  ⟨_, rfl, fun _ h => (by cases h), by decide⟩

/-- ENC.SPN before its last stage. -/
def lastSpn : State := running (.enc .spn) 11 0xCC18 spn

/-- TOBITS.SPN before its one stage. -/
def busyTobits : State := running (.tobits .spn) 0 0x26B7 spn

/-- An idle datapath with a failed command behind it and ENCT.SPN as the next input. -/
def nextEnct : State := { spn with done := true, err := 3, inputs := [.write 0x00 0x89] }

theorem witness_ResultsChangeOnlyByTheirCommands :
    (∃ t, step lastSpn = .next t ∧ (∀ rest, lastSpn.inputs ≠ .reset :: rest) ∧
      t.res ≠ lastSpn.res) ∧
    (∃ t, step busyTobits = .next t ∧ (∀ rest, busyTobits.inputs ≠ .reset :: rest) ∧
      t.rbits ≠ busyTobits.rbits) ∧
    (∃ t, step nextEnct = .next t ∧ (∀ rest, nextEnct.inputs ≠ .reset :: rest) ∧
      t.tlen ≠ nextEnct.tlen ∧ t.err ≠ nextEnct.err) :=
  ⟨⟨_, rfl, fun _ h => (by cases h), by decide⟩, ⟨_, rfl, fun _ h => (by cases h), by decide⟩,
    ⟨_, rfl, fun _ h => (by cases h), by decide⟩⟩

theorem witness_EncryptSequenceReadsCiphertext :
    (∃ seq, encryptSequence .spn [2, 6, 0xB, 7] [[3, 10, 9, 4], [13, 6, 3, 15], [10, 1, 11, 2],
        [12, 3, 13, 4], [14, 5, 15, 6]] = some seq ∧
      ({ spn with inputs := seq ++ [.wait] } : State).inputs = seq ++ [.wait]) ∧
    spn.busy = false ∧ pipelineTablesOk .spn spn ∧ ([2, 6, 0xB, 7] : Block).length = arity .spn ∧
    ([[3, 10, 9, 4], [13, 6, 3, 15], [10, 1, 11, 2], [12, 3, 13, 4], [14, 5, 15, 6]] :
      List Block).length = keyCount .spn ∧
    (∀ k ∈ ([[3, 10, 9, 4], [13, 6, 3, 15], [10, 1, 11, 2], [12, 3, 13, 4], [14, 5, 15, 6]] :
      List Block), k.length = arity .spn) :=
  ⟨⟨_, rfl, rfl⟩, rfl, ⟨rfl, rfl, rfl⟩, by decide, by decide, by decide⟩

theorem witness_DecryptSequenceReadsPlaintext :
    (∃ seq, decryptSequence .toy [0xA] [[3], [1]] = some seq ∧
      ({ toy with inputs := seq ++ [.read 0x01] } : State).inputs = seq ++ [.read 0x01]) ∧
    toy.busy = false ∧ pipelineTablesOk .toy toy ∧ ([0xA] : Block).length = arity .toy ∧
    ([[3], [1]] : List Block).length = keyCount .toy ∧
    (∀ k ∈ ([[3], [1]] : List Block), k.length = arity .toy) :=
  ⟨⟨_, rfl, rfl⟩, rfl, rfl, by decide, by decide, by decide⟩

theorem witness_TracedSequencesReturnBlockAndSnapshots :
    (∃ seq, encryptWithTraceSequence .toy [5] [[3], [1]] = some seq ∧
      ({ toy with inputs := seq ++ [.reset] } : State).inputs = seq ++ [.reset]) ∧
    (∃ seq, decryptWithTraceSequence .toy [7] [[3], [1]] = some seq ∧
      ({ toy with inputs := seq ++ [] } : State).inputs = seq ++ []) ∧
    toy.busy = false ∧ pipelineTablesOk .toy toy ∧ ([5] : Block).length = arity .toy ∧
    ([7] : Block).length = arity .toy ∧ ([[3], [1]] : List Block).length = keyCount .toy ∧
    (∀ k ∈ ([[3], [1]] : List Block), k.length = arity .toy) :=
  ⟨⟨_, rfl, rfl⟩, ⟨_, rfl, rfl⟩, rfl, rfl, by decide, by decide, by decide, by decide⟩

/-- A trace of all 13 snapshots, and one of none. -/
theorem witness_TraceReadsFollowTlen :
    (∃ s : State, s.tlen.toNat = 13 ∧ s.inputs = .readTrace :: [.wait]) ∧
    ∃ s : State, s.tlen.toNat = 0 ∧ s.inputs = .readTrace :: [] :=
  ⟨⟨{ spn with tlen := 13, inputs := [.readTrace, .wait] }, rfl, rfl⟩,
    { spn with tlen := 0, inputs := [.readTrace] }, rfl, rfl⟩

theorem witness_WritesWhileBusyAreDropped :
    busySpn.busy = true ∧
    ({ busySpn with inputs := [.write 0x00 0x98] } : State).inputs = [.write 0x00 0x98] ∧
    ({ busySpn with inputs := [.write 0x7F 1] } : State).inputs = [.write 0x7F 1] := by decide

theorem witness_HostReadsHaveNoSideEffect :
    ({ busySpn with inputs := [.read 0x6F] } : State).inputs = [.read 0x6F] ∧
    registerOf 0x6F = some (.pinv 15) ∧ registerOf 0x70 = none ∧
    ∃ u, step { busySpn with inputs := [.read 0x6F], rdata := some 14 } = .next u :=
  ⟨rfl, by decide, by decide, _, rfl⟩

theorem witness_WriteThenReadReturnsTruncatedValue :
    spn.busy = false ∧
    ({ spn with inputs := [.write 0x02 0xF26B7] } : State).inputs = [.write 0x02 0xF26B7] ∧
    registerOf 0x02 = some .blk ∧ registerOf 0x08 = some (.key .k5) ∧
    registerOf 0x03 = some .bits ∧ registerOf 0x0C = some .candlen ∧
    registerOf 0x10 = some (.cand 0) ∧ registerOf 0x1F = some (.cand 15) := by decide

theorem witness_ReadOnlyWritesAreDropped :
    ({ spn with inputs := [.write 0x01 0xFF] } : State).inputs = [.write 0x01 0xFF] ∧
    (0x20 ≤ (0x20#7).toNat ∧ (0x6F#7).toNat ≤ 0x6F) ∧
    (0x0D ≤ (0x0D#7).toNat ∧ (0x0F#7).toNat ≤ 0x0F) ∧ 0x70 ≤ (0x70#7).toNat := by decide

theorem witness_RegisterMapIsAsTabled : registerOf 0x6F = some (.pinv 15) := by decide

theorem witness_BlockAndBitsShareDataField : ([2, 6, 0xB, 7] : Block).length ≤ 4 := by decide

theorem witness_ToBitsExpandsMsbFirst : ([2, 6] : Block)[1]? = some 6 ∧ 3 < 4 := by decide

theorem witness_ToNibblesPacksOrFails :
    ([true, false, true, false] : BitString).length % 4 = 0 ∧
    ([true, false, true] : BitString).length % 4 ≠ 0 := by decide

theorem witness_ConvertersAreMutuallyInverse :
    ([true, false, true, false] : BitString).length % 4 = 0 ∧
    toNibbles [true, false, true, false] = .ok [0xA] := ⟨by decide, by rfl⟩

theorem witness_InverseTableLaws :
    ([2, 0, 3, 1] : List Nibble).length ≤ 16 ∧
    IsPerm (([2, 0, 3, 1] : List Nibble).map fun x => x.toNat) ([2, 0, 3, 1] : List Nibble).length := by
  decide

theorem witness_MixKeyIsInvolution :
    ([5] : Block).length ≠ ([1, 2] : Block).length ∧ ([5] : Block).length = ([3] : Block).length := by
  decide

theorem witness_SubstitutionIsUndoneByInverse :
    IsPerm ((tableOf 0xE4D12FB83A6C5907).toList.map fun x => x.toNat) 16 := by decide

theorem witness_PermutationSendsBitToDestination :
    IsPerm ((tableOf 0x123456789ABCDEF0).toList.map fun x => x.toNat)
      (4 * ([8, 0, 0, 0] : Block).length) ∧ 15 < 4 * ([8, 0, 0, 0] : Block).length := by decide

theorem witness_PermutationIsUndoneByInverse :
    ([6] : Block).length ≤ 4 ∧
    IsPerm (([2, 0, 3, 1] : List Nibble).map fun x => x.toNat) (4 * ([6] : Block).length) := by decide

theorem witness_EncryptDecryptRoundTrip :
    (([5] : Block).length = 1 ∧ ([3] : Block).length = 1) ∧ ([2, 6, 0xB, 7] : Block).length = 4 ∧
    IsPerm ((tableOf 0xE4D12FB83A6C5907).toList.map fun x => x.toNat) 16 ∧
    IsPerm ((tableOf 0x123456789ABCDEF0).toList.map fun x => x.toNat) 16 := by decide

end Sys2Proof.Tests
end

/-! SUPPORT. The steps of the datapath and its invariant: what each operation keeps, that every step
keeps `DatapathInv`, and which step may change which register (10_state.md). -/

namespace Sys2Proof.Machine

/-! ## The decoder and the encoder -/

theorem decodePlain_eq_ok {a : BitVec 3} {i j : Instr} :
    decodePlain a i = .ok j ↔ a = 0 ∧ i = j := by
  unfold decodePlain
  split <;> simp_all

theorem decodeFlag_eq_ok {a : BitVec 3} {i j k : Instr} :
    decodeFlag a i j = .ok k ↔ (a = 0 ∧ i = k) ∨ (a = 1 ∧ j = k) := by
  unfold decodeFlag
  split
  · simp_all
  · split <;> simp_all

/-- The decoder answers only well-formed commands: its one arm for MIXKEY checks the key index
(R82, R83). -/
theorem wellFormed_of_decode {v : Byte} {i : Instr} (h : decode v = .ok i) :
    i.wellFormed = true := by
  cases i with
  | mixkey t k =>
    simp only [decode] at h
    split at h
    case h_5 =>
      split at h
      · cases h
        simpa [Instr.wellFormed]
      · cases h
    case h_3 =>
      split at h <;> simp [decodePlain_eq_ok] at h
    all_goals simp [decodePlain_eq_ok, decodeFlag_eq_ok] at h
  | _ => rfl

/-- The decoder undoes the encoder on every well-formed command (R81, R82). -/
theorem decode_encode {i : Instr} (h : i.wellFormed = true) : decode (encode i) = .ok i := by
  cases i with
  | mixkey t k => revert k; cases t <;> decide
  | vsbox => rfl
  | tobits t | tonib t | vpbox t | sub t | subi t | perm t | permi t | enc t | enct t | dec t
  | dect t => cases t <;> rfl

/-- The byte a command is latched as decodes to it, if any byte does. -/
theorem decode_encode_of_decode {v : Byte} {i : Instr} (h : decode v = .ok i) :
    decode (encode i) = .ok i :=
  decode_encode (wellFormed_of_decode h)

/-! ## The stage lists -/

/-- No stage list is longer than the SPN pipelines' twelve (R148). -/
theorem length_stages_le (i : Instr) : (commandOf i).stages.length ≤ 12 := by
  cases i with
  | mixkey t k =>
    simp only [commandOf, mixkeyCommand, mixkeyStages]
    split <;> simp
  | vsbox => decide
  | tobits t | tonib t | vpbox t | sub t | subi t | perm t | permi t | enc t | enct t | dec t
  | dect t => cases t <;> decide

/-- A command that passes its entry checks has a stage to run: MIXKEY without a key register
fails them. -/
theorem stages_ne_nil_of_check {i : Instr} {s : State} (h : (commandOf i).check s = none) :
    (commandOf i).stages ≠ [] := by
  cases i with
  | mixkey t k =>
    simp only [commandOf, mixkeyCommand, mixkeyCheck, mixkeyStages] at h ⊢
    cases hk : keyIndex k with
    | none => simp [hk] at h
    | some j => simp
  | enc t | enct t | dec t | dect t => cases t <;> exact List.cons_ne_nil _ _
  | _ => exact List.cons_ne_nil _ _

/-- The commands of each stage that is not a pipeline's: BLDS is VSBOX's alone, BLDP VPBOX's, CVTB
TOBITS'. -/
theorem command_of_mem_stages {i : Instr} {g : Stage} (h : g ∈ (commandOf i).stages) :
    (g = .blds → i = .vsbox) ∧ (g = .bldp → ∃ t, i = .vpbox t) ∧
      (g = .cvtb → ∃ t, i = .tobits t) := by
  cases i with
  | mixkey t k =>
    simp only [commandOf, mixkeyCommand, mixkeyStages] at h
    cases hk : keyIndex k with
    | none => simp [hk] at h
    | some j => simp_all
  | enc t | enct t | dec t | dect t =>
    refine ⟨?_, ?_, ?_⟩ <;> rintro rfl <;> exact absurd h (by cases t <;> decide)
  | _ => simp_all [commandOf, tobitsCommand, tonibCommand, vsboxCommand, vpboxCommand, subCommand,
      subiCommand, permCommand, permiCommand]

/-- Only ENCT and DECT record snapshots (R170). -/
theorem command_of_traced {i : Instr} (h : (commandOf i).traced = true) :
    ∃ t, i = .enct t ∨ i = .dect t := by
  cases i with
  | enct t => exact ⟨t, .inl rfl⟩
  | dect t => exact ⟨t, .inr rfl⟩
  | _ => exact Bool.noConfusion h

/-- TOBITS, VSBOX and VPBOX do not write RES (R147). -/
theorem command_of_writesRes {i : Instr} (h : (commandOf i).writesRes = true) :
    i ≠ .vsbox ∧ ∀ t, i ≠ .tobits t ∧ i ≠ .vpbox t := by
  cases i with
  | tobits t | vsbox | vpbox t => exact Bool.noConfusion h
  | _ => simp

/-! ## One controller step -/

/-- Everything a controller step leaves, traced or not: the state after its stage with the trace
`T` and the length `n` its snapshot leaves, then advanced (R146, R170). -/
theorem controllerStep_eq_advance {c : Command} {s t : State} (h : controllerStep c s = .next t) :
    ∃ g T n, c.stages[s.sc.toNat]? = some g ∧
      t = advance c { runStage c.topo g s with trace := T, tlen := n } ∧
      (c.traced = false → T = s.trace ∧ n = s.tlen) ∧
      (c.traced = true → ∃ hl : s.tlen.toNat < 13,
        T = s.trace.set s.tlen.toNat (blockReg c.topo (runStage c.topo g s).st) hl ∧
        n = s.tlen + 1) := by
  obtain ⟨g, hg, ⟨htr, rfl⟩ | ⟨htr, v, hv, rfl⟩⟩ := controllerStep_eq_next h
  · obtain ⟨-, -, -, -, -, -, -, -, -, -, -, -, -, -, -, hT, hn, -⟩ := runStage_frame c.topo g s
    refine ⟨g, s.trace, s.tlen, hg, ?_, fun _ => ⟨rfl, rfl⟩, fun hc => ?_⟩
    · rw [← hT, ← hn]
    · rw [htr] at hc
      exact Bool.noConfusion hc
  · obtain ⟨hl, rfl⟩ := snapshot_eq_next hv
    obtain ⟨-, -, -, -, -, -, -, -, -, -, -, -, -, -, -, hT, hn, -⟩ := runStage_frame c.topo g s
    refine ⟨g, _, _, hg, rfl, fun hc => ?_, fun _ => ⟨hn ▸ hl, ?_⟩⟩
    · rw [htr] at hc
      exact Bool.noConfusion hc
    · simp only [hT, hn, and_self]

/-- A stage leaves the cells of ST at and above `w` (R132 to R134). -/
theorem runStage_st_of_le (t : Topology) (g : Stage) (s : State) (j : Fin 4)
    (h : arity t ≤ j.val) : (runStage t g s).st[j] = s.st[j] := by
  have hlen : ∀ v : Vector Nibble 4, (blockOf (arity t) v).length ≤ j.val := fun v => by
    rw [length_blockOf (arity_le t)]
    exact h
  cases g with
  | cvtb | blds | bldp => simp [runStage]
  | cvtn =>
    refine storeBlock_of_le _ _ j ?_
    simp only [length_packNibbles, List.length_take, Vector.length_toList]
    omega
  | kmix k =>
    refine storeBlock_of_le _ _ j ?_
    rw [length_xorBlocks]
    exact le_trans (min_le_left _ _) (hlen _)
  | subs | subsInv =>
    refine storeBlock_of_le _ _ j ?_
    rw [length_substitute]
    exact hlen _
  | perm | permInv =>
    refine storeBlock_of_le _ _ j ?_
    rw [length_permute]
    exact hlen _

/-- The S-box stores hold a table and its inverse after every stage, if BLDS runs on a checked
candidate (R30, R113). -/
theorem runStage_sbox_pair {t : Topology} {g : Stage} {s : State}
    (h : s.svalid = true → TablePair s.sbox s.sinv 16)
    (hg : g = .blds → s.candidateOk 16 = true) (hv : (runStage t g s).svalid = true) :
    TablePair (runStage t g s).sbox (runStage t g s).sinv 16 := by
  by_cases hb : g = .blds
  · subst hb
    simpa [runStage] using tablePair_of_candidateOk s le_rfl (hg rfl) s.sinv
  · obtain ⟨hS, hI, hsv⟩ := (runStage_writes t g s).1 hb
    rw [hS, hI]
    exact h (hsv ▸ hv)

/-- The P-box that VPBOX of topology `t` builds has the size PT names (R31, R114). -/
@[simp] theorem pboxSize_topologyToBit (t : Topology) :
    pboxSize (topologyToBit t) = 4 * arity t := by
  cases t <;> rfl

/-- The P-box stores hold a table for PT and its inverse after every stage, if BLDP runs on a
checked candidate (R31, R114). -/
theorem runStage_pbox_pair {t : Topology} {g : Stage} {s : State}
    (h : s.pvalid = true → TablePair s.pbox s.pinv (pboxSize s.pt))
    (hg : g = .bldp → s.candidateOk (4 * arity t) = true)
    (hv : (runStage t g s).pvalid = true) :
    TablePair (runStage t g s).pbox (runStage t g s).pinv (pboxSize (runStage t g s).pt) := by
  by_cases hb : g = .bldp
  · subst hb
    have hN : 4 * arity t ≤ 16 := by have := arity_le t; omega
    simpa [runStage] using tablePair_of_candidateOk s hN (hg rfl) s.pinv
  · obtain ⟨hP, hI, hpv, hpt⟩ := (runStage_writes t g s).2.1 hb
    rw [hP, hI, hpt]
    exact h (hpv ▸ hv)

/-- A stage leaves RBITS with the tag 0 of reset or as TOBITS writes it (R86, R103). -/
theorem runStage_rbits_written {t : Topology} {g : Stage} {s : State}
    (h : s.rbits.len = 0 ∨ s.rbits.Written) :
    (runStage t g s).rbits.len = 0 ∨ (runStage t g s).rbits.Written := by
  by_cases hb : g = .cvtb
  · subst hb
    refine .inr (bitReg_written t _ ?_)
    rw [length_toBits, length_blockOf (arity_le t)]
  · rwa [(runStage_writes t g s).2.2 hb]

/-- The end of a controller step leaves RES, or writes it from ST (R147). -/
theorem advance_res_eq (c : Command) (s : State) :
    (advance c s).res = s.res ∨ (advance c s).res = blockReg c.topo s.st := by
  by_cases he : (s.sc + 1).toNat = c.stages.length
  · rw [advance_of_eq he]
    cases hw : c.writesRes with
    | true => exact .inr (by rw [complete_of_writesRes _ hw])
    | false => exact .inl (by rw [complete_of_not_writesRes _ hw])
  · rw [advance_of_ne he]
    exact .inl rfl

/-- A controller step that leaves the command running was not its last, and leaves DONE (R146). -/
theorem advance_of_busy {c : Command} {s : State} (h : (advance c s).busy = true) :
    (s.sc + 1).toNat ≠ c.stages.length ∧ (advance c s).done = s.done := by
  by_cases he : (s.sc + 1).toNat = c.stages.length
  · rw [advance_of_eq he, complete_busy] at h
    exact Bool.noConfusion h
  · exact ⟨he, by rw [advance_of_ne he]⟩

/-- Writing the next snapshot keeps every snapshot below TLEN as the controller writes it (R41). -/
theorem written_trace_set {T : Vector BlockReg 13} {n : Nat} {r : BlockReg} (hn : n < 13)
    (h : ∀ j : Fin 13, j.val < n → (T[j]).Written) (hr : r.Written) (j : Fin 13)
    (hj : j.val < n + 1) : ((T.set n r hn)[j]).Written := by
  simp only [Fin.getElem_fin, Vector.getElem_set]
  split
  · exact hr
  · exact h j (by omega)

/-- A four-bit counter, such as SC or TLEN, does not wrap below 15. -/
theorem toNat_add_one {x : BitVec 4} (h : x.toNat < 15) : (x + 1).toNat = x.toNat + 1 := by
  rw [BitVec.toNat_add]
  exact Nat.mod_eq_of_lt (by simp; omega)

/-! ## The invariant: the steps of an idle datapath -/

/-- A state with the datapath of `s` is `s` but for the model's own fields. -/
theorem eq_of_datapath_eq {s t : State} (h : t.datapath = s.datapath) :
    t = { s with inputs := t.inputs, rdata := t.rdata, freeCount := t.freeCount } := by
  cases s
  cases t
  simpa [State.datapath] using h

/-- The invariant speaks of the datapath alone: none of the model's own fields is part of it. -/
theorem datapathInv_of_datapath_eq {s t : State} (h : DatapathInv s)
    (e : t.datapath = s.datapath) : DatapathInv t := by
  rw [eq_of_datapath_eq e]
  refine ⟨h.sbox, h.pbox, h.err, h.failed, h.tlen, h.sc, h.trace, h.res, h.rbits, fun hb => ?_⟩
  obtain ⟨i, r⟩ := h.running hb
  refine ⟨i, r.latched, ?_, r.stage, r.done, r.err, r.snapshots, r.lanes, r.sboxCleared,
    r.pboxCleared⟩
  rw [← r.checked]
  exact check_congr i rfl rfl rfl rfl rfl rfl rfl rfl rfl rfl rfl rfl

/-- The accept step's first lines keep the invariant (R145). -/
theorem datapathInv_beginAccept {s : State} (v : Byte) (hb : s.busy = false)
    (h : DatapathInv s) : DatapathInv (beginAccept v s) where
  sbox := h.sbox
  pbox := h.pbox
  err := by simp
  failed he := absurd (beginAccept_err v s) he
  tlen := h.tlen
  sc := h.sc
  trace := h.trace
  res := h.res
  rbits := h.rbits
  running hr := absurd (hb.symm.trans hr) Bool.false_ne_true

/-- Clearing a valid bit before the checks keeps the invariant (R30, R31). -/
theorem datapathInv_clear {s : State} (i : Instr) (hb : s.busy = false)
    (h : DatapathInv s) : DatapathInv ((commandOf i).clear s) := by
  rcases clear_eq i with hc | hc | hc <;> rw [hc]
  · exact h
  · exact ⟨fun hv => Bool.noConfusion hv, h.pbox, h.err, h.failed, h.tlen, h.sc, h.trace, h.res,
      h.rbits, fun hr => absurd (hb.symm.trans hr) Bool.false_ne_true⟩
  · exact ⟨h.sbox, fun hv => Bool.noConfusion hv, h.err, h.failed, h.tlen, h.sc, h.trace, h.res,
      h.rbits, fun hr => absurd (hb.symm.trans hr) Bool.false_ne_true⟩

/-- An error's code is 1 to 4 and comes with DONE (R181, R182). -/
theorem datapathInv_raise {s : State} (e : ErrorCode) (hb : s.busy = false)
    (h : DatapathInv s) : DatapathInv (raise e s) where
  sbox := h.sbox
  pbox := h.pbox
  err := by cases e <;> simp [ErrorCode.code]
  failed _ := rfl
  tlen := h.tlen
  sc := h.sc
  trace := h.trace
  res := h.res
  rbits := h.rbits
  running hr := absurd (hb.symm.trans hr) Bool.false_ne_true

/-- The working block after the load of a command that loads it: zero at and above `w` (R145). -/
theorem begin_st_of_le {c : Command} (s : State) (hl : c.load ≠ .keep) (j : Fin 4)
    (hj : arity c.topo ≤ j.val) : (begin c s).st[j] = 0 := by
  have hst : (begin c s).st = (loadWork c.topo c.load (setBusy s)).st := by
    unfold begin
    split <;> rfl
  rw [hst]
  cases hc : c.load with
  | block =>
    refine fitBlock_of_le _ j ?_
    rwa [length_blockOf (arity_le _)]
  | zero => simp [loadWork]
  | keep => exact absurd hc hl

/-- A traced command begins with one snapshot, of the loaded block (R145, R170). -/
theorem begin_traced {c : Command} (s : State) (h : c.traced = true) :
    (begin c s).tlen = 1 ∧
      (begin c s).trace = s.trace.set 0 (blockReg c.topo (begin c s).st) := by
  simp only [begin, h, if_true]
  cases c.load <;> exact ⟨rfl, rfl⟩

/-- What `begin` leaves is a running command, if IR holds it and its checks hold (R145). -/
theorem running_begin {i : Instr} {s : State} (hir : decode s.ir = .ok i)
    (hc : (commandOf i).check s = none) (hd : s.done = false) (he : s.err = 0)
    (hs : i = .vsbox → s.svalid = false) (hp : ∀ t, i = .vpbox t → s.pvalid = false) :
    Running i (begin (commandOf i) s) where
  latched := by simpa using hir
  checked := by
    rw [← hc]
    apply check_congr <;> simp
  stage := by
    simpa using List.length_pos_iff.mpr (stages_ne_nil_of_check hc)
  done := by simpa using hd
  err := by simpa using he
  snapshots ht := by simp [(begin_traced s ht).1]
  lanes := begin_st_of_le s
  sboxCleared := by simpa using hs
  pboxCleared := by simpa using hp

/-- The part of the accept step after the checks keeps the invariant and starts the command. -/
theorem datapathInv_begin {i : Instr} {s : State} (h : DatapathInv s)
    (hrun : Running i (begin (commandOf i) s)) : DatapathInv (begin (commandOf i) s) where
  sbox := by simpa using h.sbox
  pbox := by simpa using h.pbox
  err := by rw [hrun.err]; decide
  failed he := absurd hrun.err he
  tlen := by
    cases ht : (commandOf i).traced with
    | true => simp [(begin_traced s ht).1]
    | false => simpa [(begin_untraced ht s).2] using h.tlen
  sc := by simp
  trace j hj := by
    cases ht : (commandOf i).traced with
    | true =>
      obtain ⟨hn, hT⟩ := begin_traced s ht
      rw [hn] at hj
      simp only [hT]
      exact written_trace_set (n := 0) (by omega) (fun k hk => absurd hk (by omega))
        (blockReg_written _ _) j hj
    | false =>
      obtain ⟨hT, hn⟩ := begin_untraced ht s
      rw [hn] at hj
      simp only [hT]
      exact h.trace j hj
  res := by simpa using h.res
  rbits := by simpa using h.rbits
  running _ := ⟨i, hrun⟩

/-- VSBOX and VPBOX have cleared their valid bit when the checks begin (R30, R31). -/
theorem clear_flags (i : Instr) (s : State) :
    (i = .vsbox → ((commandOf i).clear s).svalid = false) ∧
      (∀ t, i = .vpbox t → ((commandOf i).clear s).pvalid = false) := by
  constructor
  · rintro rfl
    rfl
  · rintro t rfl
    rfl

/-- What clearing a valid bit leaves. -/
theorem clear_frame (i : Instr) (s : State) :
    ((commandOf i).clear s).ir = s.ir ∧ ((commandOf i).clear s).done = s.done ∧
      ((commandOf i).clear s).err = s.err ∧ ((commandOf i).clear s).busy = s.busy := by
  rcases clear_eq i with hc | hc | hc <;> rw [hc] <;> exact ⟨rfl, rfl, rfl, rfl⟩

/-- The accept step of a command some byte decodes to keeps the invariant, whether its checks pass
or not. -/
theorem datapathInv_accept {i : Instr} {s : State} (hb : s.busy = false) (h : DatapathInv s)
    (hd : decode (encode i) = .ok i) : DatapathInv (accept (commandOf i) s) := by
  obtain ⟨hir, hdone, herr, hbusy⟩ := clear_frame i (beginAccept (encode i) s)
  have hw : DatapathInv ((commandOf i).clear (beginAccept (encode i) s)) :=
    datapathInv_clear i hb (datapathInv_beginAccept _ hb h)
  cases hc : (commandOf i).check s with
  | some e =>
    rw [accept_of_check_some hc]
    exact datapathInv_raise e (hbusy.trans hb) hw
  | none =>
    rw [accept_of_check_none hc]
    refine datapathInv_begin hw (running_begin ?_ ?_ hdone herr ?_ ?_)
    · rw [hir]
      exact hd
    · rw [check_beginAccept, hc]
    · exact (clear_flags i _).1
    · exact (clear_flags i _).2

/-- The accept step of an illegal byte keeps the invariant. -/
theorem datapathInv_acceptIllegal {s : State} (v : Byte) (hb : s.busy = false)
    (h : DatapathInv s) : DatapathInv (acceptIllegal v s) :=
  datapathInv_raise _ hb (datapathInv_beginAccept v hb h)

/-- What a register write leaves: everything but the host-written registers (R70). -/
theorem writeRegister_frame (r : Reg) (v : Nat) (s : State) :
    ∃ b k1 k2 k3 k4 k5 d n c, writeRegister r v s =
      { s with blk := b, k1 := k1, k2 := k2, k3 := k3, k4 := k4, k5 := k5, bits := d,
               candlen := n, cand := c } := by
  cases r with
  | key k => cases k <;> exact ⟨_, _, _, _, _, _, _, _, _, rfl⟩
  | _ => exact ⟨_, _, _, _, _, _, _, _, _, rfl⟩

/-- A host write that is no accept keeps the invariant: while idle it changes only registers the
invariant does not read, and while BUSY = 1 it is dropped (R70, R204). -/
theorem datapathInv_hostWrite {s : State} (r : BitVec 7) (v : Nat) (h : DatapathInv s) :
    DatapathInv (hostWrite r v s) := by
  unfold hostWrite
  cases hb : s.busy with
  | true => exact h
  | false =>
    simp only [Bool.false_eq_true, if_false]
    cases registerOf r with
    | none => exact h
    | some reg =>
      obtain ⟨b, k1, k2, k3, k4, k5, d, n, c, hw⟩ := writeRegister_frame reg v s
      simp only [hw]
      exact ⟨h.sbox, h.pbox, h.err, h.failed, h.tlen, h.sc, h.trace, h.res, h.rbits,
        fun hr => absurd (hb.symm.trans hr) Bool.false_ne_true⟩

/-! ## The invariant: a reset event -/

/-- A state whose flags, codes, counters and result tags are 0 meets the invariant, whatever its
data cells hold (R45, R201). -/
theorem datapathInv_of_zero {s : State} (hs : s.svalid = false) (hp : s.pvalid = false)
    (he : s.err = 0) (hn : s.tlen = 0) (hsc : s.sc = 0) (hr : s.res.len = 0)
    (hrb : s.rbits.len = 0) (hb : s.busy = false) : DatapathInv s where
  sbox hv := absurd (hs.symm.trans hv) Bool.false_ne_true
  pbox hv := absurd (hp.symm.trans hv) Bool.false_ne_true
  err := by simp [he]
  failed h := absurd he h
  tlen := by simp [hn]
  sc := by simp [hsc]
  trace j hj := by simp [hn] at hj
  res := .inl hr
  rbits := .inl hrb
  running h := absurd (hb.symm.trans h) Bool.false_ne_true

theorem datapathInv_reset : DatapathInv State.reset :=
  datapathInv_of_zero rfl rfl rfl rfl rfl rfl rfl rfl

theorem datapathInv_resetEvent (s : State) : DatapathInv (resetEvent s) :=
  datapathInv_of_zero rfl rfl rfl rfl rfl rfl rfl rfl

/-! ## The invariant: the controller's turn -/

/-- A running VSBOX or VPBOX has a checked candidate for the stage it runs (R73, R113, R114). -/
theorem candidateOk_of_build_stage {i : Instr} {s : State} {g : Stage} (hr : Running i s)
    (hg : g ∈ (commandOf i).stages) :
    (g = .blds → s.candidateOk 16 = true) ∧
      (g = .bldp → s.candidateOk (4 * arity (commandOf i).topo) = true) := by
  obtain ⟨hS, hP, -⟩ := command_of_mem_stages hg
  constructor
  · intro hb
    obtain rfl := hS hb
    exact (require_eq_none _ _).mp hr.checked
  · intro hb
    obtain ⟨t, rfl⟩ := hP hb
    exact (require_eq_none _ _).mp hr.checked

/-- A command that is still running after a stage is running as the invariant says: a build stage
would have been its last, so no table and no check has changed (R73, R146). -/
theorem running_next_stage {i : Instr} {s : State} {g : Stage} {T : Vector BlockReg 13}
    {n : BitVec 4} (hr : Running i s) (hg : g ∈ (commandOf i).stages)
    (hsc : (s.sc + 1).toNat = s.sc.toNat + 1)
    (hn : (commandOf i).traced = true → n.toNat = s.sc.toNat + 2)
    (hb : (advance (commandOf i)
      { runStage (commandOf i).topo g s with trace := T, tlen := n }).busy = true) :
    Running i (advance (commandOf i)
      { runStage (commandOf i).topo g s with trace := T, tlen := n }) := by
  obtain ⟨hblk, hbits, hk1, hk2, hk3, hk4, hk5, hlen, hcand, hir, hscw, -, hdone, herr, -⟩ :=
    runStage_frame (commandOf i).topo g s
  obtain ⟨hne, hdone'⟩ := advance_of_busy hb
  simp only [hscw, hsc] at hne
  have hlt : s.sc.toNat + 1 < (commandOf i).stages.length := by
    have := hr.stage
    omega
  have hnS : i ≠ .vsbox := by
    rintro rfl
    exact absurd hlt (by simp [commandOf, vsboxCommand])
  have hnP : ∀ t, i ≠ .vpbox t := by
    rintro t rfl
    exact absurd hlt (by simp [commandOf, vpboxCommand])
  obtain ⟨hS, hP, -⟩ := command_of_mem_stages hg
  obtain ⟨-, -, -, -, hsv, hpv, hpt⟩ := runStage_tables (commandOf i).topo g s
    (fun h => hnS (hS h)) (fun h => (hP h).elim hnP)
  exact {
    latched := by simpa [hir] using hr.latched
    checked := by
      rw [← hr.checked]
      apply check_congr <;> simp [*]
    stage := by simpa only [advance_sc, hscw, hsc] using hlt
    done := by rw [hdone', hdone, hr.done]
    err := by simp [herr, hr.err]
    snapshots := fun ht => by simp only [advance_tlen, advance_sc, hscw, hsc, hn ht]
    lanes := fun hl j hj => by
      rw [advance_st, runStage_st_of_le _ g s j hj]
      exact hr.lanes hl j hj
    sboxCleared := fun h => absurd h hnS
    pboxCleared := fun t h => absurd h (hnP t) }

/-- A controller step keeps the invariant. -/
theorem datapathInv_controllerStep {i : Instr} {s t : State} (h : DatapathInv s)
    (hr : Running i s) (hstep : controllerStep (commandOf i) s = .next t) : DatapathInv t := by
  obtain ⟨g, T, n, hg, rfl, hun, htr⟩ := controllerStep_eq_advance hstep
  obtain ⟨-, -, -, -, -, -, -, -, -, -, hscw, -, -, herr, hres, -⟩ :=
    runStage_frame (commandOf i).topo g s
  have hmem : g ∈ (commandOf i).stages := List.mem_of_getElem? hg
  obtain ⟨hcS, hcP⟩ := candidateOk_of_build_stage hr hmem
  have hlen := length_stages_le i
  have hstage := hr.stage
  have hsc : (s.sc + 1).toNat = s.sc.toNat + 1 := toNat_add_one (by omega)
  have hn : (commandOf i).traced = true → n.toNat = s.sc.toNat + 2 := fun ht => by
    obtain ⟨hl, -, rfl⟩ := htr ht
    rw [toNat_add_one (by omega), hr.snapshots ht]
  exact {
    sbox := by simpa using runStage_sbox_pair h.sbox hcS
    pbox := by simpa using runStage_pbox_pair h.pbox hcP
    err := by simp [herr, hr.err]
    failed := fun he => absurd (by simp [herr, hr.err]) he
    tlen := by
      cases ht : (commandOf i).traced with
      | true => simpa [hn ht] using by omega
      | false => simpa [(hun ht).2] using h.tlen
    sc := by
      simp only [advance_sc, hscw, hsc]
      omega
    trace := by
      simp only [advance_trace, advance_tlen]
      cases ht : (commandOf i).traced with
      | true =>
        obtain ⟨hl, rfl, rfl⟩ := htr ht
        rw [toNat_add_one (by omega)]
        exact written_trace_set hl h.trace (blockReg_written _ _)
      | false =>
        obtain ⟨rfl, rfl⟩ := hun ht
        exact h.trace
    res := by
      rcases advance_res_eq (commandOf i)
        { runStage (commandOf i).topo g s with trace := T, tlen := n } with e | e
      · rw [e, hres]
        exact h.res
      · rw [e]
        exact .inr (blockReg_written _ _)
    rbits := by simpa using runStage_rbits_written h.rbits
    running := fun hb => ⟨i, running_next_stage hr hmem hsc hn hb⟩ }

/-- Settles O10: each kind of step keeps the invariant. -/
theorem stepKeepsInvariant : Obligations.StepKeepsInvariant := by
  intro s t h hstep
  obtain ⟨u, hu, hcase⟩ := step_eq_next hstep
  have hinv : DatapathInv u := by
    rcases hu with rfl | ⟨rest, rfl⟩
    · exact h
    · exact datapathInv_inputs h rest
  rcases hcase with ⟨hb, i, hi, he⟩ | ⟨hb, v, i, hv, he⟩ | ⟨hb, v, -, -, rfl⟩ | ⟨r, v, rfl⟩ |
    ⟨r, rfl⟩ | rfl | rfl
  · obtain ⟨j, hr⟩ := hinv.running hb
    obtain rfl : i = j := by simpa [hi] using hr.latched
    rw [exec_busy i hb] at he
    exact datapathInv_controllerStep hinv hr he
  · rw [exec_idle i hb] at he
    injection he with he
    exact he ▸ datapathInv_accept hb hinv (decode_encode_of_decode hv)
  · exact datapathInv_acceptIllegal v hb hinv
  · exact datapathInv_hostWrite r v hinv
  · exact datapathInv_of_datapath_eq hinv (hostRead_datapath r u)
  · exact datapathInv_resetEvent u
  · exact hinv

/-! ## Entry checks with the tags and valid bits at 0 -/

/-- The error every command meets at entry while the tags, CANDLEN and the valid bits are 0: the
first of its checks fails (R45, R183). -/
def errorAfterReset : Instr → ErrorCode
  | .tobits _ | .tonib _ | .mixkey _ _ => .invalidLength
  | .vsbox | .vpbox _ => .invalidTable
  | .sub _ | .subi _ | .perm _ | .permi _ | .enc _ | .enct _ | .dec _ | .dect _ => .tableNotReady

/-- A tag of 0 is no arity (R20). -/
theorem hasArity_of_len_zero {r : BlockReg} (h : r.len = 0) (t : Topology) :
    r.hasArity t = false := by
  cases t <;> simp [BlockReg.hasArity, h]

/-- A tag of 0 is no bit length (R21). -/
theorem hasLength_of_len_zero {r : BitReg} (h : r.len = 0) (t : Topology) :
    r.hasLength t = false := by
  cases t <;> simp [BitReg.hasLength, h]

/-- An empty candidate is no table (R36, R110). -/
theorem candidateOk_of_candlen_zero {s : State} (h : s.candlen = 0) {N : Nat} (hN : 0 < N) :
    s.candidateOk N = false := by
  have hne : ¬ 0 = N := by omega
  simp [State.candidateOk, h, hne]

@[simp] theorem require_false (e : ErrorCode) : require false e = some e := rfl

/-- A well-formed MIXKEY names a key register (R84). -/
theorem keyIndex_of_wellFormed {t : Topology} {k : BitVec 3}
    (h : (Instr.mixkey t k).wellFormed = true) : ∃ j, keyIndex k = some j := by
  have key : ∀ k : BitVec 3, (Instr.mixkey .toy k).wellFormed = true → (keyIndex k).isSome := by
    decide
  exact Option.isSome_iff_exists.mp (key k h)

theorem check_eq_errorAfterReset {i : Instr} {s : State} (hw : i.wellFormed = true)
    (hs : s.svalid = false) (hp : s.pvalid = false) (hc : s.candlen = 0) (hb : s.blk.len = 0)
    (hbits : s.bits.len = 0) : (commandOf i).check s = some (errorAfterReset i) := by
  have hS : s.sboxReady = false := hs
  have hP : ∀ t, s.pboxReady t = false := fun t => by simp [State.pboxReady, hp]
  cases i with
  | mixkey t k =>
    obtain ⟨j, hj⟩ := keyIndex_of_wellFormed hw
    simp [commandOf, mixkeyCommand, mixkeyCheck, hj, hasArity_of_len_zero hb, errorAfterReset]
  | tobits t => simp [commandOf, tobitsCommand, hasArity_of_len_zero hb, errorAfterReset]
  | tonib t => simp [commandOf, tonibCommand, hasLength_of_len_zero hbits, errorAfterReset]
  | vsbox => simp [commandOf, vsboxCommand, candidateOk_of_candlen_zero hc, errorAfterReset]
  | vpbox t =>
    have hN : 0 < 4 * arity t := by have := arity_pos t; omega
    simp [commandOf, vpboxCommand, candidateOk_of_candlen_zero hc hN, errorAfterReset]
  | sub t | subi t =>
    simp [commandOf, subCommand, subiCommand, substitutionCheck, hS, errorAfterReset]
  | perm t | permi t =>
    simp [commandOf, permCommand, permiCommand, permutationCheck, hP, errorAfterReset]
  | enc t | enct t | dec t | dect t =>
    cases t <;>
      simp [commandOf, encCommand, enctCommand, decCommand, dectCommand, pipelineCheck, hS,
        errorAfterReset]

/-- Clearing a valid bit that is 0 changes nothing. -/
theorem clear_of_invalid (i : Instr) {s : State} (hs : s.svalid = false) (hp : s.pvalid = false) :
    (commandOf i).clear s = s := by
  rcases clear_eq i with hc | hc | hc <;> rw [hc]
  · rfl
  · cases s
    cases hs
    rfl
  · cases s
    cases hp
    rfl

/-- A failing accept step with both valid bits 0 changes IR, DONE and ERR alone (R182). -/
theorem exec_of_check_some {i : Instr} {s : State} {e : ErrorCode} (hb : s.busy = false)
    (hs : s.svalid = false) (hp : s.pvalid = false) (hc : (commandOf i).check s = some e) :
    exec i s = .next (failedWith i e.code s) := by
  rw [exec_idle i hb, accept_of_check_some hc, clear_of_invalid i (by simpa) (by simpa)]
  rfl

/-- Settles O8: every command meets the error of its first entry check. -/
theorem everyCommandFailsAfterReset : Obligations.EveryCommandFailsAfterReset := by
  intro s i hw hb hs hp hc hblk hbits
  rw [exec_of_check_some hb hs hp (check_eq_errorAfterReset hw hs hp hc hblk hbits)]
  cases i <;> rfl

/-! ## What the steps of an idle datapath leave -/

/-- What every accept step leaves: the operand registers, RES, RBITS and the tables; it only clears
a valid bit, and latches IR (R30, R31, R145). -/
theorem accept_frame (i : Instr) (s : State) :
    (accept (commandOf i) s).blk = s.blk ∧ (accept (commandOf i) s).k1 = s.k1 ∧
    (accept (commandOf i) s).k2 = s.k2 ∧ (accept (commandOf i) s).k3 = s.k3 ∧
    (accept (commandOf i) s).k4 = s.k4 ∧ (accept (commandOf i) s).k5 = s.k5 ∧
    (accept (commandOf i) s).bits = s.bits ∧ (accept (commandOf i) s).candlen = s.candlen ∧
    (accept (commandOf i) s).cand = s.cand ∧ (accept (commandOf i) s).res = s.res ∧
    (accept (commandOf i) s).rbits = s.rbits ∧ (accept (commandOf i) s).sbox = s.sbox ∧
    (accept (commandOf i) s).sinv = s.sinv ∧ (accept (commandOf i) s).pbox = s.pbox ∧
    (accept (commandOf i) s).pinv = s.pinv ∧ (accept (commandOf i) s).pt = s.pt ∧
    ((accept (commandOf i) s).svalid = true → s.svalid = true) ∧
    ((accept (commandOf i) s).pvalid = true → s.pvalid = true) ∧
    (accept (commandOf i) s).ir = encode i := by
  cases hc : (commandOf i).check s with
  | some e =>
    rw [accept_of_check_some hc]
    rcases clear_eq i with h | h | h <;> simp [h]
  | none =>
    rw [accept_of_check_none hc]
    rcases clear_eq i with h | h | h <;> simp [h]

/-- The accept step of an untraced command leaves TRACE and TLEN (R145, R170). -/
theorem accept_untraced {i : Instr} (s : State) (h : (commandOf i).traced = false) :
    (accept (commandOf i) s).trace = s.trace ∧ (accept (commandOf i) s).tlen = s.tlen := by
  cases hc : (commandOf i).check s with
  | some e =>
    rw [accept_of_check_some hc]
    rcases clear_eq i with h | h | h <;> simp [h]
  | none =>
    rw [accept_of_check_none hc, (begin_untraced h _).1, (begin_untraced h _).2]
    rcases clear_eq i with h | h | h <;> simp [h]

/-! ## Who may change the tables -/

/-- From `s` to `t` the S-box stores stay and SVALID is not set (R30, R39). -/
structure SboxKept (s t : State) : Prop where
  sbox : t.sbox = s.sbox
  sinv : t.sinv = s.sinv
  svalid : t.svalid = true → s.svalid = true

/-- From `s` to `t` the P-box stores and PT stay and PVALID is not set (R31, R40). -/
structure PboxKept (s t : State) : Prop where
  pbox : t.pbox = s.pbox
  pinv : t.pinv = s.pinv
  pt : t.pt = s.pt
  pvalid : t.pvalid = true → s.pvalid = true

theorem SboxKept.not_changed {s t : State} (h : SboxKept s t) :
    ¬ (t.sbox ≠ s.sbox ∨ t.sinv ≠ s.sinv ∨ (t.svalid = true ∧ s.svalid = false)) := by
  obtain ⟨h1, h2, h3⟩ := h
  rintro (hc | hc | ⟨ht, hs⟩)
  · exact hc h1
  · exact hc h2
  · exact Bool.false_ne_true (hs.symm.trans (h3 ht))

theorem PboxKept.not_changed {s t : State} (h : PboxKept s t) :
    ¬ (t.pbox ≠ s.pbox ∨ t.pinv ≠ s.pinv ∨ t.pt ≠ s.pt ∨
      (t.pvalid = true ∧ s.pvalid = false)) := by
  obtain ⟨h1, h2, h3, h4⟩ := h
  rintro (hc | hc | hc | ⟨ht, hs⟩)
  · exact hc h1
  · exact hc h2
  · exact hc h3
  · exact Bool.false_ne_true (hs.symm.trans (h4 ht))

theorem tablesKept_accept (i : Instr) (s : State) :
    SboxKept s (accept (commandOf i) s) ∧ PboxKept s (accept (commandOf i) s) := by
  obtain ⟨-, -, -, -, -, -, -, -, -, -, -, hS, hSI, hP, hPI, hpt, hsv, hpv, -⟩ := accept_frame i s
  exact ⟨⟨hS, hSI, hsv⟩, ⟨hP, hPI, hpt, hpv⟩⟩

theorem tablesKept_writeRegister (r : Reg) (v : Nat) (s : State) :
    SboxKept s (writeRegister r v s) ∧ PboxKept s (writeRegister r v s) := by
  obtain ⟨b, k1, k2, k3, k4, k5, d, n, c, hw⟩ := writeRegister_frame r v s
  rw [hw]
  exact ⟨⟨rfl, rfl, id⟩, ⟨rfl, rfl, rfl, id⟩⟩

theorem tablesKept_hostRead (r : BitVec 7) (s : State) :
    SboxKept s (hostRead r s) ∧ PboxKept s (hostRead r s) := by
  rw [eq_of_datapath_eq (hostRead_datapath r s)]
  exact ⟨⟨rfl, rfl, id⟩, ⟨rfl, rfl, rfl, id⟩⟩

/-- A controller step keeps the S-box unless it runs VSBOX (R39, R113). -/
theorem sboxKept_controllerStep {i : Instr} {s t : State}
    (h : controllerStep (commandOf i) s = .next t) : SboxKept s t ∨ i = .vsbox := by
  obtain ⟨g, T, n, hg, rfl, -, -⟩ := controllerStep_eq_advance h
  by_cases hb : g = .blds
  · exact .inr ((command_of_mem_stages (List.mem_of_getElem? hg)).1 hb)
  · obtain ⟨hS, hI, hv⟩ := (runStage_writes (commandOf i).topo g s).1 hb
    exact .inl ⟨by simp [hS], by simp [hI], by simp [hv]⟩

/-- A controller step keeps the P-box unless it runs VPBOX (R40, R114). -/
theorem pboxKept_controllerStep {i : Instr} {s t : State}
    (h : controllerStep (commandOf i) s = .next t) : PboxKept s t ∨ ∃ w, i = .vpbox w := by
  obtain ⟨g, T, n, hg, rfl, -, -⟩ := controllerStep_eq_advance h
  by_cases hb : g = .bldp
  · exact .inr ((command_of_mem_stages (List.mem_of_getElem? hg)).2.1 hb)
  · obtain ⟨hP, hI, hv, hpt⟩ := (runStage_writes (commandOf i).topo g s).2.1 hb
    exact .inl ⟨by simp [hP], by simp [hI], by simp [hpt], by simp [hv]⟩

/-- Outside a reset a step keeps the tables, or is a step of the command in IR. -/
theorem tablesKept_step {s t : State} (h : step s = .next t)
    (hr : ∀ rest, s.inputs ≠ .reset :: rest) :
    (SboxKept s t ∧ PboxKept s t) ∨
      s.busy = true ∧ ∃ i l, decode s.ir = .ok i ∧
        controllerStep (commandOf i) { s with inputs := l } = .next t := by
  obtain ⟨u, ⟨l, hu⟩, hcase⟩ := step_without_reset h hr
  have taken : SboxKept u t ∧ PboxKept u t → SboxKept s t ∧ PboxKept s t := by
    subst hu
    exact fun ⟨hS, hP⟩ => ⟨⟨hS.sbox, hS.sinv, hS.svalid⟩, ⟨hP.pbox, hP.pinv, hP.pt, hP.pvalid⟩⟩
  rcases hcase with ⟨hb, i, hi, hc⟩ | ⟨-, -, ⟨v, i, -, rfl⟩ | ⟨v, rfl⟩⟩ |
    ⟨-, -, v, -, reg, -, -, -, rfl⟩ | ⟨r, rfl⟩ | rfl
  · subst hu
    exact .inr ⟨hb, i, l, hi, hc⟩
  · exact .inl (taken (tablesKept_accept i u))
  · exact .inl (taken ⟨⟨rfl, rfl, id⟩, ⟨rfl, rfl, rfl, id⟩⟩)
  · exact .inl (taken (tablesKept_writeRegister reg v u))
  · exact .inl (taken (tablesKept_hostRead r u))
  · exact .inl (taken ⟨⟨rfl, rfl, id⟩, ⟨rfl, rfl, rfl, id⟩⟩)

/-- Settles O34: a step that changes a table is a controller step, and of the command that builds
it. -/
theorem tablesChangeOnlyByBuildStages : Obligations.TablesChangeOnlyByBuildStages := by
  intro s t h hr
  rcases tablesKept_step h hr with ⟨hS, hP⟩ | ⟨hb, i, l, hi, hc⟩
  · exact ⟨fun h => absurd h hS.not_changed, fun h => absurd h hP.not_changed⟩
  · constructor
    · intro hch
      rcases sboxKept_controllerStep hc with hk | rfl
      · exact absurd hch (SboxKept.not_changed ⟨hk.sbox, hk.sinv, hk.svalid⟩)
      · exact ⟨hb, hi⟩
    · intro hch
      rcases pboxKept_controllerStep hc with hk | ⟨w, rfl⟩
      · exact absurd hch (PboxKept.not_changed ⟨hk.pbox, hk.pinv, hk.pt, hk.pvalid⟩)
      · exact ⟨hb, w, hi⟩

/-! ## Who may change the operand registers -/

/-- The host-written registers, together (R22 to R24, R36, R38). -/
def operandsOf (s : State) : BlockReg × BlockReg × BlockReg × BlockReg × BlockReg × BlockReg ×
    BitReg × BitVec 5 × Vector Byte 16 :=
  (s.blk, s.k1, s.k2, s.k3, s.k4, s.k5, s.bits, s.candlen, s.cand)

/-- The register is one the host writes: a write to any other is dropped (R70). -/
def Reg.IsOperand (r : Reg) : Prop :=
  r = .blk ∨ (∃ k, r = .key k) ∨ r = .bits ∨ r = .candlen ∨ ∃ i, r = .cand i

/-- A write to a register that is no operand register changes nothing (R70). -/
theorem writeRegister_of_not_IsOperand {r : Reg} (v : Nat) (s : State) (h : ¬ r.IsOperand) :
    writeRegister r v s = s := by
  cases r with
  | blk | key k | bits | candlen | cand i => exact absurd (by simp [Reg.IsOperand]) h
  | _ => rfl

/-- No accept step writes an operand register. -/
theorem operandsOf_accept (i : Instr) (s : State) :
    operandsOf (accept (commandOf i) s) = operandsOf s := by
  obtain ⟨hblk, hk1, hk2, hk3, hk4, hk5, hbits, hlen, hcand, -⟩ := accept_frame i s
  simp only [operandsOf, *]

/-- No controller step writes an operand register. -/
theorem operandsOf_controllerStep {i : Instr} {s t : State}
    (h : controllerStep (commandOf i) s = .next t) : operandsOf t = operandsOf s := by
  obtain ⟨g, T, n, -, rfl, -, -⟩ := controllerStep_eq_advance h
  obtain ⟨hblk, hbits, hk1, hk2, hk3, hk4, hk5, hlen, hcand, -⟩ :=
    runStage_frame (commandOf i).topo g s
  simp [operandsOf, *]

/-- Settles O35: every step but a write to an operand register keeps all of them. -/
theorem inputRegistersChangeOnlyByHostWrites :
    Obligations.InputRegistersChangeOnlyByHostWrites := by
  intro s t h hr hch
  have hne : operandsOf t ≠ operandsOf s := by
    simp only [operandsOf, ne_eq, Prod.mk.injEq]
    tauto
  obtain ⟨u, ⟨l, rfl⟩, hcase⟩ := step_without_reset h hr
  rcases hcase with ⟨-, i, -, hc⟩ | ⟨-, -, ⟨v, i, -, rfl⟩ | ⟨v, rfl⟩⟩ |
    ⟨hb, r, v, rest, reg, hin, hreg, -, rfl⟩ | ⟨r, rfl⟩ | rfl
  · exact absurd (operandsOf_controllerStep hc) hne
  · exact absurd (operandsOf_accept i _) hne
  · exact absurd rfl hne
  · refine ⟨hb, r, v, rest, reg, hin, hreg, ?_⟩
    by_contra hop
    exact hne (by rw [writeRegister_of_not_IsOperand v _ hop]; rfl)
  · exact absurd (by rw [eq_of_datapath_eq (hostRead_datapath r _)]; rfl) hne
  · exact absurd rfl hne

/-! ## Who may change the results -/

/-- From `s` to `t` no result register changes, and ERR stays (R24, R25, R29, R35, R41). -/
structure ResultsKept (s t : State) : Prop where
  res : t.res = s.res
  rbits : t.rbits = s.rbits
  trace : t.trace = s.trace
  tlen : t.tlen = s.tlen
  err : t.err = s.err

theorem resultsKept_writeRegister (r : Reg) (v : Nat) (s : State) :
    ResultsKept s (writeRegister r v s) := by
  obtain ⟨b, k1, k2, k3, k4, k5, d, n, c, hw⟩ := writeRegister_frame r v s
  rw [hw]
  exact ⟨rfl, rfl, rfl, rfl, rfl⟩

theorem resultsKept_hostRead (r : BitVec 7) (s : State) : ResultsKept s (hostRead r s) := by
  rw [eq_of_datapath_eq (hostRead_datapath r s)]
  exact ⟨rfl, rfl, rfl, rfl, rfl⟩

/-- What a controller step does to each result: RES at the end of a command that has it, RBITS in a
TOBITS, TRACE and TLEN in a traced command, ERR never (R103, R146, R147, R170). -/
theorem controllerStep_results {i : Instr} {s t : State}
    (h : controllerStep (commandOf i) s = .next t) :
    t.ir = s.ir ∧ t.err = s.err ∧
      (t.res = s.res ∨ t.busy = false ∧ t.done = true ∧ (commandOf i).writesRes = true) ∧
      (t.rbits = s.rbits ∨ ∃ w, i = .tobits w) ∧
      ((t.trace = s.trace ∧ t.tlen = s.tlen) ∨ (commandOf i).traced = true) := by
  obtain ⟨g, T, n, hg, rfl, hun, -⟩ := controllerStep_eq_advance h
  obtain ⟨-, -, -, -, -, -, -, -, -, hir, -, -, -, herr, hres, -⟩ :=
    runStage_frame (commandOf i).topo g s
  refine ⟨by simp [hir], by simp [herr], ?_, ?_, ?_⟩
  · rcases advance_res (commandOf i)
      { runStage (commandOf i).topo g s with trace := T, tlen := n } with e | e
    · exact .inl (e.trans hres)
    · exact .inr e
  · by_cases hb : g = .cvtb
    · exact .inr ((command_of_mem_stages (List.mem_of_getElem? hg)).2.2 hb)
    · exact .inl (by simp [(runStage_writes (commandOf i).topo g s).2.2 hb])
  · cases ht : (commandOf i).traced with
    | true => exact .inr rfl
    | false => simpa using hun ht

/-- What an accept step does to each result: TRACE and TLEN in a traced command, RES and RBITS
never (R145, R170). -/
theorem accept_results (i : Instr) (s : State) :
    (accept (commandOf i) s).ir = encode i ∧ (accept (commandOf i) s).res = s.res ∧
      (accept (commandOf i) s).rbits = s.rbits ∧
      (((accept (commandOf i) s).trace = s.trace ∧ (accept (commandOf i) s).tlen = s.tlen) ∨
        (commandOf i).traced = true) := by
  obtain ⟨-, -, -, -, -, -, -, -, -, hres, hrb, -, -, -, -, -, -, -, hir⟩ := accept_frame i s
  refine ⟨hir, hres, hrb, ?_⟩
  cases ht : (commandOf i).traced with
  | true => exact .inr rfl
  | false => exact .inl (accept_untraced s ht)

/-- Settles O36: each result changes only in a step that its command takes, and the host's reads and
register writes keep them all. -/
theorem resultsChangeOnlyByTheirCommands : Obligations.ResultsChangeOnlyByTheirCommands := by
  intro s t h hr
  obtain ⟨u, ⟨l, rfl⟩, hcase⟩ := step_without_reset h hr
  by_cases hk : ResultsKept { s with inputs := l } t
  · obtain ⟨hres, hrb, hT, hn, he⟩ := hk
    exact ⟨fun hc => absurd hres hc, fun hc => absurd hrb hc,
      fun hc => hc.elim (absurd hT) (absurd hn), fun hc => absurd he hc⟩
  rcases hcase with ⟨hb, i, hi, hc⟩ | ⟨hb, hin, ⟨v, i, hv, rfl⟩ | ⟨v, rfl⟩⟩ |
    ⟨-, -, v, -, reg, -, -, -, rfl⟩ | ⟨r, rfl⟩ | rfl
  · obtain ⟨hir, herr, hres, hrb, htr⟩ := controllerStep_results hc
    have hi' : decode s.ir = .ok i := hi
    refine ⟨fun hch => ?_, fun hch => ?_, fun hch => ?_, fun hch => absurd herr hch⟩
    · obtain ⟨hb', hd, hw⟩ := hres.resolve_left hch
      obtain ⟨hS, hOthers⟩ := command_of_writesRes hw
      refine ⟨hb, hb', hd, ?_⟩
      rw [hi']
      simpa using ⟨hS, hOthers⟩
    · obtain ⟨w, rfl⟩ := hrb.resolve_left hch
      exact ⟨hb, w, hi⟩
    · have ht := htr.resolve_left fun ⟨hT, hn⟩ => hch.elim (absurd hT) (absurd hn)
      rw [hir, hi]
      obtain ⟨w, rfl | rfl⟩ := command_of_traced ht
      · exact ⟨w, .inl rfl, .inl hb⟩
      · exact ⟨w, .inr rfl, .inl hb⟩
  · obtain ⟨hir, hres, hrb, htr⟩ := accept_results i { s with inputs := l }
    refine ⟨fun hch => absurd hres hch, fun hch => absurd hrb hch, fun hch => ?_,
      fun _ => ⟨hb, hin⟩⟩
    have ht := htr.resolve_left fun ⟨hT, hn⟩ => hch.elim (absurd hT) (absurd hn)
    rw [hir, decode_encode_of_decode hv]
    obtain ⟨w, rfl | rfl⟩ := command_of_traced ht
    · exact ⟨w, .inl rfl, .inr hin⟩
    · exact ⟨w, .inr rfl, .inr hin⟩
  · exact ⟨fun hch => absurd rfl hch, fun hch => absurd rfl hch,
      fun hch => hch.elim (absurd rfl) (absurd rfl), fun _ => ⟨hb, hin⟩⟩
  · exact absurd (resultsKept_writeRegister reg v _) hk
  · exact absurd (resultsKept_hostRead r _) hk
  · exact absurd ⟨rfl, rfl, rfl, rfl, rfl⟩ hk

/-! ## One step and the host's reads -/

/-- While BUSY = 1 the controller's turn is a step of the command in IR (R146). -/
theorem controllerTurn_busy {s : State} {i : Instr} (hb : s.busy = true)
    (hi : decode s.ir = .ok i) : controllerTurn s = exec i s := by
  simp [controllerTurn, hb, hi]

/-- While idle a host write to CMD is the accept step of its byte (R33, R90, R145). -/
theorem step_write_cmd {s : State} {n : Nat} {rest : List Event} (hb : s.busy = false)
    (hin : s.inputs = .write 0x00 n :: rest) :
    step s = acceptByte (BitVec.ofNat 8 n) { s with inputs := rest } := by
  have hreg : registerOf 0x00 = some .cmd := rfl
  simp only [step, hin, hostWriteStep, commandWrite, hb, hreg, and_self, if_true]

theorem acceptByte_ok {v : Byte} {i : Instr} (s : State) (h : decode v = .ok i) :
    acceptByte v s = exec i s := by
  simp [acceptByte, h]

/-- Settles O5: each clause is the one arm of the step that its pending input selects. -/
theorem stepRunsDecodedInstruction : Obligations.StepRunsDecodedInstruction := by
  refine ⟨fun s n i rest hb hin hi => ?_, fun s n _ rest hb hin _ => step_write_cmd hb hin,
    fun s i hb hin hi => ?_, fun s i rest hb hin hi => ?_, fun s hb hin => ?_, fun s w i hw => ?_⟩
  · rw [step_write_cmd hb hin, acceptByte_ok _ hi]
  · simp only [step, hin]
    exact controllerTurn_busy hb hi
  · simp only [step, hin]
    exact controllerTurn_busy hb hi
  · simp [step, hin, controllerTurn, hb]
  · have hi : decode (BitVec.ofNat 8 (w % 2 ^ 8)) = .ok i := by
      unfold decodeTableWord at hw
      split at hw
      · rename_i j hj
        rw [hj, Option.some.inj hw]
      · cases hw
    rw [step_write_cmd (s := s.withFetchWord 8 w) rfl rfl, acceptByte_ok _ hi]
    rfl

/-- Settles O9: a reset leaves every flag, code, counter and tag the invariant reads at 0. -/
theorem resetMeetsInvariant : Obligations.ResetMeetsInvariant := by
  refine ⟨datapathInv_reset, fun u s rest hin h => ?_⟩
  simp only [step, hin, Host.Outcome.next.injEq] at h
  exact h ▸ datapathInv_resetEvent _

/-- No register's word depends on the model's own fields, so a read sees what one before it saw. -/
theorem readRegister_congr (reg : Reg) (s : State) (l : List Event) (d : Option Nat) :
    readRegister reg { s with inputs := l, rdata := d } = readRegister reg s := by
  cases reg with
  | key k => cases k <;> rfl
  | _ => rfl

/-- Settles O40: a read of a mapped register is `step_read`; one of an unmapped number leaves the
datapath all the same. -/
theorem hostReadsHaveNoSideEffect : Obligations.HostReadsHaveNoSideEffect := by
  constructor
  · intro s r rest hin
    have hstep : step s = .next (hostRead r { s with inputs := rest }) := by simp only [step, hin]
    refine ⟨_, hstep, hostRead_datapath r _, ?_, fun reg hreg => ?_⟩
    · unfold hostRead
      split <;> rfl
    · have ht : hostRead r { s with inputs := rest } =
          { s with inputs := rest, rdata := some (readRegister reg s) } :=
        Host.Outcome.next.inj (hstep.symm.trans (step_read hin hreg))
      refine ⟨ht, fun u hu => ?_⟩
      rw [ht] at hu ⊢
      rw [step_read rfl hreg] at hu
      rw [← Host.Outcome.next.inj hu]
      simp only [readRegister_congr]
  · intro s
    exact ⟨rfl, rfl, rfl, rfl, rfl, rfl, rfl, rfl, rfl, rfl, rfl, rfl, rfl, fun _ => rfl,
      fun _ => ⟨rfl, rfl, rfl, rfl, rfl⟩⟩

/-- The value of an append: the upper part above the bits of the lower (R63). -/
theorem toNat_append_eq_add {m n : Nat} (x : BitVec m) (y : BitVec n) :
    (x ++ y).toNat = x.toNat * 2 ^ n + y.toNat := by
  rw [BitVec.toNat_append, ← Nat.shiftLeft_add_eq_or_of_lt y.isLt, Nat.shiftLeft_eq]

/-- Settles O44: each append of STATUS puts its field above the bits of those before it. -/
theorem statusWordLayout : Obligations.StatusWordLayout := by
  intro s
  simp only [readRegister, State.statusWord, toNat_append_eq_add, BitVec.toNat_ofBool]
  omega

end Sys2Proof.Machine

/-! SUPPORT. The host port: host accesses among the controller's turns, the register map, register
writes, and the words of the registers (20_memory.md, 30_encoding.md rules R85 to R90). -/

namespace Sys2Proof.Machine

/-! ## The controller's turn and the datapath -/

/-- A stage reads and writes the datapath alone, none of the model's own fields. -/
theorem runStage_datapath (t : Topology) (g : Stage) (s : State) :
    runStage t g s.datapath = (runStage t g s).datapath := by
  cases g with
  | kmix k => cases k <;> rfl
  | _ => rfl

/-- The end of a controller step reads and writes the datapath alone. -/
theorem advance_datapath (c : Command) (s : State) :
    advance c s.datapath = (advance c s).datapath := by
  unfold advance complete
  dsimp only [State.datapath]
  split <;> [split; skip] <;> rfl

/-- A snapshot reads and writes the datapath alone. -/
theorem snapshot_datapath {t : Topology} {s u : State} (h : snapshot t s = .next u) :
    snapshot t s.datapath = .next u.datapath := by
  obtain ⟨hl, rfl⟩ := snapshot_eq_next h
  exact dif_pos hl

/-- A controller step is one of the datapath alone: the model's own fields change nothing of it. -/
theorem controllerStep_datapath {c : Command} {s t : State} (h : controllerStep c s = .next t) :
    controllerStep c s.datapath = .next t.datapath := by
  obtain ⟨g, hg, ⟨htr, rfl⟩ | ⟨htr, v, hv, rfl⟩⟩ := controllerStep_eq_next h
  · rw [controllerStep_untraced (s := s.datapath) hg htr, runStage_datapath, advance_datapath]
  · have hv' := snapshot_datapath hv
    rw [← runStage_datapath] at hv'
    rw [controllerStep_traced (s := s.datapath) hg htr hv', advance_datapath]

/-- A controller step leaves the pending inputs. -/
theorem controllerStep_inputs {i : Instr} {s t : State}
    (h : controllerStep (commandOf i) s = .next t) : t.inputs = s.inputs := by
  obtain ⟨g, T, n, -, rfl, -, -⟩ := controllerStep_eq_advance h
  obtain ⟨-, -, -, -, -, -, -, -, -, -, -, -, -, -, -, -, -, hin, -⟩ :=
    runStage_frame (commandOf i).topo g s
  simp only [advance_inputs, hin]

/-- A running command has a stage to run and a cell for its snapshot (R26, R171, R186). -/
theorem exists_controllerStep {i : Instr} {s : State} (hr : Running i s) :
    ∃ t, controllerStep (commandOf i) s = .next t := by
  obtain ⟨g, hg⟩ : ∃ g, (commandOf i).stages[s.sc.toNat]? = some g :=
    ⟨_, List.getElem?_eq_getElem hr.stage⟩
  cases htr : (commandOf i).traced with
  | false => exact ⟨_, controllerStep_untraced hg htr⟩
  | true =>
    obtain ⟨-, -, -, -, -, -, -, -, -, -, -, -, -, -, -, -, htlen, -⟩ :=
      runStage_frame (commandOf i).topo g s
    have hlt : (runStage (commandOf i).topo g s).tlen.toNat < 13 := by
      have hlen := length_stages_le i
      have hstage := hr.stage
      rw [htlen, hr.snapshots htr]
      omega
    exact ⟨_, controllerStep_traced hg htr (dif_pos hlt)⟩

/-- The controller's turn on a busy datapath: it never stops, it keeps the invariant and the pending
inputs, and the datapath alone decides what it leaves there (R146, R186). -/
theorem controllerTurn_next {s : State} (h : DatapathInv s) (hb : s.busy = true) :
    ∃ t, controllerTurn s = .next t ∧ DatapathInv t ∧ t.inputs = s.inputs ∧
      controllerTurn s.datapath = .next t.datapath := by
  obtain ⟨i, hr⟩ := h.running hb
  obtain ⟨t, ht⟩ := exists_controllerStep hr
  have hturn : ∀ u : State, u.busy = true → decode u.ir = .ok i →
      controllerTurn u = controllerStep (commandOf i) u := fun u hub hui => by
    rw [controllerTurn_busy hub hui, exec_busy i hub]
  refine ⟨t, (hturn s hb hr.latched).trans ht, datapathInv_controllerStep h hr ht,
    controllerStep_inputs ht, ?_⟩
  rw [hturn s.datapath hb hr.latched]
  exact controllerStep_datapath ht

/-- BUSY is of the datapath. -/
theorem busy_of_datapath_eq {s u : State} (e : s.datapath = u.datapath) (h : u.busy = true) :
    s.busy = true :=
  (congrArg State.busy e).trans h

/-- Two busy states with one datapath have one datapath after the controller's turn. -/
theorem controllerTurn_of_datapath_eq {s u v : State} (h : DatapathInv u) (hb : u.busy = true)
    (e : s.datapath = u.datapath) (hu : controllerTurn u = .next v) :
    ∃ t, controllerTurn s = .next t ∧ t.datapath = v.datapath ∧ t.inputs = s.inputs := by
  obtain ⟨t, ht, -, hin, hd⟩ :=
    controllerTurn_next (datapathInv_of_datapath_eq h e) (busy_of_datapath_eq e hb)
  obtain ⟨w, hw, -, -, hdu⟩ := controllerTurn_next h hb
  obtain rfl : v = w := Host.Outcome.next.inj (hu.symm.trans hw)
  rw [e, hdu] at hd
  exact ⟨t, ht, (Host.Outcome.next.inj hd).symm, hin⟩

/-! ## Host accesses among the controller's turns -/

/-- A host access is no controller's turn. -/
theorem not_isController_of_isHostAccess {e : Event} (h : e.isHostAccess = true) :
    ¬ e.isController = true := by
  cases e with
  | write | read => exact Bool.false_ne_true
  | wait | readTrace | controller | reset => exact Bool.noConfusion h

theorem eq_controller_of_isController {e : Event} (h : e.isController = true) :
    e = .controller := by
  cases e with
  | controller => rfl
  | _ => exact Bool.noConfusion h

/-- While BUSY = 1 a host read or write leaves the datapath (R70, R204). -/
theorem step_hostAccess_busy {s : State} {e : Event} {rest : List Event} (hb : s.busy = true)
    (he : e.isHostAccess = true) (hin : s.inputs = e :: rest) :
    ∃ t, step s = .next t ∧ t.datapath = s.datapath ∧ t.inputs = rest := by
  cases e with
  | write r v =>
    refine ⟨{ s with inputs := rest }, ?_, rfl, rfl⟩
    simp only [step, hin]
    exact hostWriteStep_busy r v hb
  | read r =>
    refine ⟨hostRead r { s with inputs := rest }, by simp only [step, hin],
      hostRead_datapath r _, ?_⟩
    unfold hostRead
    split <;> rfl
  | wait | readTrace | controller | reset => exact Bool.noConfusion he

theorem step_of_inputs_nil {s : State} (h : s.inputs = []) : step s = controllerTurn s := by
  simp only [step, h]

theorem step_controller {s : State} {rest : List Event} (h : s.inputs = .controller :: rest) :
    step s = controllerTurn { s with inputs := rest } := by
  simp only [step, h]

/-- With no input pending an idle datapath stays as it is. -/
theorem run_idle (n : Nat) {s : State} (hin : s.inputs = []) (hb : s.busy = false) :
    Host.Core.run Sys2Proof.core n s = .next s := by
  have hstep : step s = .next s := by simp [step_of_inputs_nil hin, controllerTurn, hb]
  induction n with
  | zero => rfl
  | succ n ih => rw [run_succ_of_step n hstep, ih]

/-- A datapath that is busy after some controller's turns was busy before them. -/
theorem busy_of_run_busy {n : Nat} {s u : State} (hin : s.inputs = [])
    (hrun : Host.Core.run Sys2Proof.core n s = .next u) (hb : u.busy = true) :
    s.busy = true := by
  by_contra hs
  rw [Bool.not_eq_true] at hs
  obtain rfl : s = u := Host.Outcome.next.inj ((run_idle n hin hs).symm.trans hrun)
  exact Bool.false_ne_true (hs.symm.trans hb)

/-- From two states with one datapath, a run through host accesses and controller's turns and a run
of the turns alone end with one datapath, if the command is still running then (R73, R157). -/
theorem run_turns_among_hostAccesses {before rest : List Event} {s a u : State}
    (hinv : DatapathInv a) (ha : a.inputs = []) (hs : s.inputs = before ++ rest)
    (hd : s.datapath = a.datapath)
    (hk : ∀ e ∈ before, e.isHostAccess = true ∨ e.isController = true)
    (hrun : Host.Core.run Sys2Proof.core (before.countP Event.isController) a = .next u)
    (hb : u.busy = true) :
    DatapathInv u ∧ ∃ t, Host.Core.run Sys2Proof.core before.length s = .next t ∧
      t.datapath = u.datapath ∧ t.inputs = rest := by
  have hab : a.busy = true := busy_of_run_busy ha hrun hb
  induction before generalizing s a with
  | nil =>
    obtain rfl : a = u := Host.Outcome.next.inj hrun
    exact ⟨hinv, s, rfl, hd, hs⟩
  | cons e before ih =>
    rw [List.forall_mem_cons] at hk
    obtain ⟨he, hk⟩ := hk
    rcases he with he | he
    · rw [List.countP_cons_of_neg (not_isController_of_isHostAccess he)] at hrun
      obtain ⟨t, ht, htd, hti⟩ := step_hostAccess_busy (busy_of_datapath_eq hd hab) he hs
      rw [List.length_cons, run_succ_of_step _ ht]
      exact ih hinv ha hti (htd.trans hd) hk hrun hab
    · obtain rfl := eq_controller_of_isController he
      rw [List.countP_cons_of_pos he] at hrun
      obtain ⟨b, hturn, hbinv, hbin, -⟩ := controllerTurn_next hinv hab
      rw [run_succ_of_step _ ((step_of_inputs_nil ha).trans hturn)] at hrun
      obtain ⟨t, ht, htd, hti⟩ :=
        controllerTurn_of_datapath_eq (s := { s with inputs := before ++ rest }) hinv hab hd hturn
      rw [List.length_cons, run_succ_of_step _ ((step_controller hs).trans ht)]
      have hbn : b.inputs = [] := hbin.trans ha
      exact ih hbinv hbn hti htd hk hrun (busy_of_run_busy hbn hrun hb)

/-- Settles O33: the run through the accesses and the run of the turns alone reach one datapath, and
the last turn is of the datapath alone. -/
theorem hostAccessesDoNotDisturbCommand : Obligations.HostAccessesDoNotDisturbCommand := by
  intro s u before rest hinv _ hin hk hrun hub
  obtain ⟨hu, t, ht, htd, hti⟩ :=
    run_turns_among_hostAccesses (datapathInv_inputs hinv []) rfl hin rfl hk hrun hub
  obtain ⟨v, hv, -, -, -⟩ := controllerTurn_next (datapathInv_inputs hu []) hub
  obtain ⟨w, hw, hwd, hwi⟩ := controllerTurn_of_datapath_eq (s := { t with inputs := rest })
    (datapathInv_inputs hu []) hub htd hv
  refine ⟨w, v, ?_, (step_of_inputs_nil rfl).trans hv, hwd, hwi⟩
  rw [run_add 1 ht, run_succ_of_step 0 ((step_controller hti).trans hw)]
  rfl

/-! ## The register map -/

/-- The register number of R69. -/
def Reg.number : Reg → Nat
  | .cmd => 0x00
  | .status => 0x01
  | .blk => 0x02
  | .bits => 0x03
  | .key k => (keyNumber k).toNat
  | .res => 0x09
  | .rbits => 0x0A
  | .tlen => 0x0B
  | .candlen => 0x0C
  | .cand i => 0x10 + i.val
  | .trace j => 0x20 + j.val
  | .sbox i => 0x30 + i.val
  | .sinv i => 0x40 + i.val
  | .pbox i => 0x50 + i.val
  | .pinv i => 0x60 + i.val

/-- Every register stands at its number. -/
theorem registerOf_number (reg : Reg) : registerOf (BitVec.ofNat 7 reg.number) = some reg := by
  cases reg with
  | key k => cases k <;> rfl
  | trace j => exact registerOf_trace j
  | cand i | sbox i | sinv i | pbox i | pinv i => revert i; decide
  | _ => rfl

/-- A control or operand register stands at its number. -/
theorem number_of_lowRegister {n : Nat} {reg : Reg} (h : lowRegister n = some reg) :
    n = reg.number := by
  unfold lowRegister at h
  split at h <;> cases h <;> rfl

/-- A register stands at no other number than its own. -/
theorem number_of_registerOf {r : BitVec 7} {reg : Reg} (h : registerOf r = some reg) :
    r.toNat = reg.number := by
  unfold registerOf at h
  dsimp only at h
  split at h
  case h_1 =>
    rw [← number_of_lowRegister h]
    omega
  case h_3 =>
    split at h
    · cases h
      simp only [Reg.number]
      omega
    · cases h
  case h_8 => cases h
  all_goals
    cases h
    simp only [Reg.number]
    omega

theorem lowRegister_eq_none {n : Nat} : lowRegister n = none ↔ 13 ≤ n := by
  constructor
  · intro h
    by_contra hn
    have mapped : ∀ m : Fin 13, lowRegister m.val ≠ none := by decide
    exact mapped ⟨n, Nat.lt_of_not_le hn⟩ h
  · intro h
    unfold lowRegister
    split
    case h_14 => rfl
    all_goals omega

/-- The numbers no register stands at (R69). -/
theorem registerOf_eq_none {r : BitVec 7} : registerOf r = none ↔
    (0x0D ≤ r.toNat ∧ r.toNat ≤ 0x0F) ∨ (0x2D ≤ r.toNat ∧ r.toNat ≤ 0x2F) ∨ 0x70 ≤ r.toNat := by
  unfold registerOf
  dsimp only
  split
  case h_1 =>
    rw [lowRegister_eq_none]
    omega
  case h_3 =>
    split
    · simp only [reduceCtorEq, false_iff]
      omega
    · simp only [true_iff]
      omega
  case h_8 =>
    simp only [imp_false] at *
    simp only [true_iff]
    omega
  all_goals
    simp only [reduceCtorEq, false_iff]
    omega

/-- Settles O43: the map from registers to numbers inverts `registerOf`. -/
theorem registerMapIsAsTabled : Obligations.RegisterMapIsAsTabled := by
  refine ⟨by rfl, fun r => registerOf_eq_none, fun r q reg hr hq => ?_, registerOf_number .cmd,
    registerOf_number .status, registerOf_number .blk, registerOf_number .bits,
    registerOf_number (.key .k1), registerOf_number (.key .k2), registerOf_number (.key .k3),
    registerOf_number (.key .k4), registerOf_number (.key .k5), registerOf_number .res,
    registerOf_number .rbits, registerOf_number .tlen, registerOf_number .candlen,
    fun i => registerOf_number (.cand i), fun j => registerOf_number (.trace j),
    fun i => ⟨registerOf_number (.sbox i), registerOf_number (.sinv i),
      registerOf_number (.pbox i), registerOf_number (.pinv i)⟩⟩
  exact BitVec.eq_of_toNat_eq ((number_of_registerOf hr).trans (number_of_registerOf hq).symm)

/-! ## Host writes -/

/-- The numbers of CMD and of the operand registers. -/
theorem number_of_writable {reg : Reg} (h : reg = .cmd ∨ reg.IsOperand) :
    reg.number = 0x00 ∨ (0x02 ≤ reg.number ∧ reg.number ≤ 0x08) ∨ reg.number = 0x0C ∨
      (0x10 ≤ reg.number ∧ reg.number ≤ 0x1F) := by
  rcases h with rfl | rfl | ⟨k, rfl⟩ | rfl | rfl | ⟨i, rfl⟩
  · decide
  · decide
  · cases k <;> decide
  · decide
  · decide
  · simp only [Reg.number]
    omega

/-- A write to a number of no operand register and not of CMD is dropped, busy or idle (R70). -/
theorem step_write_dropped {s : State} {r : BitVec 7} {n : Nat} {rest : List Event}
    (hin : s.inputs = .write r n :: rest)
    (hr : ∀ reg, registerOf r = some reg → ¬ (reg = .cmd ∨ reg.IsOperand)) :
    step s = .next { s with inputs := rest } := by
  by_cases hb : s.busy = true
  · simp only [step, hin]
    exact hostWriteStep_busy (s := { s with inputs := rest }) r n hb
  · rw [Bool.not_eq_true] at hb
    cases hreg : registerOf r with
    | none =>
      simp only [step, hin, hostWriteStep, commandWrite, hostWrite, hreg, hb,
        Bool.false_eq_true, if_false, reduceCtorEq, and_false]
    | some reg =>
      have hnot := not_or.mp (hr reg hreg)
      rw [step_write_idle hin hb hreg hnot.1, writeRegister_of_not_IsOperand n _ hnot.2]

/-- Settles O42: no number of the list is one of CMD or an operand register. -/
theorem readOnlyWritesAreDropped : Obligations.ReadOnlyWritesAreDropped := by
  intro s r n rest hin hr
  refine step_write_dropped hin fun reg hreg hw => ?_
  have hnum := number_of_writable hw
  rw [← number_of_registerOf hreg] at hnum
  bv_omega

/-- A key register after a write to a key register (R23). -/
theorem key_setKey (k j : KeyIndex) (b : BlockReg) (s : State) :
    (setKey k b s).key j = if j = k then b else s.key j := by
  cases k <;> cases j <;> rfl

/-- The word of every other register is what it was before a register write (R70). -/
theorem readRegister_writeRegister_of_ne {reg other : Reg} (v : Nat) (s : State)
    (h : other ≠ reg) : readRegister other (writeRegister reg v s) = readRegister other s := by
  cases reg with
  | blk =>
    cases other with
    | blk => exact absurd rfl h
    | key k => cases k <;> rfl
    | _ => rfl
  | bits =>
    cases other with
    | bits => exact absurd rfl h
    | key k => cases k <;> rfl
    | _ => rfl
  | candlen =>
    cases other with
    | candlen => exact absurd rfl h
    | key k => cases k <;> rfl
    | _ => rfl
  | key k =>
    cases other with
    | key j =>
      have hjk : j ≠ k := fun e => h (congrArg Reg.key e)
      simp only [readRegister, writeRegister, key_setKey, if_neg hjk]
    | _ => cases k <;> rfl
  | cand i =>
    cases other with
    | key k => cases k <;> rfl
    | cand j =>
      have hij : i.val ≠ j.val := fun e => h (congrArg Reg.cand (Fin.ext e.symm))
      simp [readRegister, writeRegister, Vector.getElem_set_ne, hij]
    | _ => rfl
  | _ => rfl

/-! ## Words and cells -/

/-- The data field of the cells of a data field (R63). -/
theorem nibData_nibCells (d : BitVec 16) : nibData (nibCells d) = d := by
  unfold nibData nibCells
  simp only [Vector.getElem_mk, List.getElem_toArray, List.getElem_cons_zero,
    List.getElem_cons_succ]
  rw [BitVec.extractLsb'_append_extractLsb'_eq_extractLsb' (start₁ := 0) (start₂ := 4) rfl,
    BitVec.extractLsb'_append_extractLsb'_eq_extractLsb' (start₁ := 0) (start₂ := 8) rfl,
    BitVec.extractLsb'_append_extractLsb'_eq_extractLsb' (start₁ := 0) (start₂ := 12) rfl]
  exact BitVec.extractLsb'_eq_self

/-- A word is its tag above its data field (R85, R86). -/
theorem extractTag_append_extractData {n : Nat} (x : BitVec (n + 16)) :
    x.extractLsb' 16 n ++ x.extractLsb' 0 16 = x := by
  rw [BitVec.extractLsb'_append_extractLsb'_eq_extractLsb' (Nat.zero_add 16).symm]
  exact BitVec.extractLsb'_eq_self

/-- Two data fields with the same bit at every position are one (R63). -/
theorem dataField_ext {x y : BitVec 16}
    (h : ∀ p : Fin 16, x.getLsbD (15 - p.val) = y.getLsbD (15 - p.val)) : x = y := by
  refine BitVec.eq_of_getLsbD_eq fun i hi => ?_
  have hp := h ⟨15 - i, by omega⟩
  rwa [show 15 - (15 - i) = i by omega] at hp

/-- The data field of the bits of a data field (R63). -/
theorem bitData_bitCells (d : BitVec 16) : bitData (bitCells d) = d :=
  dataField_ext fun p => by
    rw [bitData_getLsbD]
    simp [bitCells]

/-- A block-valued register stores its whole word (R85). -/
@[simp] theorem BlockReg.toWord_ofWord (x : BitVec 19) : (BlockReg.ofWord x).toWord = x := by
  simp only [BlockReg.toWord, BlockReg.ofWord, nibData_nibCells]
  exact extractTag_append_extractData x

/-- A bit-valued register stores its whole word (R86). -/
@[simp] theorem BitReg.toWord_ofWord (x : BitVec 21) : (BitReg.ofWord x).toWord = x := by
  simp only [BitReg.toWord, BitReg.ofWord, bitData_bitCells]
  exact extractTag_append_extractData x

/-- The width of an operand register (R85 to R87). -/
def Reg.HasWidth (reg : Reg) (width : Nat) : Prop :=
  (reg = .blk ∨ ∃ k, reg = .key k) ∧ width = 19 ∨ reg = .bits ∧ width = 21 ∨
    reg = .candlen ∧ width = 5 ∨ (∃ i, reg = .cand i) ∧ width = 8

/-- An operand register reads as the value written to it, truncated to its width (R90). -/
theorem readRegister_writeRegister_self {reg : Reg} {width : Nat} (h : reg.HasWidth width)
    (v : Nat) (s : State) : readRegister reg (writeRegister reg v s) = v % 2 ^ width := by
  rcases h with ⟨rfl | ⟨k, rfl⟩, rfl⟩ | ⟨rfl, rfl⟩ | ⟨rfl, rfl⟩ | ⟨⟨i, rfl⟩, rfl⟩
  · simp only [readRegister, writeRegister, BlockReg.toWord_ofWord, BitVec.toNat_ofNat]
  · simp only [readRegister, writeRegister, key_setKey, if_true, BlockReg.toWord_ofWord,
      BitVec.toNat_ofNat]
  · simp only [readRegister, writeRegister, BitReg.toWord_ofWord, BitVec.toNat_ofNat]
  · simp only [readRegister, writeRegister, BitVec.toNat_ofNat]
  · simp [readRegister, writeRegister]

/-- Settles O41: the written register holds the truncated value, and a register write leaves the
words of the others, the hidden registers and the model's own fields. -/
theorem writeThenReadReturnsTruncatedValue : Obligations.WriteThenReadReturnsTruncatedValue := by
  intro s r n width reg rest hb hin hreg hw
  have hcmd : reg ≠ .cmd := by
    rintro rfl
    simp at hw
  obtain ⟨b, k1, k2, k3, k4, k5, d, m, c, hwr⟩ :=
    writeRegister_frame reg n { s with inputs := rest }
  refine ⟨_, step_write_idle hin hb hreg hcmd, by rw [hwr], readRegister_writeRegister_self hw n _,
    by rw [hwr], by rw [hwr], by rw [hwr], by rw [hwr], fun other hne => ?_⟩
  rw [readRegister_writeRegister_of_ne n _ hne]
  exact readRegister_congr other s rest s.rdata

/-! ## The layout of the words -/

/-- The bit `j` of nibble `i`, from the most significant one, is at position `4i + j` (R62). -/
theorem bitAt_eq_getMsbD {v : Vector Nibble 4} {p : Fin 16} {i j : Nat} (hi : i < 4) (hj : j < 4)
    (hp : p.val = 4 * i + j) : bitAt v p = v[i].getMsbD j := by
  have hdiv : p.val / 4 = i := by omega
  have hmod : p.val % 4 = j := by omega
  simp only [bitAt, hdiv, hmod]

/-- The data field of four nibble cells, bit by bit (R62, R63): each append of `nibData` puts one
cell above the later ones. -/
theorem nibData_getLsbD (v : Vector Nibble 4) (p : Fin 16) :
    (nibData v).getLsbD (15 - p.val) = bitAt v p := by
  have hmsb : (nibData v).getLsbD (15 - p.val) = (nibData v).getMsbD p.val := by
    simp [BitVec.getMsbD_eq_getLsbD]
  rw [hmsb, nibData, BitVec.getMsbD_append, BitVec.getMsbD_append, BitVec.getMsbD_append]
  split_ifs <;> exact (bitAt_eq_getMsbD (by omega) (by omega) (by omega)).symm

/-- Settles O45: each append puts its part above the bits of those before it. -/
theorem registerWordsPackMsbFirst : Obligations.RegisterWordsPackMsbFirst := by
  refine ⟨fun r => ⟨?_, fun p => ?_⟩, fun r => ⟨?_, fun p => ?_⟩⟩
  · simp only [BlockReg.toWord, nibData, toNat_append_eq_add]
    omega
  · rw [BlockReg.toWord, BitVec.getLsbD_append, if_pos (by omega), nibData_getLsbD]
  · rw [BitReg.toWord, toNat_append_eq_add]
    have := (bitData r.bit).isLt
    omega
  · rw [BitReg.toWord, BitVec.getLsbD_append, if_pos (by omega), bitData_getLsbD]

/-- The bits of a nibble, the most significant first (R62, R100). -/
theorem nibbleBits_getElem? {n : Nibble} {j : Nat} (hj : j < 4) :
    (nibbleBits n)[j]? = some (n.getMsbD j) := by
  have hbit : ∀ j : Fin 4, (nibbleBits n)[j.val]? = some (n.getMsbD j.val) := by revert n; decide
  exact hbit ⟨j, hj⟩

/-- The bit at position `p` of a Block is in its nibble `p / 4` (R62, R100). -/
theorem toBits_getD (B : Block) (p : Nat) :
    (toBits B).getD p false = (B.getD (p / 4) 0).getMsbD (p % 4) := by
  induction B generalizing p with
  | nil => simp [toBits]
  | cons n B ih =>
    have hcons : toBits (n :: B) = nibbleBits n ++ toBits B := rfl
    rw [hcons]
    by_cases hp : p < 4
    · rw [List.getD_append _ _ _ _ (by simpa using hp), Nat.div_eq_of_lt hp, Nat.mod_eq_of_lt hp,
        List.getD_eq_getElem?_getD, nibbleBits_getElem? hp]
      rfl
    · rw [List.getD_append_right _ _ _ _ (by simpa using hp), length_nibbleBits, ih,
        show p / 4 = (p - 4) / 4 + 1 by omega, show p % 4 = (p - 4) % 4 by omega]
      rfl

/-- Settles O46: at every position both data fields hold the same bit of the Block. -/
theorem blockAndBitsShareDataField : Obligations.BlockAndBitsShareDataField := by
  intro B _
  refine dataField_ext fun p => ?_
  rw [bitData_getLsbD, nibData_getLsbD]
  simp only [bitAt, Fin.getElem_fin, fitBits_getElem, fitBlock_getElem, toBits_getD]

end Sys2Proof.Machine

/-! SUPPORT. The command byte: its fields, its encoder and decoder as inverses, and the illegal bytes
(30_encoding.md rules R80 to R84). -/

namespace Sys2Proof.Machine

/-! ## The fields of the command byte -/

/-- Bits 7:4 of the byte, as a number (R80). -/
theorem toNat_opField (v : Byte) : (opField v).toNat = v.toNat / 16 := by
  have := v.isLt
  rw [opField, BitVec.extractLsb'_toNat, Nat.shiftRight_eq_div_pow]
  omega

/-- Bits 2:0 of the byte, as a number (R80). -/
theorem toNat_argField (v : Byte) : (argField v).toNat = v.toNat % 8 := by
  rw [argField, BitVec.extractLsb'_toNat]
  rfl

/-- Bit 3 of the byte, as a number (R80). -/
theorem toNat_topologyBit (v : Byte) : (topologyBit v).toNat = v.toNat / 8 % 2 := by
  rw [topologyBit, BitVec.getLsbD, Nat.toNat_testBit]

/-- A topology is the one its bit stands for (R80). -/
@[simp] theorem topologyToBit_topologyOfBit (b : Bool) :
    topologyToBit (topologyOfBit b) = b := by
  cases b <;> rfl

/-- A byte is the one with its own three fields (R80). -/
theorem commandByte_fields (v : Byte) :
    commandByte (opField v) (topologyOfBit (topologyBit v)) (argField v) = v := by
  apply BitVec.eq_of_toNat_eq
  simp only [commandByte, topologyToBit_topologyOfBit, toNat_append_eq_add, BitVec.toNat_ofBool,
    toNat_opField, toNat_argField, toNat_topologyBit]
  omega

/-- A byte whose operation and argument are known is the byte of those fields (R80). -/
theorem commandByte_eq {v : Byte} {op : BitVec 4} {a : BitVec 3}
    (hop : (opField v).toNat = op.toNat) (ha : argField v = a) :
    commandByte op (topologyOfBit (topologyBit v)) a = v := by
  rw [← BitVec.eq_of_toNat_eq hop, ← ha, commandByte_fields]

/-- The encoder undoes the decoder: each arm of the decoder answers the command whose byte has the
operation and the argument the arm has checked (R81, R82). -/
theorem encode_of_decode {v : Byte} {i : Instr} (h : decode v = .ok i) : encode i = v := by
  simp only [decode] at h
  split at h
  case h_3 hop =>
    split at h
    · cases h
    · rename_i ht
      rw [Bool.not_eq_true] at ht
      obtain ⟨ha, rfl⟩ := decodePlain_eq_ok.mp h
      have hv := commandByte_eq (op := 3) hop ha
      rwa [ht] at hv
  case h_5 hop =>
    split at h
    · cases h
      exact commandByte_eq (op := 5) hop rfl
    · cases h
  case h_10 => cases h
  case h_1 hop | h_2 hop | h_4 hop =>
    obtain ⟨ha, rfl⟩ := decodePlain_eq_ok.mp h
    exact commandByte_eq hop ha
  all_goals
    rename_i hop
    obtain ⟨ha, rfl⟩ | ⟨ha, rfl⟩ := decodeFlag_eq_ok.mp h
    · exact commandByte_eq hop ha
    · exact commandByte_eq hop ha

/-- Settles O1: each byte evaluates to its command. -/
theorem writtenBytesDecode : Obligations.WrittenBytesDecode :=
  ⟨rfl, rfl, rfl, rfl, rfl, rfl, rfl, rfl, rfl, rfl, rfl, rfl, rfl, rfl⟩

/-- Settles O2: the encoder's byte has the fields the decoder's arm for the command checks. -/
theorem decodeInvertsEncode : Obligations.DecodeInvertsEncode :=
  fun _ h => decode_encode h

/-- Settles O3: a byte that decodes is rebuilt from its fields. -/
theorem encodeInvertsDecode : Obligations.EncodeInvertsDecode :=
  fun _ _ h => ⟨wellFormed_of_decode h, encode_of_decode h⟩

/-! ## The illegal bytes -/

/-- An operation without a flag has only the argument 000 (R83). -/
theorem exists_decodePlain_error {a : BitVec 3} {i : Instr} :
    (∃ e, decodePlain a i = .error e) ↔ a.toNat ≠ 0 := by
  unfold decodePlain
  split
  · simp_all
  · simp
    bv_omega

/-- An operation with a flag has only the arguments 000 and 001 (R83). -/
theorem exists_decodeFlag_error {a : BitVec 3} {i j : Instr} :
    (∃ e, decodeFlag a i j = .error e) ↔ 2 ≤ a.toNat := by
  unfold decodeFlag
  split
  · simp_all
  · split
    · simp_all
    · simp
      bv_omega

/-- The accept step of an illegal byte, as what it changes (R83, R182). -/
theorem acceptByte_error {v : Byte} {e : DecodeError} (s : State) (h : decode v = .error e) :
    acceptByte v s = .next { s with ir := v, done := true, err := 4 } := by
  simp only [acceptByte, h]
  rfl

/-- The bytes that do not decode, by the operation field (R83). -/
theorem exists_decode_error {v : Byte} : (∃ e, decode v = .error e) ↔
    (v.toNat / 16 = 0 ∨ 10 ≤ v.toNat / 16) ∨
    (v.toNat / 16 = 3 ∧ (v.toNat / 8 % 2 = 1 ∨ v.toNat % 8 ≠ 0)) ∨
    ((v.toNat / 16 = 1 ∨ v.toNat / 16 = 2 ∨ v.toNat / 16 = 4) ∧ v.toNat % 8 ≠ 0) ∨
    (v.toNat / 16 = 5 ∧ (v.toNat % 8 = 0 ∨ v.toNat % 8 = 6 ∨ v.toNat % 8 = 7)) ∨
    (6 ≤ v.toNat / 16 ∧ v.toNat / 16 ≤ 9 ∧ 2 ≤ v.toNat % 8) := by
  have hv := v.isLt
  have ht := toNat_topologyBit v
  simp only [decode]
  split
  case h_3 hop =>
    rw [toNat_opField] at hop
    cases hb : topologyBit v with
    | true =>
      rw [hb] at ht
      simp only [if_true, Except.error.injEq, exists_eq', true_iff]
      simp only [Bool.toNat_true] at ht
      omega
    | false =>
      rw [hb] at ht
      simp only [Bool.false_eq_true, if_false, exists_decodePlain_error, toNat_argField]
      simp only [Bool.toNat_false] at ht
      omega
  case h_5 hop =>
    rw [toNat_opField] at hop
    rw [toNat_argField]
    split
    · simp only [reduceCtorEq, exists_false, false_iff]
      omega
    · simp only [Except.error.injEq, exists_eq', true_iff]
      omega
  case h_10 =>
    simp only [imp_false, toNat_opField] at *
    simp only [Except.error.injEq, exists_eq', true_iff]
    omega
  all_goals
    rename_i hop
    rw [toNat_opField] at hop
    simp only [exists_decodePlain_error, exists_decodeFlag_error, toNat_argField]
    omega

/-- How many bytes of each operation field 0 to 15 are illegal (R83). -/
def illegalPerOperation : List Nat :=
  [16, 14, 14, 15, 14, 6, 12, 12, 12, 12, 16, 16, 16, 16, 16, 16]

/-- The illegal bytes with one operation field, counted. -/
theorem countP_illegal_operation (op : Fin 16) :
    ((List.range 16).countP fun n => (decodeTableWord 8 (16 * op.val + n)).isNone) =
      illegalPerOperation.getD op.val 0 := by
  revert op
  decide

/-- The bytes in order are those of operation field 0, then those of 1, and so on (R80). -/
theorem range_mul_eq_flatMap (m : Nat) :
    List.range (16 * m) = (List.range m).flatMap fun op => (List.range 16).map (16 * op + ·) := by
  induction m with
  | zero => rfl
  | succ m ih => simp [Nat.mul_succ, List.range_add, List.range_succ (n := m), ih]

/-- R83's 223 illegal bytes, counted by operation field. -/
theorem countP_illegal :
    ((List.range 256).countP fun n => (decodeTableWord 8 n).isNone) = 223 := by
  have hrow : ∀ op ∈ List.range 16, ((List.range 16).map (16 * op + ·)).countP
      (fun n => (decodeTableWord 8 n).isNone) = illegalPerOperation.getD op 0 := fun op hop => by
    rw [List.countP_map]
    exact countP_illegal_operation ⟨op, List.mem_range.mp hop⟩
  rw [show 256 = 16 * 16 from rfl, range_mul_eq_flatMap, List.countP_flatMap]
  exact congrArg List.sum (List.map_congr_left hrow)

/-- Settles O4: the list follows the decoder's arms, and the bytes are counted arm by arm. -/
theorem illegalBytesRaiseIllegalCommand : Obligations.IllegalBytesRaiseIllegalCommand :=
  ⟨fun _ => exists_decode_error, countP_illegal, fun s _ _ _ h => acceptByte_error s h⟩

end Sys2Proof.Machine

/-! SUPPORT. WAIT and the reads of a trace: how a run with one of them pending goes on
(30_encoding.md rules R92, R93, 70_reset_and_hazards.md rule R207). -/

namespace Sys2Proof.Machine

/-! ## A running command is done after its remaining stages -/

/-- The end of a controller step leaves the command running, or done (R146, R147). -/
theorem done_of_advance_idle {c : Command} {s : State} (hb : s.busy = true)
    (h : (advance c s).busy = false) : (advance c s).done = true := by
  by_cases he : (s.sc + 1).toNat = c.stages.length
  · rw [advance_of_eq he, complete_done]
  · rw [advance_of_ne he] at h
    exact absurd (h.symm.trans hb) Bool.false_ne_true

/-- A step of a running command: SC counts it, IR and ERR stay, and if it was the last one the
command is done (R26, R146, R147). -/
theorem controllerStep_of_running {i : Instr} {s t : State} (hr : Running i s)
    (hb : s.busy = true) (h : controllerStep (commandOf i) s = .next t) :
    t.sc.toNat = s.sc.toNat + 1 ∧ t.ir = s.ir ∧ t.err = 0 ∧ (t.busy = false → t.done = true) := by
  obtain ⟨hir, herr, -⟩ := controllerStep_results h
  obtain ⟨g, T, n, -, rfl, -, -⟩ := controllerStep_eq_advance h
  obtain ⟨-, -, -, -, -, -, -, -, -, -, hsc, hbusy, -⟩ := runStage_frame (commandOf i).topo g s
  refine ⟨?_, hir, herr.trans hr.err, done_of_advance_idle (hbusy.trans hb)⟩
  have hlen := length_stages_le i
  have hstage := hr.stage
  rw [advance_sc, hsc, toNat_add_one (by omega)]

/-- Pending inputs that leave the turns of a running command to the controller: none, or a WAIT
(R191, R207; log entries 1, 7). -/
def GivesTurn (l : List Event) : Prop := l = [] ∨ ∃ rest, l = .wait :: rest

theorem step_of_givesTurn {s : State} (hl : GivesTurn s.inputs) (hb : s.busy = true)
    (hd : s.done = false) : step s = controllerTurn s := by
  rcases hl with hl | ⟨rest, hl⟩
  · exact step_of_inputs_nil hl
  · exact step_wait_busy hl hb hd

/-- Left to the controller, a running command is done after at most as many steps as it has stages
left, with ERR = 0 (R146, R147, R186, R207). -/
theorem run_running_to_done {i : Instr} (m : Nat) {s : State} (hinv : DatapathInv s)
    (hr : Running i s) (hb : s.busy = true) (hl : GivesTurn s.inputs)
    (hm : (commandOf i).stages.length ≤ s.sc.toNat + m) :
    ∃ n t, n ≤ m ∧ Host.Core.run Sys2Proof.core n s = .next t ∧ t.inputs = s.inputs ∧
      t.busy = false ∧ t.done = true ∧ t.err = 0 := by
  induction m generalizing s with
  | zero => exact absurd hr.stage (by omega)
  | succ m ih =>
    obtain ⟨u, hu⟩ := exists_controllerStep hr
    obtain ⟨hsc, hir, herr, hdone⟩ := controllerStep_of_running hr hb hu
    have hinvu : DatapathInv u := datapathInv_controllerStep hinv hr hu
    have hin : u.inputs = s.inputs := controllerStep_inputs hu
    have hstep : step s = .next u := by
      rw [step_of_givesTurn hl hb hr.done, controllerTurn_busy hb hr.latched, exec_busy i hb, hu]
    cases hbu : u.busy with
    | false =>
      exact ⟨1, u, by omega, run_succ_of_step 0 hstep, hin, hbu, hdone hbu, herr⟩
    | true =>
      obtain ⟨j, hj⟩ := hinvu.running hbu
      obtain rfl : j = i := by
        have hlatched := hj.latched
        rw [hir, hr.latched] at hlatched
        exact (Except.ok.inj hlatched).symm
      obtain ⟨n, t, hn, hrun, hti, ht⟩ := ih hinvu hj hbu (hin ▸ hl) (by omega)
      exact ⟨n + 1, t, by omega, (run_succ_of_step n hstep).trans hrun, hti.trans hin, ht⟩

/-- The poll that ends a WAIT reads STATUS and changes nothing of the datapath (R70, R92). -/
theorem step_wait_idle_eq {s : State} {rest : List Event} (hi : s.inputs = .wait :: rest)
    (hb : s.busy = false) :
    step s = .next { s with inputs := rest, rdata := some (readRegister .status s) } :=
  step_wait_idle hi hb

/-- Settles O57: a running command has at most 12 stages left, and the poll after them ends the
WAIT. -/
theorem waitAlwaysEnds : Obligations.WaitAlwaysEnds := by
  intro s rest hinv hin
  cases hb : s.busy with
  | false =>
    exact ⟨1, _, by omega, run_succ_of_step 0 (step_wait_idle_eq hin hb), rfl, hb, rfl,
      fun h => absurd h Bool.false_ne_true, fun _ => ⟨rfl, rfl⟩⟩
  | true =>
    obtain ⟨i, hr⟩ := hinv.running hb
    have hlen := length_stages_le i
    obtain ⟨n, u, hn, hrun, hui, hub, hud, hue⟩ :=
      run_running_to_done 12 hinv hr hb (.inr ⟨rest, hin⟩) (by omega)
    refine ⟨n + 1, { u with inputs := rest, rdata := some (readRegister .status u) }, by omega, ?_,
      rfl, hub, rfl, fun _ => ⟨hud, hue⟩, fun h => absurd h.symm Bool.false_ne_true⟩
    rw [run_add 1 hrun]
    exact run_succ_of_step 0 (step_wait_idle_eq (hui.trans hin) hub)

/-! ## The reads of a trace -/

/-- The word a trace's reads have returned last after `m` of the reads that follow the one of TLEN
(R93). -/
def traceReadWord (s : State) : Nat → Nat
  | 0 => s.tlen.toNat
  | j + 1 => if h : j < 13 then (s.trace[j]).toWord.toNat else 0

/-- The read of TLEN and `m` of the reads it becomes (R93). -/
theorem run_readTrace {s : State} {rest : List Event} (hn : s.tlen.toNat ≤ 13)
    (hin : s.inputs = .readTrace :: rest) {m : Nat} (hm : m ≤ s.tlen.toNat) :
    Host.Core.run Sys2Proof.core (m + 1) s = .next { s with
      inputs := (traceReads s.tlen.toNat).drop m ++ rest
      rdata := some (traceReadWord s m) } := by
  induction m with
  | zero => exact run_succ_of_step 0 (step_readTrace hin)
  | succ m ih =>
    have hm13 : m < 13 := by omega
    have hread : (traceReads s.tlen.toNat).drop m =
        .read (BitVec.ofNat 7 (0x20 + m)) :: (traceReads s.tlen.toNat).drop (m + 1) := by
      rw [List.drop_eq_getElem_cons (by simpa [traceReads] using hm)]
      simp [traceReads]
    rw [run_add 1 (ih (by omega)), hread]
    refine run_succ_of_step 0 ((step_read rfl (registerOf_trace ⟨m, hm13⟩)).trans ?_)
    simp only [readRegister, traceReadWord, hm13, dif_pos]
    rfl

/-- All reads of a trace, of TLEN and of the snapshots below it: `n` is the value of TLEN (R93). -/
theorem run_readTrace_all {s : State} {rest : List Event} {n : Nat} (hn : s.tlen.toNat = n)
    (h13 : n ≤ 13) (hin : s.inputs = .readTrace :: rest) :
    Host.Core.run Sys2Proof.core (n + 1) s =
      .next { s with inputs := rest, rdata := some (traceReadWord s n) } := by
  subst hn
  rw [run_readTrace h13 hin le_rfl, List.drop_of_length_le (by simp [traceReads]), List.nil_append]

/-- Settles O58: after the read of TLEN and `m` more, the word last read is the one `traceReadWord`
names. -/
theorem traceReadsFollowTlen : Obligations.TraceReadsFollowTlen := by
  intro s rest hn hin
  refine ⟨⟨_, run_readTrace hn hin (Nat.zero_le _), rfl, rfl⟩, fun j hj => ?_,
    ⟨_, run_readTrace_all rfl hn hin, rfl, rfl⟩⟩
  refine ⟨_, run_readTrace hn hin hj, rfl, ?_⟩
  simp [traceReadWord]

end Sys2Proof.Machine

/-! SUPPORT. The commands that run on the Block in BLK, as functions of that Block: what each stage
makes of it, the state after every step, and the host sequences of the pipelines (43_pipeline.md,
44_tracer.md, 30_encoding.md rule R93). -/

namespace Sys2Proof.Machine

/-! ## The stages as functions on Blocks -/

/-- The stages that read a Block in ST and leave one there, and write nothing else
(R132 to R134). -/
def Stage.OnBlock : Stage → Prop
  | .kmix _ | .subs | .subsInv | .perm | .permInv => True
  | .cvtb | .cvtn | .blds | .bldp => False

/-- What a stage makes of the Block in ST, with the keys and tables of `s` (R132 to R134). -/
def stageBlock (t : Topology) (s : State) (B : Block) : Stage → Block
  | .kmix k => xorBlocks B (keyBlock t s k)
  | .subs => substitute B s.sbox.toList
  | .subsInv => substitute B s.sinv.toList
  | .perm => permute B (s.pbox.toList.take (4 * arity t))
  | .permInv => permute B (s.pinv.toList.take (4 * arity t))
  | .cvtb | .cvtn | .blds | .bldp => B

/-- Every stage keeps the arity (R125, R127, R129). -/
theorem length_stageBlock {t : Topology} (s : State) {B : Block} (g : Stage)
    (h : B.length = arity t) : (stageBlock t s B g).length = arity t := by
  cases g <;> simp [stageBlock, keyBlock, h, length_blockOf (arity_le t)]

/-- The cells of a Block of arity `w` read back as the Block. -/
theorem blockOf_fitBlock_of_arity {t : Topology} {B : Block} (h : B.length = arity t) :
    blockOf (arity t) (fitBlock B) = B :=
  h ▸ blockOf_fitBlock B (h ▸ arity_le t)

/-- Storing a Block over one of the same arity leaves its cells alone. -/
theorem storeBlock_fitBlock {t : Topology} {B C : Block} (hB : B.length = arity t)
    (hC : C.length = arity t) : storeBlock C (fitBlock B) = fitBlock C := by
  rw [← activeCells_fitBlock t B hB, storeBlock_activeCells t C hC]

/-- What the controller writes to a register from the cells of a Block. -/
theorem blockReg_fitBlock {t : Topology} {B : Block} (h : B.length = arity t) :
    blockReg t (fitBlock B) = regOf t (fitBlock B) := by
  rw [blockReg_eq, activeCells_fitBlock t B h]

/-- A stage on a Block changes ST alone, as `stageBlock` says (R132 to R134, R73). -/
theorem runStage_onBlock {t : Topology} {g : Stage} {s : State} {B : Block} (hg : g.OnBlock)
    (hB : B.length = arity t) (hst : s.st = fitBlock B) :
    runStage t g s = { s with st := fitBlock (stageBlock t s B g) } := by
  have hstore := storeBlock_fitBlock hB (length_stageBlock s g hB)
  cases g with
  | cvtb | cvtn | blds | bldp => exact hg.elim
  | kmix k =>
    simpa [runStage, stageKmix, stageBlock, keyBlock, hst, blockOf_fitBlock_of_arity hB] using
      hstore
  | subs | subsInv =>
    simpa [runStage, stageSubstitute, stageBlock, hst, blockOf_fitBlock_of_arity hB] using hstore
  | perm | permInv =>
    simpa [runStage, stagePermute, stageBlock, hst, blockOf_fitBlock_of_arity hB] using hstore

/-! ## The commands on a Block -/

/-- The command `i` takes the Block of topology `t` in BLK through stages on it to RES: MIXKEY, SUB,
SUBI, PERM, PERMI and the pipelines (R145, R147, R148). -/
structure BlockCommand (i : Instr) (t : Topology) : Prop where
  topo : (commandOf i).topo = t
  clear : (commandOf i).clear = id
  load : (commandOf i).load = .block
  writesRes : (commandOf i).writesRes = true
  onBlock : ∀ g ∈ (commandOf i).stages, g.OnBlock

/-- The Block in ST after `n` stages of the command `i` (R171). -/
def blockAfter (i : Instr) (t : Topology) (s : State) (n : Nat) : Block :=
  ((commandOf i).stages.take n).foldl (stageBlock t s) (inputBlock t s)

/-- TRACE after `n` stages of a traced command: the snapshots so far, then what it held before
(R170). -/
def traceAfter (i : Instr) (t : Topology) (s : State) (n : Nat) : Vector BlockReg 13 :=
  Vector.ofFn fun j => if j.val ≤ n then regOf t (fitBlock (blockAfter i t s j.val)) else s.trace[j]

/-- `s` after the accept and `n` stages of a command on a Block, which is still to be completed
(R145, R146, R170). -/
def afterStages (i : Instr) (t : Topology) (s : State) (n : Nat) : State :=
  { acceptedBlock i t s with
    sc := BitVec.ofNat 4 n
    st := fitBlock (blockAfter i t s n)
    trace := if (commandOf i).traced then traceAfter i t s n else s.trace
    tlen := if (commandOf i).traced then BitVec.ofNat 4 (n + 1) else s.tlen }

/-- The Block a command on a Block ends with. -/
def resultOf (i : Instr) (t : Topology) (s : State) : Block :=
  blockAfter i t s (commandOf i).stages.length

/-- `s` after a whole command on a Block (R147). -/
def afterCommand (i : Instr) (t : Topology) (s : State) : State :=
  { afterStages i t s (commandOf i).stages.length with
    busy := false
    done := true
    res := regOf t (fitBlock (resultOf i t s)) }

theorem length_foldl_stageBlock {t : Topology} (s : State) (gs : List Stage) {B : Block}
    (h : B.length = arity t) : (gs.foldl (stageBlock t s) B).length = arity t := by
  induction gs generalizing B with
  | nil => exact h
  | cons g gs ih => exact ih (length_stageBlock s g h)

@[simp] theorem length_blockAfter (i : Instr) (t : Topology) (s : State) (n : Nat) :
    (blockAfter i t s n).length = arity t :=
  length_foldl_stageBlock s _ (length_blockOf (arity_le t) _)

@[simp] theorem length_resultOf (i : Instr) (t : Topology) (s : State) :
    (resultOf i t s).length = arity t :=
  length_blockAfter i t s _

/-- One stage more. -/
theorem blockAfter_succ {i : Instr} {t : Topology} {s : State} {n : Nat} {g : Stage}
    (hg : (commandOf i).stages[n]? = some g) :
    blockAfter i t s (n + 1) = stageBlock t s (blockAfter i t s n) g := by
  simp [blockAfter, List.take_add_one, hg]

/-- The accept step records the loaded Block (R145, R170). -/
theorem traceAfter_zero (i : Instr) (t : Topology) (s : State) :
    traceAfter i t s 0 = s.trace.set 0 (regOf t (fitBlock (inputBlock t s))) := by
  apply Vector.ext
  intro j hj
  simp only [traceAfter, Vector.getElem_ofFn, Vector.getElem_set, Nat.le_zero, eq_comm (a := j)]
  split
  · subst j
    rfl
  · rfl

/-- Each stage records its result in the next cell (R170). -/
theorem traceAfter_succ (i : Instr) (t : Topology) (s : State) {n : Nat} (hn : n + 1 < 13) :
    traceAfter i t s (n + 1) =
      (traceAfter i t s n).set (n + 1) (regOf t (fitBlock (blockAfter i t s (n + 1)))) := by
  apply Vector.ext
  intro j hj
  simp only [traceAfter, Vector.getElem_ofFn, Vector.getElem_set]
  by_cases h : n + 1 = j
  · simp [h]
  · simp only [h, if_false, show j ≤ n + 1 ↔ j ≤ n by omega]

/-- A four-bit counter, such as SC or TLEN, holds every number below 16. -/
theorem toNat_counter {n : Nat} (h : n < 16) : (BitVec.ofNat 4 n).toNat = n := by
  rw [BitVec.toNat_ofNat]
  exact Nat.mod_eq_of_lt h

/-- A four-bit counter counts up by one. -/
theorem counter_succ (n : Nat) : BitVec.ofNat 4 n + 1 = BitVec.ofNat 4 (n + 1) :=
  (BitVec.ofNat_add n 1).symm

/-- The accept step of a command on a Block that passes its checks (R145, R170). -/
theorem exec_accept {i : Instr} {t : Topology} {s : State} (hc : BlockCommand i t)
    (hb : s.busy = false) (hcheck : (commandOf i).check s = none) :
    exec i s = .next (afterStages i t s 0) := by
  have hst : activeCells t s.blk.nib = fitBlock (blockAfter i t s 0) := (fitBlock_blockOf t _).symm
  cases htr : (commandOf i).traced with
  | false =>
    rw [exec_accept_block hb hcheck hc.load hc.topo hc.clear htr]
    simp only [acceptedBlock, afterStages, htr, hst]
    rfl
  | true =>
    rw [exec_accept_traced hb hcheck hc.load hc.topo hc.clear htr]
    simp only [acceptedTraced, acceptedBlock, afterStages, htr, traceAfter_zero, hst]
    rfl

/-- A controller step of a command on a Block, before SC advances (R146, R170). -/
theorem controllerStep_afterStages {i : Instr} {t : Topology} (s : State) {n : Nat}
    (hc : BlockCommand i t) (hn : n < (commandOf i).stages.length) :
    controllerStep (commandOf i) (afterStages i t s n) =
      .next (advance (commandOf i) { afterStages i t s (n + 1) with sc := BitVec.ofNat 4 n }) := by
  have hlen := length_stages_le i
  have hsc : (BitVec.ofNat 4 n).toNat = n := toNat_counter (by omega)
  have hg : (commandOf i).stages[n]? = some (commandOf i).stages[n] := List.getElem?_eq_getElem hn
  have hstages : (commandOf i).stages[(afterStages i t s n).sc.toNat]? =
      some (commandOf i).stages[n] := by rwa [afterStages, hsc]
  have hrun := runStage_onBlock (s := afterStages i t s n)
    (hc.onBlock _ (List.getElem_mem hn)) (length_blockAfter i t s n) rfl
  have hblock : stageBlock t (afterStages i t s n) (blockAfter i t s n) (commandOf i).stages[n] =
      blockAfter i t s (n + 1) := (blockAfter_succ hg).symm
  rw [hblock] at hrun
  cases htr : (commandOf i).traced with
  | false =>
    rw [controllerStep_untraced hstages htr, hc.topo, hrun]
    simp [afterStages, htr]
  | true =>
    have hsnap : snapshot t (runStage t (commandOf i).stages[n] (afterStages i t s n)) =
        .next { afterStages i t s (n + 1) with sc := BitVec.ofNat 4 n } := by
      have htlen : (BitVec.ofNat 4 (n + 1)).toNat = n + 1 := toNat_counter (by omega)
      have hlt : n + 1 < 13 := by omega
      rw [hrun]
      simp only [snapshot, afterStages, htr, if_true, htlen, hlt, dif_pos,
        blockReg_fitBlock (length_blockAfter i t s (n + 1)), traceAfter_succ i t s hlt, counter_succ]
    rw [controllerStep_traced hstages htr (by rw [hc.topo]; exact hsnap)]

/-- A controller step of a command on a Block that is not its last (R146). -/
theorem exec_afterStages {i : Instr} {t : Topology} (s : State) {n : Nat}
    (hc : BlockCommand i t) (hn : n + 1 < (commandOf i).stages.length) :
    exec i (afterStages i t s n) = .next (afterStages i t s (n + 1)) := by
  have hlen := length_stages_le i
  rw [exec_busy i rfl, controllerStep_afterStages s hc (by omega), advance_of_ne, counter_succ]
  · rfl
  · rw [counter_succ, toNat_counter (by omega)]
    omega

/-- The last controller step of a command on a Block (R146, R147). -/
theorem exec_afterStages_last {i : Instr} {t : Topology} (s : State) {n : Nat}
    (hc : BlockCommand i t) (hn : (commandOf i).stages.length = n + 1) :
    exec i (afterStages i t s n) = .next (afterCommand i t s) := by
  have hlen := length_stages_le i
  rw [exec_busy i rfl, controllerStep_afterStages s hc (by omega), advance_of_eq,
    complete_of_writesRes _ hc.writesRes, counter_succ, hc.topo]
  · simp only [afterCommand, resultOf, hn, afterStages,
      blockReg_fitBlock (length_blockAfter i t s (n + 1))]
  · rw [counter_succ, toNat_counter (by omega), hn]

/-! ## A command on a Block through the host port -/

/-- The controller's turn on a running command on a Block, with no other input to take first. -/
theorem step_afterStages {i : Instr} {t : Topology} {s : State} (n : Nat)
    (hd : decode (encode i) = .ok i) (hl : GivesTurn s.inputs) :
    step (afterStages i t s n) = exec i (afterStages i t s n) := by
  rw [step_of_givesTurn (s := afterStages i t s n) hl rfl rfl,
    controllerTurn_busy (s := afterStages i t s n) rfl hd]

/-- Left to the controller, an accepted command on a Block runs its stages in order (R146). -/
theorem run_afterStages {i : Instr} {t : Topology} {s : State} (hc : BlockCommand i t)
    (hd : decode (encode i) = .ok i) (hl : GivesTurn s.inputs) {n : Nat}
    (hn : n < (commandOf i).stages.length) :
    Host.Core.run Sys2Proof.core n (afterStages i t s 0) = .next (afterStages i t s n) := by
  induction n with
  | zero => rfl
  | succ n ih =>
    rw [run_add 1 (ih (by omega))]
    exact run_succ_of_step 0 ((step_afterStages n hd hl).trans (exec_afterStages s hc hn))

/-- Left to the controller, an accepted command on a Block runs to its end (R146, R147, R207). -/
theorem run_afterCommand {i : Instr} {t : Topology} {s : State} (hc : BlockCommand i t)
    (hd : decode (encode i) = .ok i) (hl : GivesTurn s.inputs) (hne : (commandOf i).stages ≠ []) :
    Host.Core.run Sys2Proof.core (commandOf i).stages.length (afterStages i t s 0) =
      .next (afterCommand i t s) := by
  obtain ⟨n, hn⟩ := Nat.exists_eq_add_one_of_ne_zero (mt List.length_eq_zero_iff.mp hne)
  rw [hn, run_add 1 (run_afterStages hc hd hl (by omega))]
  exact run_succ_of_step 0 ((step_afterStages n hd hl).trans (exec_afterStages_last s hc hn))

/-- The host's write of a command on a Block to CMD while idle (R92, R145). -/
theorem step_issue {i : Instr} {t : Topology} {s : State} {rest : List Event}
    (hc : BlockCommand i t) (hd : decode (encode i) = .ok i) (hb : s.busy = false)
    (hcheck : (commandOf i).check s = none) (hin : s.inputs = issue i :: rest) :
    step s = .next (afterStages i t { s with inputs := rest } 0) := by
  have hcheck' : (commandOf i).check { s with inputs := rest } = none := by
    rw [← hcheck]
    exact check_congr i rfl rfl rfl rfl rfl rfl rfl rfl rfl rfl rfl rfl
  rw [step_write_cmd hb hin, BitVec.ofNat_toNat, BitVec.setWidth_eq, acceptByte_ok _ hd]
  exact exec_accept hc hb hcheck'

/-- The accesses of a call after its command has ended: the poll that ends the WAIT, and the reads of
STATUS and RES (R92, R93). -/
theorem run_wait_and_reads {s : State} {rest : List Event} (hb : s.busy = false)
    (hin : s.inputs = .wait :: .read statusNumber :: .read 0x09 :: rest) :
    Host.Core.run Sys2Proof.core 3 s =
      .next { s with inputs := rest, rdata := some s.res.toWord.toNat } := by
  rw [run_succ_of_step 2 (step_wait_idle_eq hin hb),
    run_succ_of_step 1 (step_read (reg := .status) rfl rfl),
    run_succ_of_step 0 (step_read (reg := .res) rfl rfl)]
  rfl

/-- A command on a Block, issued by the host, with its WAIT and the reads of STATUS and RES
(R92, R93). -/
theorem run_blockCommand {i : Instr} {t : Topology} {s : State} {rest : List Event}
    (hc : BlockCommand i t) (hd : decode (encode i) = .ok i) (hb : s.busy = false)
    (hcheck : (commandOf i).check s = none)
    (hin : s.inputs = issueAndWait i ++ .read 0x09 :: rest) :
    Host.Core.run Sys2Proof.core ((commandOf i).stages.length + 4) s =
      .next { afterCommand i t s with
        inputs := rest
        rdata := some (regOf t (fitBlock (resultOf i t s))).toWord.toNat } := by
  have haccept := step_issue hc hd hb hcheck hin
  have hrun := run_afterCommand hc hd (.inr ⟨_, rfl⟩) (stages_ne_nil_of_check hcheck)
    (s := { s with inputs := .wait :: .read statusNumber :: .read 0x09 :: rest })
  rw [show (commandOf i).stages.length + 4 = (commandOf i).stages.length + 3 + 1 from rfl,
    run_succ_of_step _ haccept]
  refine (run_add 3 hrun).trans ?_
  rw [run_wait_and_reads rfl rfl]
  rfl

/-! ## The operands of a call -/

/-- The nibble cells of the data field of four cells (R63). -/
theorem nibCells_nibData (v : Vector Nibble 4) : nibCells (nibData v) = v := by
  have h0 := v[0].isLt
  have h1 := v[1].isLt
  have h2 := v[2].isLt
  have h3 := v[3].isLt
  apply Vector.ext
  intro j hj
  apply BitVec.eq_of_toNat_eq
  obtain rfl | rfl | rfl | rfl : j = 0 ∨ j = 1 ∨ j = 2 ∨ j = 3 := by omega
  all_goals
    simp only [nibCells, nibData, Vector.getElem_mk, List.getElem_toArray, List.getElem_cons_zero,
      List.getElem_cons_succ, BitVec.extractLsb'_toNat, toNat_append_eq_add,
      Nat.shiftRight_eq_div_pow]
    omega

/-- A block-valued register is the one with its own word (R85). -/
@[simp] theorem BlockReg.ofWord_toWord (r : BlockReg) : BlockReg.ofWord r.toWord = r := by
  have htag : (r.len ++ nibData r.nib).extractLsb' 16 3 = r.len :=
    BitVec.extractLsb'_append_eq_left
  have hdata : (r.len ++ nibData r.nib).extractLsb' 0 16 = nibData r.nib :=
    BitVec.extractLsb'_append_eq_right
  simp only [BlockReg.ofWord, BlockReg.toWord, htag, hdata, nibCells_nibData]

/-- The host's word of a Block of arity `w` is that of the register holding it (R65, R85). -/
theorem blockWord_eq {t : Topology} {B : Block} (h : B.length = arity t) :
    blockWord B = (regOf t (fitBlock B)).toWord.toNat := by
  rw [blockWord, regOf, h]

/-- The register the host writes a Block of arity `w` to holds that Block (R65, R85). -/
theorem ofWord_blockWord {t : Topology} {B : Block} (h : B.length = arity t) :
    BlockReg.ofWord (BitVec.ofNat 19 (blockWord B)) = regOf t (fitBlock B) := by
  rw [blockWord_eq h, BitVec.ofNat_toNat, BitVec.setWidth_eq, BlockReg.ofWord_toWord]

/-- A register write leaves BUSY and the pending inputs, which play no part in it. -/
theorem writeRegister_own (r : Reg) (v : Nat) (s : State) (l : List Event) :
    (writeRegister r v s).busy = s.busy ∧ (writeRegister r v s).inputs = s.inputs ∧
      { writeRegister r v s with inputs := l } = writeRegister r v { s with inputs := l } := by
  cases r with
  | key k => cases k <;> exact ⟨rfl, rfl, rfl⟩
  | _ => exact ⟨rfl, rfl, rfl⟩

/-- The host's write of a word to a register. -/
def writeEvent (w : Reg × Nat) : Event := .write (BitVec.ofNat 7 w.1.number) w.2

/-- `s` after the host's writes to registers, one after another. -/
def afterWrites (ws : List (Reg × Nat)) (s : State) : State :=
  ws.foldl (fun u w => writeRegister w.1 w.2 u) s

/-- The host's writes to operand registers of an idle datapath, one after another (R70, R93). -/
theorem run_operandWrites {ws : List (Reg × Nat)} (hws : ∀ w ∈ ws, w.1.IsOperand) {s : State}
    {rest : List Event} (hb : s.busy = false) (hin : s.inputs = ws.map writeEvent ++ rest) :
    Host.Core.run Sys2Proof.core ws.length s =
      .next (afterWrites ws { s with inputs := rest }) := by
  induction ws generalizing s with
  | nil =>
    obtain rfl : s.inputs = rest := hin
    rfl
  | cons w ws ih =>
    obtain ⟨hw, hws⟩ := List.forall_mem_cons.mp hws
    have hne : w.1 ≠ .cmd := fun h => by simp [h, Reg.IsOperand] at hw
    have hstep := step_write_idle hin hb (registerOf_number w.1) hne
    obtain ⟨hbusy, hinputs, hrest⟩ :=
      writeRegister_own w.1 w.2 { s with inputs := ws.map writeEvent ++ rest } rest
    refine (run_succ_of_step _ hstep).trans ((ih hws (hbusy.trans hb) hinputs).trans ?_)
    rw [hrest, afterWrites, afterWrites, List.foldl_cons]

/-- The keys in the order of the key list of a call (R93). -/
def keyOrder : List KeyIndex := [.k1, .k2, .k3, .k4, .k5]

/-- The registers the operands of a pipeline call are written to, with their words (R93). -/
def operandWrites (B : Block) (keys : List Block) : List (Reg × Nat) :=
  (.blk, blockWord B) :: (keyOrder.zip keys).map fun p => (.key p.1, blockWord p.2)

/-- `s` with the operands of a pipeline call in BLK and the key registers the topology has
(R8, R93). -/
def withOperands (t : Topology) (B : Block) (keys : List Block) (s : State) : State :=
  match t with
  | .toy =>
    { s with
      blk := regOf .toy (fitBlock B)
      k1 := regOf .toy (fitBlock (keys.getD 0 []))
      k2 := regOf .toy (fitBlock (keys.getD 1 [])) }
  | .spn =>
    { s with
      blk := regOf .spn (fitBlock B)
      k1 := regOf .spn (fitBlock (keys.getD 0 []))
      k2 := regOf .spn (fitBlock (keys.getD 1 []))
      k3 := regOf .spn (fitBlock (keys.getD 2 []))
      k4 := regOf .spn (fitBlock (keys.getD 3 []))
      k5 := regOf .spn (fitBlock (keys.getD 4 [])) }

/-- The operands of a call go to operand registers. -/
theorem operandWrites_isOperand (B : Block) (keys : List Block) :
    ∀ w ∈ operandWrites B keys, w.1.IsOperand := by
  intro w hw
  rcases List.mem_cons.mp hw with rfl | hw
  · exact .inl rfl
  · obtain ⟨p, -, rfl⟩ := List.mem_map.mp hw
    exact .inr (.inl ⟨p.1, rfl⟩)

/-- A list of two or five keys, by its entries. -/
theorem keys_cases {t : Topology} {keys : List Block} (h : keys.length = keyCount t) :
    match t with
    | .toy => ∃ a b, keys = [a, b]
    | .spn => ∃ a b c d e, keys = [a, b, c, d, e] := by
  cases t with
  | toy => exact List.length_eq_two.mp h
  | spn =>
    match keys, h with
    | [a, b, c, d, e], _ => exact ⟨a, b, c, d, e, rfl⟩

/-- The operand writes of a pipeline call put its operands into their registers. -/
theorem afterWrites_operandWrites {t : Topology} {B : Block} {keys : List Block}
    (hB : B.length = arity t) (hk : keys.length = keyCount t)
    (hks : ∀ k ∈ keys, k.length = arity t) (s : State) :
    afterWrites (operandWrites B keys) s = withOperands t B keys s := by
  have hwB := ofWord_blockWord hB
  have hwK := fun k h => ofWord_blockWord (hks k h)
  cases t with
  | toy =>
    obtain ⟨a, b, rfl⟩ := keys_cases hk
    simp only [List.forall_mem_cons] at hwK
    obtain ⟨ha, hb, -⟩ := hwK
    simp [afterWrites, operandWrites, keyOrder, writeRegister, setKey, withOperands, hwB, ha, hb]
  | spn =>
    obtain ⟨a, b, c, d, e, rfl⟩ := keys_cases hk
    simp only [List.forall_mem_cons] at hwK
    obtain ⟨ha, hb, hc, hd, he, -⟩ := hwK
    simp [afterWrites, operandWrites, keyOrder, writeRegister, setKey, withOperands, hwB, ha, hb,
      hc, hd, he]

/-- The accesses of the operand writes are those of the host's sequence (R93). -/
theorem writeOperands_eq {t : Topology} (B : Block) {keys : List Block}
    (hk : keys.length = keyCount t) :
    writeOperands B keys = (operandWrites B keys).map writeEvent ∧
      (operandWrites B keys).length = keyCount t + 1 := by
  cases t with
  | toy =>
    obtain ⟨a, b, rfl⟩ := keys_cases hk
    exact ⟨rfl, rfl⟩
  | spn =>
    obtain ⟨a, b, c, d, e, rfl⟩ := keys_cases hk
    exact ⟨rfl, rfl⟩

/-- The operand writes of a pipeline call on an idle datapath, as a run (R93). -/
theorem run_writeOperands {t : Topology} {B : Block} {keys : List Block}
    (hB : B.length = arity t) (hk : keys.length = keyCount t)
    (hks : ∀ k ∈ keys, k.length = arity t) {s : State} {rest : List Event} (hb : s.busy = false)
    (hin : s.inputs = writeOperands B keys ++ rest) :
    Host.Core.run Sys2Proof.core (keyCount t + 1) s =
      .next (withOperands t B keys { s with inputs := rest }) := by
  obtain ⟨hevents, hlen⟩ := writeOperands_eq B hk
  rw [hevents] at hin
  rw [← hlen, run_operandWrites (operandWrites_isOperand B keys) hb hin,
    afterWrites_operandWrites hB hk hks]

@[simp] theorem withOperands_sbox (t : Topology) (B : Block) (keys : List Block) (s : State) :
    (withOperands t B keys s).sbox = s.sbox := by cases t <;> rfl
@[simp] theorem withOperands_sinv (t : Topology) (B : Block) (keys : List Block) (s : State) :
    (withOperands t B keys s).sinv = s.sinv := by cases t <;> rfl
@[simp] theorem withOperands_pbox (t : Topology) (B : Block) (keys : List Block) (s : State) :
    (withOperands t B keys s).pbox = s.pbox := by cases t <;> rfl
@[simp] theorem withOperands_pinv (t : Topology) (B : Block) (keys : List Block) (s : State) :
    (withOperands t B keys s).pinv = s.pinv := by cases t <;> rfl

/-- BLK holds the Block of the call. -/
theorem inputBlock_withOperands {t : Topology} {B : Block} (hB : B.length = arity t)
    (keys : List Block) (s : State) : inputBlock t (withOperands t B keys s) = B := by
  have hfit := blockOf_fitBlock_of_arity hB
  cases t <;> exact hfit

/-- The place of a key in the key list of a call, from 0 (R93). -/
def KeyIndex.place : KeyIndex → Nat
  | .k1 => 0
  | .k2 => 1
  | .k3 => 2
  | .k4 => 3
  | .k5 => 4

/-- The keys of the topology are those of the call, the other key registers are as they were
(R93). -/
theorem keyBlock_withOperands {t : Topology} {keys : List Block} (hk : keys.length = keyCount t)
    (hks : ∀ k ∈ keys, k.length = arity t) (B : Block) (s : State) (k : KeyIndex) :
    keyBlock t (withOperands t B keys s) k =
      if k.place < keyCount t then keys.getD k.place [] else keyBlock t s k := by
  split
  · rename_i h
    have hfit : blockOf (arity t) (fitBlock (keys.getD k.place [])) = keys.getD k.place [] := by
      rw [← hk] at h
      rw [List.getD_eq_getElem _ _ h]
      exact blockOf_fitBlock_of_arity (hks _ (List.getElem_mem h))
    cases t with
    | toy =>
      cases k with
      | k1 | k2 => exact hfit
      | k3 | k4 | k5 => exact absurd h (by decide)
    | spn => cases k <;> exact hfit
  · rename_i h
    cases t with
    | toy =>
      cases k with
      | k1 | k2 => exact absurd (by decide) h
      | k3 | k4 | k5 => rfl
    | spn => exact absurd (by cases k <;> decide) h

/-- The operand writes leave the tables valid. -/
theorem tablesOk_withOperands {t : Topology} {s : State} (B : Block) (keys : List Block)
    (h : pipelineTablesOk t s) : pipelineTablesOk t (withOperands t B keys s) := by
  cases t <;> exact h

/-- The operands of a call have the tags its entry checks ask for (R183). -/
theorem tagsOk_withOperands (t : Topology) (B : Block) (keys : List Block) (s : State) :
    pipelineTagsOk t (withOperands t B keys s) := by
  cases t
  · exact ⟨rfl, rfl, rfl⟩
  · exact ⟨rfl, rfl, rfl, rfl, rfl, rfl⟩

/-! ## The pipelines -/

/-- The entry checks of a pipeline pass exactly when the tables it reads are valid and the tags are
those of the topology (R183). -/
theorem pipelineCheck_eq_none {t : Topology} {s : State} :
    pipelineCheck t s = none ↔ pipelineTablesOk t s ∧ pipelineTagsOk t s := by
  cases t
  · simp [pipelineCheck, firstError_cons, pipelineTablesOk, pipelineTagsOk, State.sboxReady,
      BlockReg.hasArity]
  · simp [pipelineCheck, firstError_cons, pipelineTablesOk, pipelineTagsOk, State.sboxReady,
      State.pboxReady, topologyToBit, BlockReg.hasArity, and_assoc]

theorem onBlock_encryptStages (t : Topology) : ∀ g ∈ encryptStages t, g.OnBlock := by
  cases t <;> simp [encryptStages, Stage.OnBlock]

theorem onBlock_decryptStages (t : Topology) : ∀ g ∈ decryptStages t, g.OnBlock := by
  cases t <;> simp [decryptStages, Stage.OnBlock]

/-- The command `i` is one of the four pipelines, of topology `t` (R153, R154, R172, R173). -/
structure PipelineCommand (i : Instr) (t : Topology) : Prop extends BlockCommand i t where
  check : (commandOf i).check = pipelineCheck t
  decode : decode (encode i) = .ok i
  length : (commandOf i).stages.length = stageCount t

theorem pipelineCommand_enc (t : Topology) : PipelineCommand (.enc t) t :=
  ⟨⟨rfl, rfl, rfl, rfl, onBlock_encryptStages t⟩, rfl, decode_encode rfl, by cases t <;> rfl⟩

theorem pipelineCommand_enct (t : Topology) : PipelineCommand (.enct t) t :=
  ⟨⟨rfl, rfl, rfl, rfl, onBlock_encryptStages t⟩, rfl, decode_encode rfl, by cases t <;> rfl⟩

theorem pipelineCommand_dec (t : Topology) : PipelineCommand (.dec t) t :=
  ⟨⟨rfl, rfl, rfl, rfl, onBlock_decryptStages t⟩, rfl, decode_encode rfl, by cases t <;> rfl⟩

theorem pipelineCommand_dect (t : Topology) : PipelineCommand (.dect t) t :=
  ⟨⟨rfl, rfl, rfl, rfl, onBlock_decryptStages t⟩, rfl, decode_encode rfl, by cases t <;> rfl⟩

/-- Sixteen cells are a whole store. -/
theorem take_toList (T : Table) : T.toList.take 16 = T.toList :=
  List.take_of_length_le (by simp)

/-- The encryption stages compute the encryption function (R149, R151, R153). -/
theorem resultOf_enc (t : Topology) (s : State) : resultOf (.enc t) t s = encryptOf t s := by
  cases t
  · rfl
  · simp [resultOf, blockAfter, commandOf, encCommand, encryptStages, stageBlock, encryptOf,
      encryptSpn, roundSpn, take_toList]

/-- The decryption stages compute the decryption function (R150, R152, R154). -/
theorem resultOf_dec (t : Topology) (s : State) : resultOf (.dec t) t s = decryptOf t s := by
  cases t
  · rfl
  · simp [resultOf, blockAfter, commandOf, decCommand, decryptStages, stageBlock, decryptOf,
      decryptSpn, unroundSpn, take_toList]

/-- The Blocks in ST from the accept of a command to its end, in order (R171). -/
def snapshotsOf (i : Instr) (t : Topology) (s : State) : List Block :=
  (List.range ((commandOf i).stages.length + 1)).map (blockAfter i t s)

/-- The stages of ENCT go through the snapshots of the encryption (R171, R172). -/
theorem snapshotsOf_enct (t : Topology) (s : State) :
    snapshotsOf (.enct t) t s = encryptTraceOf t s := by
  cases t
  · rfl
  · simp [snapshotsOf, List.range_succ, blockAfter, commandOf, enctCommand, encryptStages,
      stageBlock, encryptTraceOf, encryptSpnTrace, take_toList]

/-- The stages of DECT go through the snapshots of the decryption (R171, R173). -/
theorem snapshotsOf_dect (t : Topology) (s : State) :
    snapshotsOf (.dect t) t s = decryptTraceOf t s := by
  cases t
  · rfl
  · simp [snapshotsOf, List.range_succ, blockAfter, commandOf, dectCommand, decryptStages,
      stageBlock, decryptTraceOf, decryptSpnTrace, take_toList]

/-- A whole pipeline call on an idle datapath with the tables in the stores, up to the read of RES:
the datapath is the one after the command, and the word read is that of its result (R93, R153, R154,
R172, R173). -/
theorem run_pipeline {i : Instr} {t : Topology} {B : Block} {keys : List Block}
    {rest : List Event} (hp : PipelineCommand i t) (hB : B.length = arity t)
    (hk : keys.length = keyCount t) (hks : ∀ k ∈ keys, k.length = arity t) {s : State}
    (hb : s.busy = false) (htables : pipelineTablesOk t s)
    (hin : s.inputs = writeOperands B keys ++ (issueAndWait i ++ .read 0x09 :: rest)) :
    ∃ u, Host.Core.run Sys2Proof.core (keyCount t + stageCount t + 5) s = .next u ∧
      u.inputs = rest ∧ u.rdata = some (blockWord (resultOf i t (withOperands t B keys s))) ∧
      State.datapath u = (afterCommand i t (withOperands t B keys s)).datapath := by
  have hcheck : (commandOf i).check (withOperands t B keys
      { s with inputs := issueAndWait i ++ .read 0x09 :: rest }) = none := by
    rw [hp.check, pipelineCheck_eq_none]
    exact ⟨tablesOk_withOperands B keys htables, tagsOk_withOperands t B keys _⟩
  have hcommand := run_blockCommand (rest := rest) hp.toBlockCommand hp.decode
    (by cases t <;> exact hb) hcheck (by cases t <;> rfl)
  rw [hp.length] at hcommand
  have hsteps : keyCount t + stageCount t + 5 = (keyCount t + 1) + (stageCount t + 4) := by omega
  rw [hsteps, run_add _ (run_writeOperands hB hk hks hb hin), hcommand]
  refine ⟨_, rfl, rfl, ?_, ?_⟩
  · rw [blockWord_eq (length_resultOf i t _)]
    cases t <;> rfl
  · cases t <;> rfl

/-! ## What a traced call gives -/

/-- A register written from a Block of arity `w` holds that Block (R20). -/
@[simp] theorem toBlock_regOf {t : Topology} {B : Block} (h : B.length = arity t) :
    (regOf t (fitBlock B)).toBlock = B := by
  have hlen : (regOf t (fitBlock B)).len.toNat = arity t := by cases t <;> rfl
  rw [BlockReg.toBlock, hlen]
  exact blockOf_fitBlock_of_arity h

/-- After a traced command TLEN counts the loaded Block and one snapshot for each stage (R170). -/
theorem tlen_afterCommand {i : Instr} (t : Topology) (s : State)
    (htr : (commandOf i).traced = true) :
    (afterCommand i t s).tlen.toNat = (commandOf i).stages.length + 1 := by
  have hlen := length_stages_le i
  simp only [afterCommand, afterStages, htr, if_true]
  exact toNat_counter (by omega)

/-- After a traced command TRACE[0..TLEN−1] holds the Blocks it went through, in order
(R170, R171). -/
theorem traceResult_afterCommand {i : Instr} (t : Topology) (s : State)
    (htr : (commandOf i).traced = true) :
    traceResult (afterCommand i t s) = .ok (resultOf i t s, snapshotsOf i t s) := by
  have hlen := length_stages_le i
  have htrace : ((afterCommand i t s).trace.toList.take ((commandOf i).stages.length + 1)).map
      BlockReg.toBlock = snapshotsOf i t s := by
    simp only [afterCommand, afterStages, htr, if_true]
    apply List.ext_getElem
    · simp [snapshotsOf]
      omega
    · intro j h1 h2
      have hj : j ≤ (commandOf i).stages.length := by simpa [snapshotsOf] using h2
      simp [traceAfter, snapshotsOf, hj]
  rw [traceResult, tlen_afterCommand t s htr, htrace]
  exact congrArg (fun C => Except.ok (C, snapshotsOf i t s))
    (toBlock_regOf (length_resultOf i t s))

/-- A whole traced pipeline call on an idle datapath with the tables in the stores (R93, R172,
R173). -/
theorem run_tracedPipeline {i : Instr} {t : Topology} {B : Block} {keys : List Block}
    {rest : List Event} (hp : PipelineCommand i t) (htr : (commandOf i).traced = true)
    (hB : B.length = arity t) (hk : keys.length = keyCount t)
    (hks : ∀ k ∈ keys, k.length = arity t) {s : State} (hb : s.busy = false)
    (htables : pipelineTablesOk t s)
    (hin : s.inputs =
      writeOperands B keys ++ (issueAndWait i ++ .read 0x09 :: .readTrace :: rest)) :
    ∃ u, Host.Core.run Sys2Proof.core (keyCount t + 2 * stageCount t + 7) s = .next u ∧
      u.inputs = rest ∧ u.busy = false ∧ u.done = true ∧
      traceResult u = .ok (resultOf i t (withOperands t B keys s),
        snapshotsOf i t (withOperands t B keys s)) := by
  obtain ⟨v, hrun, hvin, -, hd⟩ := run_pipeline hp hB hk hks hb htables hin
  have hresult := traceResult_afterCommand t (withOperands t B keys s) htr
  have htlen : (State.tlen v).toNat = stageCount t + 1 := by
    have hv := congrArg State.tlen hd
    rw [← hp.length, ← tlen_afterCommand t (withOperands t B keys s) htr]
    exact congrArg BitVec.toNat hv
  have h13 : stageCount t + 1 ≤ 13 := by cases t <;> decide
  have hsteps : keyCount t + 2 * stageCount t + 7 =
      (keyCount t + stageCount t + 5) + (stageCount t + 1 + 1) := by omega
  rw [hsteps, run_add _ hrun]
  exact ⟨_, run_readTrace_all htlen h13 hvin, rfl, congrArg State.busy hd, congrArg State.done hd,
    (congrArg traceResult hd).trans hresult⟩

/-! ## The calls of the pipelines -/

/-- The sequence of a pipeline call whose operands have the arities and the number the topology
needs (R93). -/
theorem pipelineSequence_eq_some {t : Topology} {B : Block} {keys : List Block} (i : Instr)
    (more : List Event) (hB : B.length = arity t) (hk : keys.length = keyCount t)
    (hks : ∀ k ∈ keys, k.length = arity t) :
    pipelineSequence i t B keys more =
      some (writeOperands B keys ++ issueAndWait i ++ .read 0x09 :: more) :=
  presentWhen_eq_some.mpr ⟨operandsPresentable_of_arity hB hk hks, rfl⟩

/-- Settles O37: the call of ENC reads its result, which is that of the encryption function. -/
theorem encryptSequenceReadsCiphertext : Obligations.EncryptSequenceReadsCiphertext := by
  intro t B keys hB hk hks
  refine ⟨_, pipelineSequence_eq_some (.enc t) [] hB hk hks, fun s rest hb htables hin => ?_⟩
  obtain ⟨u, hrun, huin, hread, hd⟩ :=
    run_pipeline (pipelineCommand_enc t) hB hk hks hb htables (by simpa using hin)
  refine ⟨u, hrun, huin, congrArg State.busy hd, congrArg State.done hd, congrArg State.err hd,
    hread.trans ?_⟩
  rw [resultOf_enc]
  cases t <;>
    simp [encryptOf, inputBlock_withOperands hB, keyBlock_withOperands hk hks, KeyIndex.place,
      keyCount]

/-- Settles O38: the call of DEC reads its result, which is that of the decryption function. -/
theorem decryptSequenceReadsPlaintext : Obligations.DecryptSequenceReadsPlaintext := by
  intro t B keys hB hk hks
  refine ⟨_, pipelineSequence_eq_some (.dec t) [] hB hk hks, fun s rest hb htables hin => ?_⟩
  obtain ⟨u, hrun, huin, hread, hd⟩ :=
    run_pipeline (pipelineCommand_dec t) hB hk hks hb htables (by simpa using hin)
  refine ⟨u, hrun, huin, congrArg State.busy hd, congrArg State.done hd, congrArg State.err hd,
    hread.trans ?_⟩
  rw [resultOf_dec]
  cases t <;>
    simp [decryptOf, inputBlock_withOperands hB, keyBlock_withOperands hk hks, KeyIndex.place,
      keyCount]

/-- Settles O59: the calls of ENCT and DECT end with the results and the snapshots of the two
functions. -/
theorem tracedSequencesReturnBlockAndSnapshots :
    Obligations.TracedSequencesReturnBlockAndSnapshots := by
  intro t B keys hB hk hks
  constructor
  · refine ⟨_, pipelineSequence_eq_some (.enct t) _ hB hk hks, fun s rest hb htables hin => ?_⟩
    obtain ⟨u, hrun, huin, hub, hud, hresult⟩ := run_tracedPipeline
      (pipelineCommand_enct t) rfl hB hk hks hb htables (by simpa using hin)
    refine ⟨u, hrun, huin, hub, hud, hresult.trans ?_⟩
    rw [snapshotsOf_enct, show resultOf (.enct t) t = resultOf (.enc t) t from rfl, resultOf_enc]
    cases t <;>
      simp [encryptOf, encryptTraceOf, inputBlock_withOperands hB, keyBlock_withOperands hk hks,
        KeyIndex.place, keyCount]
  · refine ⟨_, pipelineSequence_eq_some (.dect t) _ hB hk hks, fun s rest hb htables hin => ?_⟩
    obtain ⟨u, hrun, huin, hub, hud, hresult⟩ := run_tracedPipeline
      (pipelineCommand_dect t) rfl hB hk hks hb htables (by simpa using hin)
    refine ⟨u, hrun, huin, hub, hud, hresult.trans ?_⟩
    rw [snapshotsOf_dect, show resultOf (.dect t) t = resultOf (.dec t) t from rfl, resultOf_dec]
    cases t <;>
      simp [decryptOf, decryptTraceOf, inputBlock_withOperands hB, keyBlock_withOperands hk hks,
        KeyIndex.place, keyCount]

end Sys2Proof.Machine

/-! SUPPORT. The nibble-to-bit converter: its two pure functions as mutual inverses, the bit cells they
fill, and the commands TOBITS and TONIB built on them (40_bitconverter.md). -/

namespace Sys2Proof.Machine

/-! ## The bits of a Block -/

/-- The bits of the first nibble come first (R100). -/
theorem toBits_cons (n : Nibble) (B : Block) : toBits (n :: B) = nibbleBits n ++ toBits B := rfl

/-- Nibble `i` of a Block is at the positions `4i` to `4i + 3`, most significant bit first (R102). -/
theorem toBits_getElem? {B : Block} {i j : Nat} {n : Nibble} (hi : B[i]? = some n) (hj : j < 4) :
    (toBits B)[4 * i + j]? = some (n.getMsbD j) := by
  obtain ⟨hlt, hget⟩ := List.getElem?_eq_some_iff.mp hi
  have hp : 4 * i + j < (toBits B).length := by rw [length_toBits]; omega
  have hbit := toBits_getD B (4 * i + j)
  rw [show (4 * i + j) / 4 = i by omega, show (4 * i + j) % 4 = j by omega,
    List.getD_eq_getElem _ _ hlt, List.getD_eq_getElem _ _ hp, hget] at hbit
  rw [List.getElem?_eq_getElem hp, hbit]

/-- The bit `j` of a nibble is `(n >> (3 − j)) & 1` (R11). -/
theorem getMsbD_eq_shift (n : Nibble) {j : Nat} (hj : j < 4) :
    n.getMsbD j = ((n.toNat / 2 ^ (3 - j)) % 2 == 1) := by
  have hlsb : 4 - 1 - j = 3 - j := rfl
  rw [BitVec.getMsbD, hlsb, BitVec.getLsbD, Nat.testBit_eq_decide_div_mod_eq]
  simp [hj, beq_eq_decide]

/-- Settles O47: position `4i + j` holds bit `j` of nibble `i`. -/
theorem toBitsExpandsMsbFirst : Obligations.ToBitsExpandsMsbFirst :=
  fun B => ⟨length_toBits B, fun _ _ n hi hj => by
    rw [toBits_getElem? hi hj, getMsbD_eq_shift n hj]⟩

/-! ## The nibbles of a bit sequence -/

/-- The nibble `8·a + 4·b + 2·c + d` does not overflow its four bits (R101). -/
theorem toNat_nibbleOfBits (a b c d : Bool) :
    (nibbleOfBits a b c d).toNat = 8 * a.toNat + 4 * b.toNat + 2 * c.toNat + d.toNat := by
  revert a b c d
  decide

theorem toNibbles_of_length {V : BitString} (h : V.length % 4 = 0) :
    toNibbles V = .ok (packNibbles V) := if_pos h

theorem toNibbles_of_length_ne {V : BitString} (h : V.length % 4 ≠ 0) :
    toNibbles V = .error .invalidLength := if_neg h

/-- Nibble `i` is packed from the four positions from `4i` on (R101). -/
theorem eq_nibbleOfBits_of_packNibbles {V : BitString} {i : Nat} {n : Nibble}
    (h : (packNibbles V)[i]? = some n) :
    n = nibbleOfBits (V.getD (4 * i) false) (V.getD (4 * i + 1) false)
      (V.getD (4 * i + 2) false) (V.getD (4 * i + 3) false) := by
  fun_induction packNibbles V generalizing i with
  | case1 a b c d rest ih =>
    cases i with
    | zero => exact (Option.some.inj h).symm
    | succ i => exact ih h
  | case2 V _ => simp at h

/-- Settles O48: the length check decides between the packed nibbles and InvalidLength. -/
theorem toNibblesPacksOrFails : Obligations.ToNibblesPacksOrFails :=
  ⟨fun V hV => ⟨packNibbles V, toNibbles_of_length hV, length_packNibbles V, fun _ _ hn => by
      rw [eq_nibbleOfBits_of_packNibbles hn, toNat_nibbleOfBits]⟩,
    fun _ hV => toNibbles_of_length_ne hV⟩

/-! ## The two functions as inverses -/

/-- The nibble packed from the bits of a nibble (R102). -/
theorem nibbleOfBits_nbit (n : Nibble) :
    nibbleOfBits (nbit n 0) (nbit n 1) (nbit n 2) (nbit n 3) = n := by
  revert n
  decide

/-- The bits of a packed nibble (R102). -/
theorem nibbleBits_nibbleOfBits (a b c d : Bool) :
    nibbleBits (nibbleOfBits a b c d) = [a, b, c, d] := by
  revert a b c d
  decide

/-- Packing undoes expanding, nibble by nibble (R102). -/
@[simp] theorem packNibbles_toBits (B : Block) : packNibbles (toBits B) = B := by
  induction B with
  | nil => rfl
  | cons n B ih =>
    calc packNibbles (toBits (n :: B))
      _ = nibbleOfBits (nbit n 0) (nbit n 1) (nbit n 2) (nbit n 3) :: packNibbles (toBits B) := rfl
      _ = n :: B := by rw [nibbleOfBits_nbit, ih]

/-- Expanding undoes packing, four bits by four bits (R102). -/
theorem toBits_packNibbles {V : BitString} (h : V.length % 4 = 0) : toBits (packNibbles V) = V := by
  fun_induction packNibbles V with
  | case1 a b c d rest ih =>
    have hrest : rest.length % 4 = 0 := by
      simp only [List.length_cons] at h
      omega
    rw [toBits_cons, nibbleBits_nibbleOfBits, ih hrest]
    rfl
  | case2 V hshort =>
    have hlen := length_packNibbles V
    rw [packNibbles.eq_2 V hshort, List.length_nil] at hlen
    exact (List.eq_nil_of_length_eq_zero (by omega)).symm

/-- Settles O49: each function undoes the other four positions at a time. -/
theorem convertersAreMutuallyInverse : Obligations.ConvertersAreMutuallyInverse := by
  refine ⟨fun B => ?_, fun V B hV hB => ?_, fun _ _ _ _ hi hj => toBits_getElem? hi hj⟩
  · have hlen : (toBits B).length % 4 = 0 := by rw [length_toBits]; omega
    rw [toNibbles_of_length hlen, packNibbles_toBits]
  · rw [toNibbles_of_length hV] at hB
    rw [← Except.ok.inj hB, toBits_packNibbles hV]

/-! ## Bit cells and nibble cells -/

/-- The bit cells of an expanded Block are the bits of its nibble cells (R62, R64). -/
theorem fitBits_toBits (B : Block) (p : Fin 16) : (fitBits (toBits B))[p] = bitAt (fitBlock B) p := by
  simp only [bitAt, Fin.getElem_fin, fitBits_getElem, fitBlock_getElem, toBits_getD]

/-- The active cells hold the bits below `4w`, and zero bits above (R62). -/
theorem bitAt_activeCells (t : Topology) (v : Vector Nibble 4) (p : Fin 16) :
    bitAt (activeCells t v) p = if p.val < 4 * arity t then bitAt v p else false := by
  have hlane : p.val / 4 < arity t ↔ p.val < 4 * arity t := by omega
  simp only [bitAt, activeCells, Vector.getElem_ofFn, hlane]
  split
  · rfl
  · exact BitVec.getMsbD_zero

/-- Reading back the bits of a BitVector from its cells (R78). -/
theorem take_fitBits {V : BitString} (h : V.length ≤ 16) :
    (fitBits V).toList.take V.length = V := by
  apply List.ext_getElem
  · simp [h]
  · intro p _ hp
    simp [fitBits_getElem, hp]

/-- A Block stored over cleared cells leaves its own cells (R104). -/
theorem storeBlock_replicate_zero (B : Block) :
    storeBlock B (Vector.replicate 4 0) = fitBlock B := by
  apply Vector.ext
  intro i hi
  simp [storeBlock_getElem, fitBlock_getElem]

/-! ## The other bytes of an opcode, and the failing accept step -/

/-- An operation with no argument has the two bytes of its topologies (R81, R83). -/
theorem otherBytesAreIllegal_plain {op : Nat} (hop : op = 1 ∨ op = 2 ∨ op = 4) :
    OtherBytesAreIllegal op [BitVec.ofNat 8 (16 * op), BitVec.ofNat 8 (16 * op + 8)] := by
  intro v hv hlegal
  have harg : v.toNat % 8 ≠ 0 := by
    intro h0
    have hcases : v.toNat = 16 * op ∨ v.toNat = 16 * op + 8 := by omega
    refine hlegal ?_
    rcases hcases with h | h <;> simp [← h]
  have hdec : ∃ e, decode v = .error e := exists_decode_error.mpr (by omega)
  obtain ⟨e, he⟩ := hdec
  exact ⟨⟨e, he⟩, fun s => acceptByte_error s he⟩

/-- A failing accept step of a command that clears no valid bit changes IR, DONE and ERR alone
(R182). -/
theorem exec_fails_of_clear_id {i : Instr} {s : State} {e : ErrorCode} (hb : s.busy = false)
    (hcl : (commandOf i).clear = id) (hc : (commandOf i).check s = some e) :
    exec i s = .next (failedWith i e.code s) := by
  rw [exec_idle i hb, accept_of_check_some hc, hcl]
  rfl

/-! ## TOBITS -/

/-- The entry check of TOBITS (R103, R183). -/
theorem check_tobits (t : Topology) (s : State) :
    (commandOf (.tobits t)).check s =
      if s.blk.len.toNat = arity t then none else some .invalidLength := by
  simp [commandOf, tobitsCommand, require, BlockReg.hasArity]

/-- `s` after a whole TOBITS that passed its check (R103, R147). -/
def afterTobits (t : Topology) (s : State) : State :=
  { acceptedBlock (.tobits t) t s with
    rbits := bitReg t (toBits (inputBlock t s))
    sc := 1
    busy := false
    done := true }

/-- The accept step of TOBITS (R103, R145). -/
theorem exec_tobits_idle {t : Topology} {s : State} (hb : s.busy = false)
    (h : s.blk.len.toNat = arity t) :
    exec (.tobits t) s = .next (acceptedBlock (.tobits t) t s) :=
  exec_accept_block hb ((check_tobits t s).trans (if_pos h)) rfl rfl rfl rfl

/-- The one controller step of TOBITS (R103, R146, R147). -/
theorem exec_tobits_accepted (t : Topology) (s : State) :
    exec (.tobits t) (acceptedBlock (.tobits t) t s) = .next (afterTobits t s) := by
  have hrun : runStage t .cvtb (acceptedBlock (.tobits t) t s) =
      { acceptedBlock (.tobits t) t s with rbits := bitReg t (toBits (inputBlock t s)) } := by
    simp [runStage, stageCvtb, acceptedBlock, inputBlock]
  rw [exec_busy _ rfl, controllerStep_untraced (stage := .cvtb) rfl rfl,
    show (commandOf (.tobits t)).topo = t from rfl, hrun, advance_of_eq rfl,
    complete_of_not_writesRes _ rfl]
  rfl

/-- RBITS after TOBITS: the bits of BLK below `4w`, zero above (R86, R103). -/
theorem bitReg_inputBlock_bit (t : Topology) (s : State) (p : Fin 16) :
    (bitReg t (toBits (inputBlock t s))).bit[p] =
      if p.val < 4 * arity t then bitAt s.blk.nib p else false := by
  rw [bitReg, inputBlock, fitBits_toBits, fitBlock_blockOf, bitAt_activeCells]

/-- The length tag `4w` fits its five bits (R21). -/
theorem toNat_bitReg_len (t : Topology) (V : BitString) : (bitReg t V).len.toNat = 4 * arity t := by
  cases t <;> rfl

/-- Settles O14: the check passes exactly on the tag `w`, and the one stage writes RBITS. -/
theorem tobitsWritesBitsOfBlk : Obligations.TobitsWritesBitsOfBlk := by
  refine ⟨rfl, rfl, otherBytesAreIllegal_plain (.inl rfl), fun t s hb => ⟨fun h => ?_, fun h => ?_⟩⟩
  · exact ⟨exec_tobits_idle hb h, bitReg t (toBits (inputBlock t s)), toNat_bitReg_len t _,
      bitReg_inputBlock_bit t s, exec_tobits_accepted t s⟩
  · exact exec_fails_of_clear_id hb rfl ((check_tobits t s).trans (if_neg h))

/-! ## TONIB -/

/-- The entry check of TONIB (R104, R183). -/
theorem check_tonib (t : Topology) (s : State) :
    (commandOf (.tonib t)).check s =
      if s.bits.len.toNat = 4 * arity t then none else some .invalidLength := by
  simp [commandOf, tonibCommand, require, BitReg.hasLength]

/-- The BitVector of length `4w` in BITS (R21, R104). -/
def inputBits (t : Topology) (s : State) : BitString := s.bits.bit.toList.take (4 * arity t)

@[simp] theorem length_inputBits (t : Topology) (s : State) :
    (inputBits t s).length = 4 * arity t := by
  cases t <;> simp [inputBits]

/-- The cells TONIB leaves in ST and RES (R104). -/
def nibblesOfBits (t : Topology) (s : State) : Vector Nibble 4 :=
  fitBlock (packNibbles (inputBits t s))

/-- `s` after the accept of a TONIB that passed its check (R104, R145). -/
def acceptedTonib (t : Topology) (s : State) : State :=
  { s with
    ir := encode (.tonib t)
    done := false
    err := 0
    busy := true
    sc := 0
    st := Vector.replicate 4 0 }

/-- The accept step of TONIB (R104, R145). -/
theorem exec_tonib_idle {t : Topology} {s : State} (hb : s.busy = false)
    (h : s.bits.len.toNat = 4 * arity t) :
    exec (.tonib t) s = .next (acceptedTonib t s) := by
  rw [exec_idle _ hb, accept_of_check_none ((check_tonib t s).trans (if_pos h))]
  rfl

/-- The one controller step of TONIB (R104, R146, R147). -/
theorem exec_tonib_accepted (t : Topology) (s : State) :
    exec (.tonib t) (acceptedTonib t s) =
      .next (finishedBlock (.tonib t) t 1 (nibblesOfBits t s) s) := by
  have hrun : runStage t .cvtn (acceptedTonib t s) =
      { acceptedTonib t s with st := nibblesOfBits t s } := by
    simp only [runStage, stageCvtn, acceptedTonib, storeBlock_replicate_zero]
    rfl
  have hres : blockReg t (nibblesOfBits t s) = regOf t (nibblesOfBits t s) :=
    blockReg_fitBlock (by simp)
  rw [exec_busy _ rfl, controllerStep_untraced (stage := .cvtn) rfl rfl,
    show (commandOf (.tonib t)).topo = t from rfl, hrun, advance_of_eq rfl,
    complete_of_writesRes _ rfl, show (commandOf (.tonib t)).topo = t from rfl]
  simp only [hres]
  rfl

/-- The cells of the result hold the bits of BITS below `4w`, and zero bits above (R104). -/
theorem bitAt_nibblesOfBits (t : Topology) (s : State) (p : Fin 16) :
    bitAt (nibblesOfBits t s) p = if p.val < 4 * arity t then s.bits.bit[p] else false := by
  have hlen : (inputBits t s).length % 4 = 0 := by rw [length_inputBits]; omega
  rw [nibblesOfBits, ← fitBits_toBits, toBits_packNibbles hlen, Fin.getElem_fin, fitBits_getElem]
  split
  case isTrue h => simp [inputBits, h]
  case isFalse h => exact List.getD_eq_default _ _ (by rw [length_inputBits]; omega)

/-- Settles O15: the check passes exactly on the length `4w`, and the one stage packs BITS into the
cleared ST. -/
theorem tonibWritesNibblesOfBits : Obligations.TonibWritesNibblesOfBits := by
  refine ⟨rfl, rfl, otherBytesAreIllegal_plain (.inr (.inl rfl)),
    fun t s hb => ⟨fun h => ?_, fun h => ?_⟩⟩
  · exact ⟨acceptedTonib t s, rfl, exec_tonib_idle hb h, nibblesOfBits t s,
      bitAt_nibblesOfBits t s, exec_tonib_accepted t s⟩
  · exact exec_fails_of_clear_id hb rfl ((check_tonib t s).trans (if_neg h))

/-! ## TOBITS, the copy and TONIB -/

/-- A whole command of one stage: its accept step and its controller step. -/
theorem execTimes_two {i : Instr} {s a u : State} (ha : exec i s = .next a)
    (hu : exec i a = .next u) : execTimes 2 i s = .next u := by
  rw [execTimes_succ_of_next 1 ha, execTimes_succ_of_next 0 hu]
  rfl

/-- What TONIB makes of the bits TOBITS left: the active cells of BLK (R105). -/
theorem nibblesOfBits_of_rbits (t : Topology) (s : State) :
    nibblesOfBits t { afterTobits t s with bits := (afterTobits t s).rbits } =
      activeCells t s.blk.nib := by
  have hlen : (toBits (inputBlock t s)).length = 4 * arity t := by
    rw [length_toBits, inputBlock, length_blockOf (arity_le t)]
  have hbits : inputBits t { afterTobits t s with bits := (afterTobits t s).rbits } =
      toBits (inputBlock t s) := by
    have htake := take_fitBits (V := toBits (inputBlock t s))
      (by have := arity_le t; omega)
    rwa [hlen] at htake
  rw [nibblesOfBits, hbits, packNibbles_toBits, inputBlock, fitBlock_blockOf]

/-- Settles O16: TONIB packs the bits TOBITS expanded, so RES holds the nibbles of BLK. -/
theorem tobitsThenTonibReturnsBlock : Obligations.TobitsThenTonibReturnsBlock := by
  intro t s hb h
  refine ⟨_, _, execTimes_two (exec_tobits_idle hb h) (exec_tobits_accepted t s),
    execTimes_two (exec_tonib_idle rfl (toNat_bitReg_len t _)) (exec_tonib_accepted t _), ?_⟩
  exact congrArg (regOf t) (nibblesOfBits_of_rbits t s)

end Sys2Proof.Machine

/-! SUPPORT. Tables: a valid table and its computed inverse, and the commands VSBOX and VPBOX that
build them from the candidate (41_tables.md). -/

namespace Sys2Proof.Machine

/-! ## A table and its inverse -/

/-- An index of a table of at most 16 entries fits a nibble (R61). -/
theorem toNat_ofNat_index {i : Nat} (hi : i < 16) : (BitVec.ofNat 4 i).toNat = i :=
  Nat.mod_eq_of_lt hi

/-- A table is valid when its entries are in range and distinct (R110). -/
theorem isPerm_entries_iff (T : List Nibble) :
    IsPerm (T.map fun x => x.toNat) T.length ↔
      (∀ i < T.length, (T.getD i 0).toNat < T.length) ∧
      (∀ i < T.length, ∀ j < T.length, (T.getD i 0).toNat = (T.getD j 0).toNat → i = j) := by
  have hget : ∀ i, ∀ h : i < T.length, T.getD i 0 = T[i] := fun i h => List.getD_eq_getElem _ _ h
  constructor
  · rintro ⟨-, hrange, hnodup⟩
    refine ⟨fun i hi => ?_, fun i hi j hj he => ?_⟩
    · rw [hget i hi]
      exact hrange _ (List.mem_map_of_mem (List.getElem_mem hi))
    · rw [hget i hi, hget j hj] at he
      exact (hnodup.getElem_inj_iff (hi := by simpa) (hj := by simpa)).mp (by simpa using he)
  · rintro ⟨hrange, hinj⟩
    refine ⟨List.length_map _, fun x hx => ?_, List.nodup_iff_injective_getElem.mpr ?_⟩
    · obtain ⟨n, hn, rfl⟩ := List.mem_map.mp hx
      obtain ⟨i, hi, rfl⟩ := List.mem_iff_getElem.mp hn
      rw [← hget i hi]
      exact hrange i hi
    · rintro ⟨i, hi⟩ ⟨j, hj⟩ he
      rw [List.length_map] at hi hj
      simp only [List.getElem_map, ← hget i hi, ← hget j hj] at he
      exact Fin.ext (hinj i hi j hj he)

/-- Every value below the size of a valid table is one of its entries: `N` distinct values below `N`
are all of them. -/
theorem exists_entry_of_isPerm {T : List Nibble} (h : IsPerm (T.map fun x => x.toNat) T.length)
    {y : Nat} (hy : y < T.length) : ∃ i < T.length, (T.getD i 0).toNat = y := by
  obtain ⟨hlen, hrange, hnodup⟩ := h
  have hsub : T.map (fun x => x.toNat) ⊆ List.range T.length :=
    fun x hx => List.mem_range.mpr (hrange x hx)
  have hperm : (T.map fun x => x.toNat).Perm (List.range T.length) :=
    (List.subperm_of_subset hnodup hsub).perm_of_length_le (by simp)
  obtain ⟨n, hn, rfl⟩ := List.mem_map.mp (hperm.mem_iff.mpr (List.mem_range.mpr hy))
  obtain ⟨i, hi, rfl⟩ := List.mem_iff_getElem.mp hn
  exact ⟨i, hi, by rw [List.getD_eq_getElem _ _ hi]⟩

/-- `I[T[i]] = i`: the loop of R111 writes the cell `T[i]` once. -/
theorem inverse_getD_entry {T : List Nibble} (h : IsPerm (T.map fun x => x.toNat) T.length)
    {i : Nat} (hi : i < T.length) :
    (inverse T).getD (T.getD i 0).toNat 0 = BitVec.ofNat 4 i := by
  obtain ⟨hrange, hinj⟩ := (isPerm_entries_iff T).mp h
  have hcell := getElem?_foldl_set (fun k => (T.getD k 0).toNat) (fun k => BitVec.ofNat 4 k)
    T.length (List.replicate T.length 0) hinj hi (by simpa using hrange i hi)
  rw [List.getD_eq_getElem?_getD, inverse, hcell]
  rfl

/-- `T[I[y]] = y`: every `y` is some `T[i]`, and `I[y]` is that `i` (R112). -/
theorem getD_inverse_entry {T : List Nibble} (hT : T.length ≤ 16)
    (h : IsPerm (T.map fun x => x.toNat) T.length) {y : Nat} (hy : y < T.length) :
    ((inverse T).getD y 0).toNat < T.length ∧
      (T.getD ((inverse T).getD y 0).toNat 0).toNat = y := by
  obtain ⟨i, hi, rfl⟩ := exists_entry_of_isPerm h hy
  rw [inverse_getD_entry h hi, toNat_ofNat_index (by omega)]
  exact ⟨hi, rfl⟩

/-- The inverse of a valid table is valid: `T` maps its entries back to their indices (R112). -/
theorem isPerm_inverse {T : List Nibble} (hT : T.length ≤ 16)
    (h : IsPerm (T.map fun x => x.toNat) T.length) :
    IsPerm ((inverse T).map fun x => x.toNat) (inverse T).length := by
  rw [isPerm_entries_iff, length_inverse]
  refine ⟨fun y hy => (getD_inverse_entry hT h hy).1, fun y hy z hz he => ?_⟩
  rw [← (getD_inverse_entry hT h hy).2, he, (getD_inverse_entry hT h hz).2]

/-- The inverse of the inverse is the table: its entry at `x = I[T[x]]` is `T[x]` (R112). -/
theorem inverse_inverse {T : List Nibble} (hT : T.length ≤ 16)
    (h : IsPerm (T.map fun x => x.toNat) T.length) : inverse (inverse T) = T := by
  refine List.ext_getElem (by simp) fun x hx hxT => ?_
  have hentry : (T.getD x 0).toNat < (inverse T).length := by
    rw [length_inverse]
    exact ((isPerm_entries_iff T).mp h).1 x hxT
  have hcell := inverse_getD_entry (isPerm_inverse hT h) hentry
  rw [inverse_getD_entry h hxT, toNat_ofNat_index (by omega), List.getD_eq_getElem _ _ hx,
    List.getD_eq_getElem _ _ hxT, BitVec.ofNat_toNat, BitVec.setWidth_eq] at hcell
  exact hcell

/-- Settles O50: the loop of R111 writes every cell of the inverse once. -/
theorem inverseTableLaws : Obligations.InverseTableLaws := by
  intro T hT h
  refine ⟨fun x hx => ⟨?_, (getD_inverse_entry hT h hx).2⟩, ?_, inverse_inverse hT h⟩
  · rw [inverse_getD_entry h hx]
    exact toNat_ofNat_index (by omega)
  · have hI := isPerm_inverse hT h
    rwa [length_inverse] at hI

/-! ## The table commands -/

/-- The entry check of VSBOX and VPBOX: the candidate's `N` entries are at most `N − 1` and distinct
(R110, R183). -/
theorem candidateOk_iff_entries (s : State) {N : Nat} (hN : N ≤ 16) (hpos : 0 < N) :
    s.candidateOk N = true ↔
      s.candlen.toNat = N ∧
      (∀ i : Fin 16, i.val < N → (s.cand[i]).toNat ≤ N - 1) ∧
      (∀ i j : Fin 16, i.val < N → j.val < N → s.cand[i] = s.cand[j] → i = j) := by
  rw [candidateOk_iff s hN]
  refine and_congr Iff.rfl (and_congr ?_ ?_)
  · exact ⟨fun h i hi => Nat.le_pred_of_lt (h i.val i.isLt hi),
      fun h i hi hin => Nat.lt_of_le_pred hpos (h ⟨i, hi⟩ hin)⟩
  · exact ⟨fun h i j hi hj he => Fin.ext (h i.val j.val i.isLt j.isLt hi hj (congrArg _ he)),
      fun h i j hi hj hin hjn he =>
        congrArg Fin.val (h ⟨i, hi⟩ ⟨j, hj⟩ hin hjn (BitVec.eq_of_toNat_eq he))⟩

/-- A checked candidate's entries fit the cells of the store (R78 e). -/
theorem toNat_forwardStore {s : State} {N : Nat} (hN : N ≤ 16) (hc : s.candidateOk N = true)
    (i : Fin 16) (hi : i.val < N) : ((forwardStore s.cand N)[i]).toNat = (s.cand[i]).toNat := by
  obtain ⟨-, hrange, -⟩ := (candidateOk_iff s hN).mp hc
  have hlt := hrange i.val i.isLt hi
  rw [Fin.getElem_fin, forwardStore_getElem, if_pos hi, BitVec.toNat_setWidth]
  exact Nat.mod_eq_of_lt (by omega)

/-- The first lines of the accept step and the clearing of a valid bit write different fields
(R145). -/
theorem clear_beginAccept (i : Instr) (v : Byte) (s : State) :
    (commandOf i).clear (beginAccept v s) =
      { (commandOf i).clear s with ir := v, done := false, err := 0 } := by
  rcases clear_eq i with h | h | h <;> rw [h] <;> rfl

/-- `s` after the accept of a command that passed its checks and leaves ST (R145). -/
def acceptedKeep (i : Instr) (s : State) : State :=
  { (commandOf i).clear s with ir := encode i, done := false, err := 0, busy := true, sc := 0 }

/-- The accept step of a table command that passes its check: ST is not loaded (R145). -/
theorem exec_accept_keep {i : Instr} {s : State} (hb : s.busy = false)
    (hc : (commandOf i).check s = none) (hl : (commandOf i).load = .keep)
    (htr : (commandOf i).traced = false) :
    exec i s = .next (acceptedKeep i s) := by
  rw [exec_idle i hb, accept_of_check_none hc, clear_beginAccept]
  simp only [begin, hl, htr, loadWork, Bool.false_eq_true, if_false]
  rfl

/-- The accept step of a command that fails its check, with its valid bit cleared (R145, R182). -/
theorem exec_fails_with_clear {i : Instr} {s : State} {e : ErrorCode} (hb : s.busy = false)
    (hc : (commandOf i).check s = some e) :
    exec i s = .next (failedWith i e.code ((commandOf i).clear s)) := by
  rw [exec_idle i hb, accept_of_check_some hc, clear_beginAccept]
  rfl

/-- The one controller step of a one-stage command that writes no RES (R146, R147). -/
theorem exec_acceptedKeep {i : Instr} {g : Stage} (hst : (commandOf i).stages = [g])
    (htr : (commandOf i).traced = false) (hw : (commandOf i).writesRes = false) (s : State) :
    exec i (acceptedKeep i s) = .next { runStage (commandOf i).topo g (acceptedKeep i s) with
      sc := 1, busy := false, done := true } := by
  obtain ⟨-, -, -, -, -, -, -, -, -, -, hsc, -⟩ := runStage_frame (commandOf i).topo g
    (acceptedKeep i s)
  rw [exec_busy i rfl, controllerStep_untraced (stage := g) (by rw [hst]; rfl) htr,
    advance_of_eq (by rw [hsc, hst]; rfl), complete_of_not_writesRes _ hw]
  simp only [hsc]
  rfl

/-! ## VSBOX -/

/-- VSBOX has one byte; with bit 3 or an argument set it is illegal (R81, R83). -/
theorem otherBytesAreIllegal_vsbox : OtherBytesAreIllegal 3 [0x30] := by
  intro v hv hlegal
  have hne : v.toNat ≠ 0x30 := fun h =>
    hlegal (List.mem_singleton.mpr (BitVec.eq_of_toNat_eq h))
  have hdec : ∃ e, decode v = .error e := exists_decode_error.mpr (by omega)
  obtain ⟨e, he⟩ := hdec
  exact ⟨⟨e, he⟩, fun s => acceptByte_error s he⟩

/-- The entry check of VSBOX (R113, R183). -/
theorem check_vsbox (s : State) :
    (commandOf .vsbox).check s = if s.candidateOk 16 then none else some .invalidTable := rfl

/-- The entry check of VSBOX is R113's premise. -/
theorem candidateOk_sixteen_iff (s : State) :
    s.candidateOk 16 = true ↔
      s.candlen.toNat = 16 ∧ (∀ i : Fin 16, (s.cand[i]).toNat ≤ 15) ∧
        (∀ i j : Fin 16, s.cand[i] = s.cand[j] → i = j) := by
  simp [candidateOk_iff_entries s le_rfl]

/-- Settles O17: the check is R113's premise, and the one stage writes the two stores of the checked
candidate. -/
theorem vsboxBuildsTableAndInverse : Obligations.VsboxBuildsTableAndInverse := by
  refine ⟨rfl, otherBytesAreIllegal_vsbox, fun s hb => ?_⟩
  rw [← candidateOk_sixteen_iff]
  refine ⟨fun hc => ?_, fun hc => ?_⟩
  · have hpair := tablePair_of_candidateOk s le_rfl hc s.sinv
    exact ⟨acceptedKeep .vsbox s, rfl,
      exec_accept_keep hb ((check_vsbox s).trans (if_pos hc)) rfl rfl,
      forwardStore s.cand 16, inverseStore s.cand 16 s.sinv,
      fun i => toNat_forwardStore le_rfl hc i i.isLt, fun i => hpair.inverse i i.isLt,
      exec_acceptedKeep (g := .blds) rfl rfl rfl s⟩
  · exact exec_fails_with_clear hb ((check_vsbox s).trans (if_neg hc))

/-! ## VPBOX -/

/-- The entry check of VPBOX (R114, R183). -/
theorem check_vpbox (t : Topology) (s : State) :
    (commandOf (.vpbox t)).check s =
      if s.candidateOk (4 * arity t) then none else some .invalidTable := rfl

/-- Settles O18: the check is R114's premise, and the one stage writes the two stores of the checked
candidate, PT and PVALID. -/
theorem vpboxBuildsTableAndInverse : Obligations.VpboxBuildsTableAndInverse := by
  refine ⟨rfl, rfl, otherBytesAreIllegal_plain (.inr (.inr rfl)), fun t s hb => ?_⟩
  have hN : 4 * arity t ≤ 16 := by have := arity_le t; omega
  have hpos : 0 < 4 * arity t := by have := arity_pos t; omega
  rw [← candidateOk_iff_entries s hN hpos]
  refine ⟨fun hc => ?_, fun hc => ?_⟩
  · have hpair := tablePair_of_candidateOk s hN hc s.pinv
    exact ⟨acceptedKeep (.vpbox t) s, rfl,
      exec_accept_keep hb ((check_vpbox t s).trans (if_pos hc)) rfl rfl,
      forwardStore s.cand (4 * arity t), inverseStore s.cand (4 * arity t) s.pinv,
      toNat_forwardStore hN hc, hpair.inverse, hpair.rest,
      exec_acceptedKeep (g := .bldp) rfl rfl rfl s⟩
  · exact exec_fails_with_clear hb ((check_vpbox t s).trans (if_neg hc))

end Sys2Proof.Machine

/-! SUPPORT. The three round primitives as functions on Blocks: key mixing as an involution,
substitution and permutation undone by the inverse table (42_round_primitives.md rules R125 to
R131). -/

namespace Sys2Proof.Machine

/-! ## Key mixing -/

theorem mixKey_of_length_eq {B K : Block} (h : B.length = K.length) :
    mixKey B K = .ok (xorBlocks B K) := if_pos h

theorem mixKey_of_length_ne {B K : Block} (h : B.length ≠ K.length) :
    mixKey B K = .error .invalidLength := if_neg h

/-- Nibble `i` of the mixed Block (R125). -/
theorem xorBlocks_getD {B K : Block} {i : Nat} (hB : i < B.length) (hK : i < K.length) :
    (xorBlocks B K).getD i 0 = B.getD i 0 ^^^ K.getD i 0 := by
  simp [xorBlocks, List.getD_eq_getElem?_getD, hB, hK]

/-- Mixing the same key twice gives the Block back (R126). -/
theorem xorBlocks_xorBlocks {B K : Block} (h : B.length = K.length) :
    xorBlocks (xorBlocks B K) K = B := by
  refine List.ext_getElem (by simp [h]) fun i _ hi => ?_
  simp [xorBlocks]

theorem xorBlocks_zero (B : Block) : xorBlocks B (List.replicate B.length 0) = B := by
  refine List.ext_getElem (by simp) fun i _ hi => ?_
  simp [xorBlocks]

theorem xorBlocks_self (B : Block) : xorBlocks B B = List.replicate B.length 0 := by
  refine List.ext_getElem (by simp) fun i _ hi => ?_
  simp [xorBlocks]

theorem xorBlocks_comm (B K : Block) : xorBlocks B K = xorBlocks K B :=
  List.zipWith_comm_of_comm fun b k => BitVec.xor_comm b k

/-- Settles O51: `mixKey` is the nibble-wise exclusive-or behind a length check. -/
theorem mixKeyIsInvolution : Obligations.MixKeyIsInvolution := by
  refine ⟨fun B K h => mixKey_of_length_ne h, fun B K h => ⟨?_, ?_, ?_, ?_⟩⟩
  · have hlen : (xorBlocks B K).length = B.length := by simp [h]
    refine ⟨xorBlocks B K, mixKey_of_length_eq h, hlen, ?_, fun i hi => xorBlocks_getD hi (h ▸ hi)⟩
    rw [mixKey_of_length_eq (hlen.trans h), xorBlocks_xorBlocks h]
  · rw [mixKey_of_length_eq (by simp), xorBlocks_zero]
  · rw [mixKey_of_length_eq rfl, xorBlocks_self]
  · rw [mixKey_of_length_eq h, mixKey_of_length_eq h.symm, xorBlocks_comm]

/-! ## Tables of a given size -/

/-- Lists of one length that agree at every index are equal. -/
theorem ext_getD {α : Type} {d : α} {l m : List α} (hlen : l.length = m.length)
    (h : ∀ i < m.length, l.getD i d = m.getD i d) : l = m :=
  List.ext_getElem hlen fun i hl hm => by
    have hi := h i hm
    rwa [List.getD_eq_getElem _ _ hl, List.getD_eq_getElem _ _ hm] at hi

/-- A valid table has as many entries as its size (R110). -/
theorem length_of_isPerm {T : List Nibble} {N : Nat} (h : IsPerm (T.map fun x => x.toNat) N) :
    T.length = N := by
  obtain ⟨hlen, -⟩ := h
  rwa [List.length_map] at hlen

/-- The inverse of a valid table of size `N` is one (R112). -/
theorem isPerm_inverse_of_isPerm {T : List Nibble} {N : Nat} (hN : N ≤ 16)
    (h : IsPerm (T.map fun x => x.toNat) N) : IsPerm ((inverse T).map fun x => x.toNat) N := by
  obtain rfl := length_of_isPerm h
  simpa only [length_inverse] using isPerm_inverse hN h

/-- The inverse of the inverse of a valid table of size `N` is the table (R112). -/
theorem inverse_inverse_of_isPerm {T : List Nibble} {N : Nat} (hN : N ≤ 16)
    (h : IsPerm (T.map fun x => x.toNat) N) : inverse (inverse T) = T := by
  obtain rfl := length_of_isPerm h
  exact inverse_inverse hN h

/-- Entry `i` of the identity table is `i`. -/
theorem identity_getD {N i : Nat} (hi : i < N) :
    ((List.range N).map fun i => BitVec.ofNat 4 i).getD i 0 = BitVec.ofNat 4 i := by
  simp [List.getD_eq_getElem?_getD, hi]

/-- The identity table is valid (R110). -/
theorem isPerm_identity {N : Nat} (hN : N ≤ 16) :
    IsPerm (((List.range N).map fun i => BitVec.ofNat 4 i).map fun x => x.toNat) N := by
  have hentries : ((List.range N).map fun i => BitVec.ofNat 4 i).map (fun x => x.toNat) =
      List.range N := by
    rw [List.map_map]
    refine (List.map_congr_left fun i hi => ?_).trans (List.map_id _)
    exact toNat_ofNat_index (by have := List.mem_range.mp hi; omega)
  rw [hentries]
  exact ⟨List.length_range, fun x hx => List.mem_range.mp hx, List.nodup_range⟩

/-! ## Substitution -/

/-- Two tables that undo each other on nibbles undo each other on Blocks (R128). -/
theorem substitute_substitute {S T : List Nibble}
    (h : ∀ n : Nibble, T.getD (S.getD n.toNat 0).toNat 0 = n) (B : Block) :
    substitute (substitute B S) T = B := by
  rw [substitute, substitute, List.map_map]
  exact List.map_id'' h B

/-- Substitution through a valid S-box is undone by its inverse: `I[S[n]] = n` for every nibble
(R128). -/
theorem substitute_inverse {S : List Nibble} (h : IsPerm (S.map fun x => x.toNat) 16) (B : Block) :
    substitute (substitute B S) (inverse S) = B := by
  have hlen := length_of_isPerm h
  refine substitute_substitute (fun n => ?_) B
  rw [inverse_getD_entry (by rwa [hlen]) (by rw [hlen]; exact n.isLt), BitVec.ofNat_toNat,
    BitVec.setWidth_eq]

/-- Substitution through the inverse of a valid S-box is undone by the S-box (R128). -/
theorem substitute_of_inverse {S : List Nibble} (h : IsPerm (S.map fun x => x.toNat) 16)
    (B : Block) : substitute (substitute B (inverse S)) S = B := by
  have hundo := substitute_inverse (isPerm_inverse_of_isPerm le_rfl h) B
  rwa [inverse_inverse_of_isPerm le_rfl h] at hundo

theorem substitute_identity (B : Block) :
    substitute B ((List.range 16).map fun i => BitVec.ofNat 4 i) = B := by
  refine List.map_id'' (fun n => ?_) B
  rw [identity_getD n.isLt, BitVec.ofNat_toNat, BitVec.setWidth_eq]

/-- Settles O52: `S` and its inverse undo each other entry by entry. -/
theorem substitutionIsUndoneByInverse : Obligations.SubstitutionIsUndoneByInverse :=
  ⟨fun B _ h => ⟨substitute_inverse h B, substitute_of_inverse h B⟩, substitute_identity⟩

/-! ## Permutation -/

/-- The bits of a permuted Block are its bits, relocated (R129). -/
theorem toBits_permute (B : Block) (P : List Nibble) :
    toBits (permute B P) = relocate (toBits B) P :=
  toBits_packNibbles (by rw [length_relocate, length_toBits]; omega)

/-- A valid P-box sends bit `i` to position `P[i]`, where no other bit goes (R130). -/
theorem relocate_getD {V : BitString} {P : List Nibble}
    (h : IsPerm (P.map fun x => x.toNat) V.length) {i : Nat} (hi : i < V.length) :
    (relocate V P).getD (P.getD i 0).toNat false = V.getD i false := by
  have hlen := length_of_isPerm h
  rw [← hlen] at h
  obtain ⟨hrange, hinj⟩ := (isPerm_entries_iff P).mp h
  rw [hlen] at hrange hinj
  have hcell := getElem?_foldl_set (fun k => (P.getD k 0).toNat) (fun k => V.getD k false)
    V.length (List.replicate V.length false) hinj hi (by simpa using hrange i hi)
  rw [List.getD_eq_getElem?_getD, relocate, hcell]
  rfl

/-- The bit at position `i` of a Block stands at position `P[i]` of the permuted one (R130). -/
theorem toBits_permute_getD {B : Block} {P : List Nibble}
    (h : IsPerm (P.map fun x => x.toNat) (4 * B.length)) {i : Nat} (hi : i < 4 * B.length) :
    (toBits (permute B P)).getD (P.getD i 0).toNat false = (toBits B).getD i false := by
  rw [← length_toBits] at h hi
  rw [toBits_permute, relocate_getD h hi]

/-- Settles O53: no two bits have one destination, so each stays where the loop of R129 put it. -/
theorem permutationSendsBitToDestination : Obligations.PermutationSendsBitToDestination :=
  ⟨fun B P h => ⟨length_permute B P, fun _ hi => toBits_permute_getD h hi⟩, by decide⟩

/-- Relocating through a valid P-box and then through its inverse: bit `i` goes to `P[i]` and from
there to `I[P[i]] = i` (R131). -/
theorem relocate_inverse {V : BitString} {P : List Nibble} (hV : V.length ≤ 16)
    (h : IsPerm (P.map fun x => x.toNat) V.length) :
    relocate (relocate V P) (inverse P) = V := by
  have hlen := length_of_isPerm h
  have hP : IsPerm (P.map fun x => x.toNat) P.length := by rwa [hlen]
  have hI : IsPerm ((inverse P).map fun x => x.toNat) (relocate V P).length := by
    rw [length_relocate]
    exact isPerm_inverse_of_isPerm hV h
  obtain ⟨hrange, -⟩ := (isPerm_entries_iff P).mp hP
  refine ext_getD (d := false) (by simp) fun i hi => ?_
  have hback := relocate_getD hI (i := (P.getD i 0).toNat) (by
    rw [length_relocate, ← hlen]
    exact hrange i (by omega))
  rwa [inverse_getD_entry hP (by omega), toNat_ofNat_index (by omega), relocate_getD h hi] at hback

/-- Permutation through a valid P-box is undone by its inverse (R131). -/
theorem permute_inverse {B : Block} {P : List Nibble} (hB : B.length ≤ 4)
    (h : IsPerm (P.map fun x => x.toNat) (4 * B.length)) :
    permute (permute B P) (inverse P) = B := by
  rw [← length_toBits] at h
  rw [permute, toBits_permute, relocate_inverse (by rw [length_toBits]; omega) h,
    packNibbles_toBits]

/-- Permutation through the inverse of a valid P-box is undone by the P-box (R131). -/
theorem permute_of_inverse {B : Block} {P : List Nibble} (hB : B.length ≤ 4)
    (h : IsPerm (P.map fun x => x.toNat) (4 * B.length)) :
    permute (permute B (inverse P)) P = B := by
  have hN : 4 * B.length ≤ 16 := by omega
  have hundo := permute_inverse hB (isPerm_inverse_of_isPerm hN h)
  rwa [inverse_inverse_of_isPerm hN h] at hundo

/-- Relocating reorders the bits: read at the positions `P[0], P[1], …`, which are all positions in
some order, the result is the sequence itself. -/
theorem relocate_perm {V : BitString} {P : List Nibble}
    (h : IsPerm (P.map fun x => x.toNat) V.length) : (relocate V P).Perm V := by
  have hlen := length_of_isPerm h
  have hread : (P.map fun x => x.toNat).map (fun p => (relocate V P).getD p false) = V := by
    refine ext_getD (d := false) (by simpa using hlen) fun i hi => ?_
    rw [← relocate_getD h hi]
    have hiP : i < P.length := by omega
    simp [List.getD_eq_getElem?_getD, hiP]
  have hall : (List.range V.length).map (fun p => (relocate V P).getD p false) = relocate V P := by
    refine ext_getD (d := false) (by simp) fun i hi => ?_
    rw [length_relocate] at hi
    simp [List.getD_eq_getElem?_getD, hi]
  have hpos : (P.map fun x => x.toNat).Perm (List.range V.length) := by
    obtain ⟨hcount, hrange, hnodup⟩ := h
    exact (List.subperm_of_subset hnodup fun x hx => List.mem_range.mpr (hrange x hx))
      |>.perm_of_length_le (by rw [hcount, List.length_range])
  have hmap := hpos.map fun p => (relocate V P).getD p false
  rw [hread, hall] at hmap
  exact hmap.symm

theorem permute_identity {B : Block} (hB : B.length ≤ 4) :
    permute B ((List.range (4 * B.length)).map fun i => BitVec.ofNat 4 i) = B := by
  have hP := isPerm_identity (N := (toBits B).length) (by rw [length_toBits]; omega)
  have hbits : relocate (toBits B)
      ((List.range (toBits B).length).map fun i => BitVec.ofNat 4 i) = toBits B := by
    refine ext_getD (d := false) (by simp) fun i hi => ?_
    have hmove := relocate_getD hP hi
    rw [length_toBits] at hi
    rwa [identity_getD (by rwa [length_toBits]), toNat_ofNat_index (by omega)] at hmove
  rw [length_toBits] at hbits
  rw [permute, hbits, packNibbles_toBits]

/-- Settles O54: a valid P-box reorders the bits, and its inverse sends each back. -/
theorem permutationIsUndoneByInverse : Obligations.PermutationIsUndoneByInverse := by
  refine ⟨fun B P hB h => ⟨permute_inverse hB h, permute_of_inverse hB h, ?_⟩,
    fun B hB => permute_identity hB⟩
  rw [← length_toBits] at h
  rw [toBits_permute]
  exact (relocate_perm h).count_eq true

end Sys2Proof.Machine

/-! SUPPORT. The commands MIXKEY, SUB, SUBI, PERM and PERMI: one stage each on the Block in BLK, and
what that stage leaves in the cells of ST and RES (42_round_primitives.md rules R135 to R139). -/

namespace Sys2Proof.Machine

/-! ## The other bytes of opcodes 5 to 9 -/

/-- Bytes that do not decode are illegal, with the accept step of R83. -/
theorem otherBytesAreIllegal_of_decode {op : Nat} {legal : List Byte}
    (h : ∀ v : Byte, v.toNat / 16 = op → v ∉ legal → ∃ e, decode v = .error e) :
    OtherBytesAreIllegal op legal := by
  intro v hv hlegal
  obtain ⟨e, he⟩ := h v hv hlegal
  exact ⟨⟨e, he⟩, fun s => acceptByte_error s he⟩

/-- MIXKEY has a byte for each topology and each key index in 1..5 (R81, R83). -/
theorem otherBytesAreIllegal_mixkey : OtherBytesAreIllegal 5
    [0x51, 0x52, 0x53, 0x54, 0x55, 0x59, 0x5A, 0x5B, 0x5C, 0x5D] := by
  refine otherBytesAreIllegal_of_decode fun v hv hlegal => exists_decode_error.mpr ?_
  simp only [List.mem_cons, List.not_mem_nil, BitVec.toNat_eq, BitVec.reduceToNat] at hlegal
  omega

/-- An operation with one flag has four bytes: its two commands, in both topologies (R81, R83). -/
theorem otherBytesAreIllegal_flag {op : Nat} (hop : 6 ≤ op ∧ op ≤ 9) :
    OtherBytesAreIllegal op [BitVec.ofNat 8 (16 * op), BitVec.ofNat 8 (16 * op + 1),
      BitVec.ofNat 8 (16 * op + 8), BitVec.ofNat 8 (16 * op + 9)] := by
  refine otherBytesAreIllegal_of_decode fun v hv hlegal => exists_decode_error.mpr ?_
  simp only [List.mem_cons, List.not_mem_nil, BitVec.toNat_eq, BitVec.toNat_ofNat] at hlegal
  omega

/-! ## A command of one stage on a Block -/

/-- The command `i` of topology `t` runs the one stage `g` on the Block in BLK (R135 to R139). -/
structure PrimitiveCommand (i : Instr) (t : Topology) (g : Stage) : Prop
    extends BlockCommand i t where
  traced : (commandOf i).traced = false
  stages : (commandOf i).stages = [g]

@[simp] theorem length_inputBlock (t : Topology) (s : State) :
    (inputBlock t s).length = arity t :=
  length_blockOf (arity_le t) _

/-- The cells the stage `g` leaves in ST when it runs on the Block in BLK. -/
def primitiveCells (t : Topology) (s : State) (g : Stage) : Vector Nibble 4 :=
  fitBlock (stageBlock t s (inputBlock t s) g)

/-- The cells at and above `w` are 0. -/
theorem primitiveCells_of_le (t : Topology) (s : State) (g : Stage) (j : Fin 4)
    (h : arity t ≤ j.val) : (primitiveCells t s g)[j] = 0 :=
  fitBlock_of_le _ j (by rwa [length_stageBlock s g (length_inputBlock t s)])

/-- The accept step of a primitive that passes its checks, and its one controller step (R145 to
R147). -/
theorem exec_primitive {i : Instr} {t : Topology} {g : Stage} {s : State}
    (hc : PrimitiveCommand i t g) (hb : s.busy = false) (hcheck : (commandOf i).check s = none) :
    exec i s = .next (acceptedBlock i t s) ∧
      exec i (acceptedBlock i t s) = .next (finishedBlock i t 1 (primitiveCells t s g) s) := by
  have hg : g.OnBlock := hc.onBlock g (by simp [hc.stages])
  have hrun : runStage t g (acceptedBlock i t s) =
      { acceptedBlock i t s with st := primitiveCells t s g } :=
    runStage_onBlock hg (length_inputBlock t s) (fitBlock_blockOf t s.blk.nib).symm
  have hlanes : activeCells t (primitiveCells t s g) = primitiveCells t s g :=
    activeCells_of_lanes t _ (primitiveCells_of_le t s g)
  exact ⟨exec_accept_block hb hcheck hc.load hc.topo hc.clear hc.traced,
    exec_finish_block hc.stages hc.topo hc.traced hc.writesRes hlanes hrun⟩

/-! ## The entry checks -/

/-- Two entry checks, the first decided first (R183). -/
theorem firstError_pair (a b : Bool) (e f : ErrorCode) :
    firstError [require a e, require b f] =
      if a = true then if b = true then none else some f else some e := by
  cases a <;> cases b <;> rfl

/-- The tag of a block-valued register is `w` (R20). -/
theorem hasArity_iff (r : BlockReg) (t : Topology) :
    r.hasArity t = true ↔ r.len.toNat = arity t := by
  rw [BlockReg.hasArity, beq_iff_eq]

/-- The entry checks of SUB and SUBI, in their order (R136, R137, R183). -/
theorem substitutionCheck_eq (t : Topology) (s : State) :
    substitutionCheck t s =
      if s.svalid = true then if s.blk.len.toNat = arity t then none else some .invalidLength
      else some .tableNotReady := by
  simp only [substitutionCheck, firstError_pair, State.sboxReady, hasArity_iff]

/-- The entry checks of PERM and PERMI, in their order (R138, R139, R183). -/
theorem permutationCheck_eq (t : Topology) (s : State) :
    permutationCheck t s =
      if s.pvalid = true ∧ s.pt = topologyToBit t then
        if s.blk.len.toNat = arity t then none else some .invalidLength
      else some .tableNotReady := by
  simp only [permutationCheck, firstError_pair, State.pboxReady, Bool.and_eq_true, beq_iff_eq,
    hasArity_iff]

/-- The entry checks of MIXKEY with a key register: both tags are `w` (R135, R183). -/
theorem mixkeyCheck_eq {k : BitVec 3} {j : KeyIndex} (hk : keyIndex k = some j) (t : Topology)
    (s : State) :
    mixkeyCheck t k s =
      if s.blk.len.toNat = arity t ∧ (s.key j).len.toNat = arity t then none
      else some .invalidLength := by
  simp only [mixkeyCheck, hk, firstError_pair, hasArity_iff, ite_and]

/-- What a primitive that needs a table answers: with the table ready and the tag `w` its two steps,
else TableNotReady before InvalidLength (R136 to R139, R183). -/
theorem exec_tablePrimitive {i : Instr} {t : Topology} {g : Stage} {s : State} {ready : Prop}
    [Decidable ready] (hc : PrimitiveCommand i t g) (hb : s.busy = false)
    (hcheck : (commandOf i).check s =
      if ready then if s.blk.len.toNat = arity t then none else some .invalidLength
      else some .tableNotReady) :
    (ready → s.blk.len.toNat = arity t → exec i s = .next (acceptedBlock i t s) ∧
      exec i (acceptedBlock i t s) = .next (finishedBlock i t 1 (primitiveCells t s g) s)) ∧
    (¬ ready → exec i s = .next (failedWith i 3 s)) ∧
    (ready → s.blk.len.toNat ≠ arity t → exec i s = .next (failedWith i 2 s)) := by
  refine ⟨fun hr hw => ?_, fun hr => ?_, fun hr hw => ?_⟩
  · exact exec_primitive hc hb (by rw [hcheck, if_pos hr, if_pos hw])
  · exact exec_fails_of_clear_id hb hc.clear (by rw [hcheck, if_neg hr])
  · exact exec_fails_of_clear_id hb hc.clear (by rw [hcheck, if_pos hr, if_neg hw])

/-! ## Entries of a store -/

/-- The entry a nibble names among the first `N` cells of a store (R61). -/
theorem take_getD_toNat (T : Table) {N : Nat} {x : Nibble} (hx : x.toNat < N) :
    (T.toList.take N).getD x.toNat 0 = cellAt T x := by
  have hx16 : x.toNat < 16 := x.isLt
  simp [List.getD_eq_getElem?_getD, cellAt, hx, hx16]

/-- The entry at an index among the first `N` cells of a store. -/
theorem take_getD (T : Table) {N : Nat} {p : Fin 16} (hp : p.val < N) :
    (T.toList.take N).getD p.val 0 = T[p] :=
  take_getD_toNat T (x := BitVec.ofFin p) hp

/-- The inverse store of a pair holds the inverse of the table in the forward one (R39, R40,
R111). -/
theorem take_eq_inverse_of_tablePair {T I : Table} {N : Nat} (hN : N ≤ 16)
    (h : TablePair T I N) : I.toList.take N = inverse (T.toList.take N) := by
  have hlen : (T.toList.take N).length = N := length_of_isPerm h.perm
  have hP : IsPerm ((T.toList.take N).map fun x => x.toNat) (T.toList.take N).length := by
    rw [hlen]
    exact h.perm
  refine ext_getD (d := 0) (by simp) fun y hy => ?_
  rw [length_inverse] at hy
  obtain ⟨i, hi, rfl⟩ := exists_entry_of_isPerm hP hy
  have hiN : i < N := hlen ▸ hi
  have hback := h.inverse ⟨i, by omega⟩ hiN
  rw [inverse_getD_entry hP hi, ← hback]
  rw [hlen, take_getD T (p := ⟨i, by omega⟩) hiN] at hy
  rw [take_getD T (p := ⟨i, by omega⟩) hiN, take_getD_toNat I hy]

/-- The inverse store of a pair holds a valid table (R112). -/
theorem isPerm_inv_of_tablePair {T I : Table} {N : Nat} (hN : N ≤ 16) (h : TablePair T I N) :
    IsPerm (tableEntries I N) N := by
  rw [tableEntries, take_eq_inverse_of_tablePair hN h]
  exact isPerm_inverse_of_isPerm hN h.perm

/-- The entries of the table in the forward store of a pair are below its size (R110). -/
theorem toNat_lt_of_tablePair {T I : Table} {N : Nat} (h : TablePair T I N) {p : Fin 16}
    (hp : p.val < N) : (T[p]).toNat < N := by
  obtain ⟨-, hrange, -⟩ := h.perm
  refine hrange _ (List.mem_map_of_mem ?_)
  rw [← take_getD T hp, List.getD_eq_getElem _ _ (by simpa using hp)]
  exact List.getElem_mem _

/-! ## MIXKEY -/

/-- MIXKEY with a key register runs the stage `KMIX` of that register (R135). -/
theorem primitiveCommand_mixkey {k : BitVec 3} {j : KeyIndex} (hk : keyIndex k = some j)
    (t : Topology) : PrimitiveCommand (.mixkey t k) t (.kmix j) := by
  have hstages : (commandOf (.mixkey t k)).stages = [.kmix j] := by
    simp [commandOf, mixkeyCommand, mixkeyStages, hk]
  exact ⟨⟨rfl, rfl, rfl, rfl, by simp [hstages, Stage.OnBlock]⟩, rfl, hstages⟩

/-- The key fields 1 to 5 name K1 to K5 (R84). -/
theorem exists_keyIndex_of_mem {s : State} {k : BitVec 3} {K : BlockReg}
    (h : (k, K) ∈ [(1#3, s.k1), (2#3, s.k2), (3#3, s.k3), (4#3, s.k4), (5#3, s.k5)]) :
    ∃ j, keyIndex k = some j ∧ s.key j = K := by
  simp only [List.mem_cons, List.not_mem_nil, or_false, Prod.mk.injEq] at h
  rcases h with ⟨rfl, rfl⟩ | ⟨rfl, rfl⟩ | ⟨rfl, rfl⟩ | ⟨rfl, rfl⟩ | ⟨rfl, rfl⟩
  · exact ⟨.k1, rfl, rfl⟩
  · exact ⟨.k2, rfl, rfl⟩
  · exact ⟨.k3, rfl, rfl⟩
  · exact ⟨.k4, rfl, rfl⟩
  · exact ⟨.k5, rfl, rfl⟩

/-- A Block read from cells holds the active ones (R20). -/
theorem blockOf_getD {t : Topology} (v : Vector Nibble 4) {j : Fin 4} (hj : j.val < arity t) :
    (blockOf (arity t) v).getD j.val 0 = v[j] := by
  simp [blockOf, List.getD_eq_getElem?_getD, hj]

/-- `KMIX` on the Block in BLK, cell by cell (R132, R135). -/
theorem primitiveCells_kmix (t : Topology) (s : State) (k : KeyIndex) (j : Fin 4) :
    (primitiveCells t s (.kmix k))[j] =
      if j.val < arity t then s.blk.nib[j] ^^^ (s.key k).nib[j] else 0 := by
  split
  case isTrue hj =>
    have hB : j.val < (inputBlock t s).length := by rwa [length_inputBlock]
    have hK : j.val < (keyBlock t s k).length := by rwa [keyBlock, length_blockOf (arity_le t)]
    rw [primitiveCells, Fin.getElem_fin, fitBlock_getElem, stageBlock, xorBlocks_getD hB hK,
      inputBlock, keyBlock, blockOf_getD _ hj, blockOf_getD _ hj]
  case isFalse hj => exact primitiveCells_of_le t s _ j (Nat.le_of_not_lt hj)

/-- Settles O19: the check passes exactly on the two tags, and the one stage is `KMIX`. -/
theorem mixkeyXorsKeyIntoBlk : Obligations.MixkeyXorsKeyIntoBlk := by
  refine ⟨⟨rfl, rfl, rfl, rfl, rfl, rfl, rfl, rfl, rfl, rfl⟩, otherBytesAreIllegal_mixkey,
    fun t s hb k K hmem => ?_⟩
  obtain ⟨j, hk, rfl⟩ := exists_keyIndex_of_mem hmem
  refine ⟨fun h => ?_, fun h => ?_⟩
  · obtain ⟨haccept, hfinish⟩ := exec_primitive (primitiveCommand_mixkey hk t) hb
      ((mixkeyCheck_eq hk t s).trans (if_pos h))
    exact ⟨haccept, _, primitiveCells_kmix t s j, hfinish⟩
  · exact exec_fails_of_clear_id (i := .mixkey t k) hb rfl ((mixkeyCheck_eq hk t s).trans (if_neg h))

/-! ## SUB and SUBI -/

theorem primitiveCommand_sub (t : Topology) : PrimitiveCommand (.sub t) t .subs :=
  ⟨⟨rfl, rfl, rfl, rfl, by simp [commandOf, subCommand, Stage.OnBlock]⟩, rfl, rfl⟩

theorem primitiveCommand_subi (t : Topology) : PrimitiveCommand (.subi t) t .subsInv :=
  ⟨⟨rfl, rfl, rfl, rfl, by simp [commandOf, subiCommand, Stage.OnBlock]⟩, rfl, rfl⟩

/-- Nibble `i` of a substituted Block (R127). -/
theorem substitute_getD {B : Block} (S : List Nibble) {i : Nat} (hi : i < B.length) :
    (substitute B S).getD i 0 = S.getD (B.getD i 0).toNat 0 := by
  simp [substitute, List.getD_eq_getElem?_getD, hi]

/-- Substitution through a store looks every active cell up in it (R133). -/
theorem fitBlock_substitute (t : Topology) (s : State) (T : Table) (j : Fin 4) :
    (fitBlock (substitute (inputBlock t s) T.toList))[j] =
      if j.val < arity t then cellAt T s.blk.nib[j] else 0 := by
  split
  case isTrue hj =>
    have hB : j.val < (inputBlock t s).length := by rwa [length_inputBlock]
    rw [Fin.getElem_fin, fitBlock_getElem, substitute_getD _ hB, ← take_toList T,
      take_getD_toNat T (BitVec.isLt _), inputBlock,
      blockOf_getD _ hj]
  case isFalse hj =>
    refine fitBlock_of_le _ j ?_
    rw [length_substitute, length_inputBlock]
    exact Nat.le_of_not_lt hj

/-- Settles O20: SUB's one stage looks BLK up in SBOX. -/
theorem subLooksUpSbox : Obligations.SubLooksUpSbox := by
  refine ⟨rfl, rfl, otherBytesAreIllegal_flag (by decide), fun t s hb => ?_⟩
  obtain ⟨hrun, hnotReady, hlength⟩ :=
    exec_tablePrimitive (primitiveCommand_sub t) hb (substitutionCheck_eq t s)
  refine ⟨fun hs hw => ?_, fun hs => hnotReady (by rw [hs]; decide), hlength⟩
  obtain ⟨haccept, hfinish⟩ := hrun hs hw
  exact ⟨haccept, _, fitBlock_substitute t s s.sbox, hfinish⟩

/-- Settles O21: SUBI's one stage looks BLK up in SINV. -/
theorem subiLooksUpSinv : Obligations.SubiLooksUpSinv := by
  refine ⟨rfl, rfl, otherBytesAreIllegal_flag (by decide), fun t s hb => ?_⟩
  obtain ⟨hrun, hnotReady, hlength⟩ :=
    exec_tablePrimitive (primitiveCommand_subi t) hb (substitutionCheck_eq t s)
  refine ⟨fun hs hw => ?_, fun hs => hnotReady (by rw [hs]; decide), hlength⟩
  obtain ⟨haccept, hfinish⟩ := hrun hs hw
  exact ⟨haccept, _, fitBlock_substitute t s s.sinv, hfinish⟩

/-! ## PERM and PERMI -/

theorem primitiveCommand_perm (t : Topology) : PrimitiveCommand (.perm t) t .perm :=
  ⟨⟨rfl, rfl, rfl, rfl, by simp [commandOf, permCommand, Stage.OnBlock]⟩, rfl, rfl⟩

theorem primitiveCommand_permi (t : Topology) : PrimitiveCommand (.permi t) t .permInv :=
  ⟨⟨rfl, rfl, rfl, rfl, by simp [commandOf, permiCommand, Stage.OnBlock]⟩, rfl, rfl⟩

/-- Permutation through a valid store moves the bit of BLK at position `p` to the position the entry
`p` names (R130, R134). -/
theorem bitAt_fitBlock_permute {t : Topology} (s : State) {T : Table}
    (h : IsPerm (tableEntries T (4 * arity t)) (4 * arity t)) {p : Fin 16}
    (hp : p.val < 4 * arity t) :
    bitAt (fitBlock (permute (inputBlock t s) (T.toList.take (4 * arity t)))) (T[p]).toFin =
      bitAt s.blk.nib p := by
  have hmove := toBits_permute_getD (B := inputBlock t s) (P := T.toList.take (4 * arity t))
    (by rw [length_inputBlock]; exact h) (by rwa [length_inputBlock])
  have hsource : (toBits (inputBlock t s)).getD p.val false = bitAt s.blk.nib p := by
    rw [← fitBits_getElem _ _ p.isLt, ← Fin.getElem_fin, fitBits_toBits, inputBlock,
      fitBlock_blockOf, bitAt_activeCells, if_pos hp]
  rw [hsource, take_getD T hp] at hmove
  rw [← fitBits_toBits, Fin.getElem_fin, fitBits_getElem]
  exact hmove

/-- With PVALID = 1 the P-box stores hold a table of the size PT names, and its inverse (R31). -/
theorem pboxPair_of_inv {t : Topology} {s : State} (h : DatapathInv s) (hp : s.pvalid = true)
    (ht : s.pt = topologyToBit t) : TablePair s.pbox s.pinv (4 * arity t) := by
  rw [← pboxSize_topologyToBit, ← ht]
  exact h.pbox hp

/-- Without a P-box of the topology the first check of PERM and PERMI fails (R138, R139). -/
theorem not_pboxReady {t : Topology} {s : State} (h : s.pvalid = false ∨ s.pt ≠ topologyToBit t) :
    ¬ (s.pvalid = true ∧ s.pt = topologyToBit t) := by
  rwa [not_and_or, Bool.not_eq_true]

/-- Settles O22: PERM's one stage reads the first `4w` cells of PBOX, a valid P-box of that size. -/
theorem permMovesBitsThroughPbox : Obligations.PermMovesBitsThroughPbox := by
  refine ⟨rfl, rfl, otherBytesAreIllegal_flag (by decide), fun t s hinv hb => ?_⟩
  obtain ⟨hrun, hnotReady, hlength⟩ :=
    exec_tablePrimitive (primitiveCommand_perm t) hb (permutationCheck_eq t s)
  refine ⟨fun hp ht hw => ?_, fun h => hnotReady (not_pboxReady h),
    fun hp ht => hlength ⟨hp, ht⟩⟩
  obtain ⟨haccept, hfinish⟩ := hrun ⟨hp, ht⟩ hw
  have hpair := pboxPair_of_inv hinv hp ht
  exact ⟨haccept, _, fun p hpw => bitAt_fitBlock_permute s hpair.perm hpw,
    primitiveCells_of_le t s .perm, hfinish⟩

/-- Settles O23: PERMI's one stage reads the first `4w` cells of PINV, the inverse of the P-box;
position `p` is the destination `PINV[PBOX[p]]`. -/
theorem permiMovesBitsThroughPinv : Obligations.PermiMovesBitsThroughPinv := by
  refine ⟨rfl, rfl, otherBytesAreIllegal_flag (by decide), fun t s hinv hb => ?_⟩
  obtain ⟨hrun, hnotReady, hlength⟩ :=
    exec_tablePrimitive (primitiveCommand_permi t) hb (permutationCheck_eq t s)
  refine ⟨fun hp ht hw => ?_, fun h => hnotReady (not_pboxReady h),
    fun hp ht => hlength ⟨hp, ht⟩⟩
  obtain ⟨haccept, hfinish⟩ := hrun ⟨hp, ht⟩ hw
  have hpair := pboxPair_of_inv hinv hp ht
  have hN : 4 * arity t ≤ 16 := by have := arity_le t; omega
  have hmove : ∀ q : Fin 16, q.val < 4 * arity t →
      bitAt (primitiveCells t s .permInv) (s.pinv[q]).toFin = bitAt s.blk.nib q :=
    fun q hq => bitAt_fitBlock_permute s (isPerm_inv_of_tablePair hN hpair) hq
  refine ⟨haccept, _, fun p hpw => ⟨hmove p hpw, ?_⟩, primitiveCells_of_le t s .permInv, hfinish⟩
  have hback : (s.pinv[(s.pbox[p]).toFin]).toFin = p := by
    have hentry := hpair.inverse p hpw
    exact (congrArg BitVec.toFin hentry).trans (Fin.ext (toNat_ofNat_index p.isLt))
  have hbit := hmove (s.pbox[p]).toFin (toNat_lt_of_tablePair hpair hpw)
  rwa [hback] at hbit

end Sys2Proof.Machine

/-! SUPPORT. The cipher pipelines: their stage lists as mirror images, the steps of a running
command, their entry checks, and the two ciphers as inverses of each other, as functions and at the
machine (43_pipeline.md). -/

namespace Sys2Proof.Machine

/-! ## The failing accept step -/

/-- Settles O12: every failing accept step raises the error's code after clearing the valid bit of
its own command, which only VSBOX and VPBOX have. -/
theorem failedCommandChangesNothingElse : Obligations.FailedCommandChangesNothingElse := by
  intro i s e hb hc
  rw [exec_fails_with_clear hb hc]
  cases i with
  | vsbox => cases e <;> rfl
  | vpbox t => cases e <;> rfl
  | _ => cases e <;> rfl

/-! ## The stage lists -/

/-- Settles O28: read off the two lists of each topology. -/
theorem decryptStagesReverseEncryptStages : Obligations.DecryptStagesReverseEncryptStages := by
  intro t
  cases t with
  | toy => exact ⟨rfl, rfl, rfl⟩
  | spn => exact ⟨rfl, rfl, rfl⟩

/-! ## The steps of a running command -/

/-- The key fields that name a key register are those of legal MIXKEY bytes (R83, R84). -/
theorem wellFormed_mixkey_of_keyIndex (t : Topology) {k : BitVec 3}
    (h : (keyIndex k).isSome = true) : (Instr.mixkey t k).wellFormed = true := by
  revert k
  cases t <;> decide

/-- One step after `n` steps. -/
theorem execTimes_succ_right {i : Instr} {s t u : State} {n : Nat}
    (h : execTimes n i s = .next t) (hu : exec i t = .next u) :
    execTimes (n + 1) i s = .next u := by
  rw [execTimes_add n 1 h]
  exact execTimes_succ_of_next 0 hu

/-- A MIXKEY without a key register fails its checks, so what passes them is the command of its own
byte (R83). -/
theorem decode_encode_of_check {i : Instr} {s : State} (h : (commandOf i).check s = none) :
    decode (encode i) = .ok i := by
  refine decode_encode ?_
  cases i with
  | mixkey t k =>
    refine wellFormed_mixkey_of_keyIndex t ?_
    cases hk : keyIndex k with
    | none => simp [commandOf, mixkeyCommand, mixkeyCheck, hk] at h
    | some j => rfl
  | _ => rfl

/-- The accept step of a command that passes its checks leaves it running (R145). -/
theorem exec_accept_running {i : Instr} {s : State} (hb : s.busy = false)
    (hc : (commandOf i).check s = none) :
    ∃ t, exec i s = .next t ∧ Running i t ∧ t.busy = true ∧ t.sc = 0 ∧ t.ir = encode i := by
  obtain ⟨hir, hdone, herr, -⟩ := clear_frame i (beginAccept (encode i) s)
  obtain ⟨hS, hP⟩ := clear_flags i (beginAccept (encode i) s)
  refine ⟨_, (exec_idle i hb).trans (congrArg _ (accept_of_check_none hc)),
    running_begin ?_ ((check_beginAccept i _ s).trans hc) hdone herr hS hP, ?_, ?_, ?_⟩
  · rw [hir]
    exact decode_encode_of_check hc
  · exact begin_busy _ _
  · exact begin_sc _ _
  · rw [begin_ir, hir]
    rfl

/-- A controller step of a running command leaves BUSY set exactly when it was not the last
(R146, R147). -/
theorem controllerStep_busy {i : Instr} {s t : State} (hr : Running i s) (hb : s.busy = true)
    (h : controllerStep (commandOf i) s = .next t) :
    t.busy = true ↔ s.sc.toNat + 1 ≠ (commandOf i).stages.length := by
  obtain ⟨g, T, n, -, rfl, -, -⟩ := controllerStep_eq_advance h
  obtain ⟨-, -, -, -, -, -, -, -, -, -, hsc, hbusy, -⟩ := runStage_frame (commandOf i).topo g s
  have hlen := length_stages_le i
  have hstage := hr.stage
  have hcount : (s.sc + 1).toNat = s.sc.toNat + 1 := toNat_add_one (by omega)
  refine ⟨fun hbt => ?_, fun hne => ?_⟩
  · have hne := (advance_of_busy hbt).1
    simpa only [hsc, hcount] using hne
  · rw [advance_of_ne (by simpa only [hsc, hcount] using hne)]
    exact hbusy.trans hb

/-- A command that is still busy after a controller step is still running (R146). -/
theorem running_controllerStep {i : Instr} {s t : State} (hr : Running i s)
    (h : controllerStep (commandOf i) s = .next t) (hb : t.busy = true) : Running i t := by
  obtain ⟨g, T, n, hg, rfl, -, htr⟩ := controllerStep_eq_advance h
  have hlen := length_stages_le i
  have hstage := hr.stage
  refine running_next_stage hr (List.mem_of_getElem? hg) (toNat_add_one (by omega))
    (fun ht => ?_) hb
  obtain ⟨hl, -, rfl⟩ := htr ht
  rw [toNat_add_one (by omega), hr.snapshots ht]

/-- An accepted command is running after each of its controller steps but the last, SC counting
them (R26, R146). -/
theorem execTimes_running {i : Instr} {s : State} (hb : s.busy = false)
    (hc : (commandOf i).check s = none) {n : Nat} (hn : n < (commandOf i).stages.length) :
    ∃ t, execTimes (n + 1) i s = .next t ∧ Running i t ∧ t.busy = true ∧ t.sc.toNat = n ∧
      t.ir = encode i := by
  induction n with
  | zero =>
    obtain ⟨t, ht, hr, hbt, hsc, hir⟩ := exec_accept_running hb hc
    exact ⟨t, execTimes_succ_of_next 0 ht, hr, hbt, by rw [hsc]; rfl, hir⟩
  | succ n ih =>
    obtain ⟨t, ht, hr, hbt, hsc, hir⟩ := ih (by omega)
    obtain ⟨u, hu⟩ := exists_controllerStep hr
    obtain ⟨husc, huir, -, -⟩ := controllerStep_of_running hr hbt hu
    have hbu : u.busy = true := (controllerStep_busy hr hbt hu).mpr (by omega)
    exact ⟨u, execTimes_succ_right ht ((exec_busy i hbt).trans hu),
      running_controllerStep hr hu hbu, hbu, by omega, huir.trans hir⟩

/-- Settles O32: SC counts the stages of the running command, and the step of the last one ends
it. -/
theorem acceptedCommandRunsItsStages : Obligations.AcceptedCommandRunsItsStages := by
  intro i s hb hc
  refine ⟨fun n hn => ?_, ?_⟩
  · obtain ⟨t, ht, hr, hbt, hsc, hir⟩ := execTimes_running hb hc hn
    exact ⟨t, ht, hbt, hr.done, hr.err, hsc, hir⟩
  · obtain ⟨m, hm⟩ :=
      Nat.exists_eq_add_one_of_ne_zero (mt List.length_eq_zero_iff.mp (stages_ne_nil_of_check hc))
    obtain ⟨t, ht, hr, hbt, hsc, hir⟩ := execTimes_running hb hc (n := m) (by omega)
    obtain ⟨u, hu⟩ := exists_controllerStep hr
    obtain ⟨-, huir, huerr, hdone⟩ := controllerStep_of_running hr hbt hu
    have hbu : u.busy = false := by
      rw [← Bool.not_eq_true, controllerStep_busy hr hbt hu]
      omega
    rw [hm]
    exact ⟨u, execTimes_succ_right ht ((exec_busy i hbt).trans hu), hbu, hdone hbu, huerr,
      huir.trans hir⟩

/-! ## The entry checks of the pipelines -/

/-- The first failing check of two lists is that of the first, or else that of the second (R183). -/
theorem firstError_append (l m : List (Option ErrorCode)) :
    firstError (l ++ m) = (firstError l).or (firstError m) := by
  induction l with
  | nil => rfl
  | cons x l ih =>
    cases x with
    | none => exact ih
    | some e => rfl

/-- Checks that all raise one error raise it unless all hold (R183). -/
theorem firstError_map_require (bs : List Bool) (e : ErrorCode) :
    firstError (bs.map fun b => require b e) = require (bs.all id) e := by
  induction bs with
  | nil => rfl
  | cons b bs ih =>
    cases b with
    | true => simpa [require] using ih
    | false => rfl

/-- What the pipelines check of the tables, in order (R183). -/
def tableChecks (t : Topology) (s : State) : List Bool :=
  match t with
  | .toy => [s.sboxReady]
  | .spn => [s.sboxReady, s.pboxReady .spn]

/-- What the pipelines check of the tags, in order (R183). -/
def tagChecks (t : Topology) (s : State) : List Bool :=
  match t with
  | .toy => [s.blk.hasArity .toy, s.k1.hasArity .toy, s.k2.hasArity .toy]
  | .spn => [s.blk.hasArity .spn, s.k1.hasArity .spn, s.k2.hasArity .spn, s.k3.hasArity .spn,
      s.k4.hasArity .spn, s.k5.hasArity .spn]

theorem tableChecks_all (t : Topology) (s : State) :
    (tableChecks t s).all id = true ↔ pipelineTablesOk t s := by
  cases t <;>
    simp [tableChecks, pipelineTablesOk, State.sboxReady, State.pboxReady, topologyToBit]

theorem tagChecks_all (t : Topology) (s : State) :
    (tagChecks t s).all id = true ↔ pipelineTagsOk t s := by
  cases t <;> simp [tagChecks, pipelineTagsOk, hasArity_iff, arity]

/-- The pipelines check the tables first, then the tags (R183, R184). -/
theorem pipelineCheck_eq (t : Topology) (s : State) :
    pipelineCheck t s = (require ((tableChecks t s).all id) .tableNotReady).or
      (require ((tagChecks t s).all id) .invalidLength) := by
  rw [← firstError_map_require, ← firstError_map_require, ← firstError_append]
  cases t <;> rfl

theorem pipelineCheck_of_not_tables {t : Topology} {s : State} (h : ¬ pipelineTablesOk t s) :
    pipelineCheck t s = some .tableNotReady := by
  rw [← tableChecks_all, Bool.not_eq_true] at h
  rw [pipelineCheck_eq, h]
  rfl

theorem pipelineCheck_of_not_tags {t : Topology} {s : State} (htables : pipelineTablesOk t s)
    (htags : ¬ pipelineTagsOk t s) : pipelineCheck t s = some .invalidLength := by
  rw [← tableChecks_all] at htables
  rw [← tagChecks_all, Bool.not_eq_true] at htags
  rw [pipelineCheck_eq, htables, htags]
  rfl

/-! ## A whole pipeline -/

/-- The controller steps of a command on a Block before its last (R146). -/
theorem execTimes_afterStages {i : Instr} {t : Topology} (s : State) (hc : BlockCommand i t)
    {n : Nat} (hn : n < (commandOf i).stages.length) :
    execTimes n i (afterStages i t s 0) = .next (afterStages i t s n) := by
  induction n with
  | zero => rfl
  | succ n ih => exact execTimes_succ_right (ih (by omega)) (exec_afterStages s hc hn)

/-- All controller steps of a command on a Block (R146, R147). -/
theorem execTimes_afterCommand {i : Instr} {t : Topology} (s : State) (hc : BlockCommand i t)
    (hne : (commandOf i).stages ≠ []) :
    execTimes (commandOf i).stages.length i (afterStages i t s 0) =
      .next (afterCommand i t s) := by
  obtain ⟨n, hn⟩ := Nat.exists_eq_add_one_of_ne_zero (mt List.length_eq_zero_iff.mp hne)
  rw [hn]
  exact execTimes_succ_right (execTimes_afterStages s hc (by omega)) (exec_afterStages_last s hc hn)

/-- A pipeline whose checks pass: its accept step, and its 3 or 12 controller steps. -/
theorem exec_pipeline {i : Instr} {t : Topology} {s : State} (hp : PipelineCommand i t)
    (hb : s.busy = false) (htables : pipelineTablesOk t s) (htags : pipelineTagsOk t s) :
    exec i s = .next (afterStages i t s 0) ∧
      execTimes (stageCount t) i (afterStages i t s 0) = .next (afterCommand i t s) := by
  have hcheck : (commandOf i).check s = none := by
    rw [hp.check]
    exact pipelineCheck_eq_none.mpr ⟨htables, htags⟩
  refine ⟨exec_accept hp.toBlockCommand hb hcheck, ?_⟩
  rw [← hp.length]
  exact execTimes_afterCommand s hp.toBlockCommand (stages_ne_nil_of_check hcheck)

/-- The whole run of a pipeline whose checks pass. -/
theorem execTimes_pipeline {i : Instr} {t : Topology} {s : State} (hp : PipelineCommand i t)
    (hb : s.busy = false) (htables : pipelineTablesOk t s) (htags : pipelineTagsOk t s) :
    execTimes (stageCount t + 1) i s = .next (afterCommand i t s) := by
  obtain ⟨haccept, hrun⟩ := exec_pipeline hp hb htables htags
  rw [execTimes_succ_of_next _ haccept, hrun]

/-- What a pipeline answers when a check fails: TableNotReady before InvalidLength (R183, R184). -/
theorem exec_pipeline_fails {i : Instr} {t : Topology} {s : State} (hp : PipelineCommand i t)
    (hb : s.busy = false) :
    (¬ pipelineTablesOk t s → exec i s = .next (failedWith i 3 s)) ∧
    (pipelineTablesOk t s → ¬ pipelineTagsOk t s → exec i s = .next (failedWith i 2 s)) := by
  refine ⟨fun h => ?_, fun h h' => ?_⟩
  · exact exec_fails_of_clear_id hb hp.clear (by rw [hp.check, pipelineCheck_of_not_tables h])
  · exact exec_fails_of_clear_id hb hp.clear (by rw [hp.check, pipelineCheck_of_not_tags h h'])

/-- An untraced command on a Block is accepted with nothing but the Block loaded (R145). -/
theorem afterStages_zero_of_untraced {i : Instr} (t : Topology) (s : State)
    (htr : (commandOf i).traced = false) : afterStages i t s 0 = acceptedBlock i t s := by
  have hst : fitBlock (blockAfter i t s 0) = activeCells t s.blk.nib := fitBlock_blockOf t _
  simp only [afterStages, htr, hst]
  rfl

/-- An untraced command on a Block ends with its result in ST and RES (R147). -/
theorem afterCommand_of_untraced {i : Instr} (t : Topology) (s : State)
    (htr : (commandOf i).traced = false) :
    afterCommand i t s =
      finishedBlock i t (commandOf i).stages.length (fitBlock (resultOf i t s)) s := by
  simp only [afterCommand, afterStages, htr]
  rfl

/-- An untraced pipeline: its accept step and its run, or its error (R153, R154). -/
theorem exec_untracedPipeline {i : Instr} {t : Topology} (hp : PipelineCommand i t)
    (htr : (commandOf i).traced = false) {s : State} (hb : s.busy = false) :
    (pipelineTablesOk t s → pipelineTagsOk t s →
      exec i s = .next (acceptedBlock i t s) ∧
      execTimes (stageCount t) i (acceptedBlock i t s) =
        .next (finishedBlock i t (stageCount t) (fitBlock (resultOf i t s)) s)) ∧
    (¬ pipelineTablesOk t s → exec i s = .next (failedWith i 3 s)) ∧
    (pipelineTablesOk t s → ¬ pipelineTagsOk t s → exec i s = .next (failedWith i 2 s)) := by
  refine ⟨fun htables htags => ?_, exec_pipeline_fails hp hb⟩
  have hrun := exec_pipeline hp hb htables htags
  rwa [afterStages_zero_of_untraced t s htr, afterCommand_of_untraced t s htr, hp.length] at hrun

/-- Settles O24: the stages of ENC compute the encryption function. -/
theorem encWritesCiphertext : Obligations.EncWritesCiphertext := by
  refine ⟨rfl, rfl, otherBytesAreIllegal_flag (by decide), fun t s hb => ?_⟩
  rw [← resultOf_enc]
  exact exec_untracedPipeline (pipelineCommand_enc t) rfl hb

/-- Settles O25: the stages of DEC compute the decryption function. -/
theorem decWritesPlaintext : Obligations.DecWritesPlaintext := by
  refine ⟨rfl, rfl, otherBytesAreIllegal_flag (by decide), fun t s hb => ?_⟩
  rw [← resultOf_dec]
  exact exec_untracedPipeline (pipelineCommand_dec t) rfl hb

/-! ## The two ciphers as inverse functions -/

/-- The two directions of the toy cipher differ in the table and the order of the keys alone
(R149, R150). -/
theorem decryptToy_eq_encryptToy (C : Block) (Si : List Nibble) (k1 k2 : Block) :
    decryptToy C Si k1 k2 = encryptToy C Si k2 k1 := rfl

/-- Toy decryption undoes toy encryption (R155). -/
theorem decryptToy_encryptToy {w : Nat} {B k1 k2 : Block} {S : List Nibble} (hB : B.length = w)
    (h1 : k1.length = w) (h2 : k2.length = w) (hS : IsPerm (S.map fun x => x.toNat) 16) :
    decryptToy (encryptToy B S k1 k2) (inverse S) k1 k2 = B := by
  rw [decryptToy, encryptToy, xorBlocks_xorBlocks (by simp [*]), substitute_inverse hS,
    xorBlocks_xorBlocks (by simp [*])]

/-- Toy encryption undoes toy decryption (R155). -/
theorem encryptToy_decryptToy {w : Nat} {C k1 k2 : Block} {S : List Nibble} (hC : C.length = w)
    (h1 : k1.length = w) (h2 : k2.length = w) (hS : IsPerm (S.map fun x => x.toNat) 16) :
    encryptToy (decryptToy C (inverse S) k1 k2) S k1 k2 = C := by
  have hundo := decryptToy_encryptToy hC h2 h1 (isPerm_inverse_of_isPerm le_rfl hS)
  rwa [inverse_inverse_of_isPerm le_rfl hS, ← decryptToy_eq_encryptToy C,
    decryptToy_eq_encryptToy _ S] at hundo

@[simp] theorem length_roundSpn (S P : List Nibble) (x k : Block) :
    (roundSpn S P x k).length = min x.length k.length := by
  simp [roundSpn]

@[simp] theorem length_unroundSpn (Si Pi : List Nibble) (x k : Block) :
    (unroundSpn Si Pi x k).length = min x.length k.length := by
  simp [unroundSpn]

/-- An SPN round is undone (R151, R152). -/
theorem unroundSpn_roundSpn {S P : List Nibble} {x k : Block} (hx : x.length = 4)
    (hk : k.length = 4) (hS : IsPerm (S.map fun x => x.toNat) 16)
    (hP : IsPerm (P.map fun x => x.toNat) 16) :
    unroundSpn (inverse S) (inverse P) (roundSpn S P x k) k = x := by
  rw [unroundSpn, roundSpn, permute_inverse (by simp [*]) (by simpa [*] using hP),
    substitute_inverse hS, xorBlocks_xorBlocks (by simp [*])]

/-- An undone SPN round is done again (R151, R152). -/
theorem roundSpn_unroundSpn {S P : List Nibble} {x k : Block} (hx : x.length = 4)
    (hk : k.length = 4) (hS : IsPerm (S.map fun x => x.toNat) 16)
    (hP : IsPerm (P.map fun x => x.toNat) 16) :
    roundSpn S P (unroundSpn (inverse S) (inverse P) x k) k = x := by
  rw [roundSpn, unroundSpn, xorBlocks_xorBlocks (by simp [*]), substitute_of_inverse hS,
    permute_of_inverse (by simp [*]) (by simpa [*] using hP)]

/-- SPN decryption undoes SPN encryption: the last round's key mixes and substitution, then the
three full rounds (R155). -/
theorem decryptSpn_encryptSpn {B k1 k2 k3 k4 k5 : Block} {S P : List Nibble} (hB : B.length = 4)
    (h1 : k1.length = 4) (h2 : k2.length = 4) (h3 : k3.length = 4) (h4 : k4.length = 4)
    (h5 : k5.length = 4) (hS : IsPerm (S.map fun x => x.toNat) 16)
    (hP : IsPerm (P.map fun x => x.toNat) 16) :
    decryptSpn (encryptSpn B S P k1 k2 k3 k4 k5) (inverse S) (inverse P) k1 k2 k3 k4 k5 = B := by
  simp only [decryptSpn, encryptSpn]
  rw [xorBlocks_xorBlocks (by simp [*]), substitute_inverse hS, xorBlocks_xorBlocks (by simp [*]),
    unroundSpn_roundSpn (by simp [*]) h3 hS hP, unroundSpn_roundSpn (by simp [*]) h2 hS hP,
    unroundSpn_roundSpn hB h1 hS hP]

/-- SPN encryption undoes SPN decryption (R155). -/
theorem encryptSpn_decryptSpn {C k1 k2 k3 k4 k5 : Block} {S P : List Nibble} (hC : C.length = 4)
    (h1 : k1.length = 4) (h2 : k2.length = 4) (h3 : k3.length = 4) (h4 : k4.length = 4)
    (h5 : k5.length = 4) (hS : IsPerm (S.map fun x => x.toNat) 16)
    (hP : IsPerm (P.map fun x => x.toNat) 16) :
    encryptSpn (decryptSpn C (inverse S) (inverse P) k1 k2 k3 k4 k5) S P k1 k2 k3 k4 k5 = C := by
  simp only [decryptSpn, encryptSpn]
  rw [roundSpn_unroundSpn (by simp [*]) h1 hS hP, roundSpn_unroundSpn (by simp [*]) h2 hS hP,
    roundSpn_unroundSpn (by simp [*]) h3 hS hP, xorBlocks_xorBlocks (by simp [*]),
    substitute_of_inverse hS, xorBlocks_xorBlocks (by simp [*])]

/-- Settles O55: each stage is undone by its inverse stage, in the reversed order. -/
theorem encryptDecryptRoundTrip : Obligations.EncryptDecryptRoundTrip :=
  ⟨fun _ _ _ _ hB h1 h2 hS =>
      ⟨decryptToy_encryptToy hB h1 h2 hS, encryptToy_decryptToy hB h1 h2 hS⟩,
    fun _ _ _ _ _ _ _ _ hB h1 h2 h3 h4 h5 hS hP =>
      ⟨decryptSpn_encryptSpn hB h1 h2 h3 h4 h5 hS hP,
        encryptSpn_decryptSpn hB h1 h2 h3 h4 h5 hS hP⟩⟩

/-! ## The two ciphers at the machine -/

/-- The encryption of a Block under the key registers and the forward stores (R153). -/
def encryptWith (t : Topology) (s : State) (B : Block) : Block :=
  match t with
  | .toy => encryptToy B s.sbox.toList (keyBlock .toy s .k1) (keyBlock .toy s .k2)
  | .spn =>
    encryptSpn B s.sbox.toList s.pbox.toList (keyBlock .spn s .k1) (keyBlock .spn s .k2)
      (keyBlock .spn s .k3) (keyBlock .spn s .k4) (keyBlock .spn s .k5)

/-- The decryption of a Block under the key registers and the inverse stores (R154). -/
def decryptWith (t : Topology) (s : State) (C : Block) : Block :=
  match t with
  | .toy => decryptToy C s.sinv.toList (keyBlock .toy s .k1) (keyBlock .toy s .k2)
  | .spn =>
    decryptSpn C s.sinv.toList s.pinv.toList (keyBlock .spn s .k1) (keyBlock .spn s .k2)
      (keyBlock .spn s .k3) (keyBlock .spn s .k4) (keyBlock .spn s .k5)

theorem encryptOf_eq (t : Topology) (s : State) :
    encryptOf t s = encryptWith t s (inputBlock t s) := by
  cases t <;> rfl

theorem decryptOf_eq (t : Topology) (s : State) :
    decryptOf t s = decryptWith t s (inputBlock t s) := by
  cases t <;> rfl

@[simp] theorem length_keyBlock (t : Topology) (s : State) (k : KeyIndex) :
    (keyBlock t s k).length = arity t :=
  length_blockOf (arity_le t) _

theorem length_encryptWith {t : Topology} (s : State) {B : Block} (h : B.length = arity t) :
    (encryptWith t s B).length = arity t := by
  cases t
  · simp [encryptWith, encryptToy, h]
  · simp [encryptWith, encryptSpn, h]

theorem length_decryptWith {t : Topology} (s : State) {C : Block} (h : C.length = arity t) :
    (decryptWith t s C).length = arity t := by
  cases t
  · simp [decryptWith, decryptToy, h]
  · simp [decryptWith, decryptSpn, h]

/-- Two stores that hold a table of 16 entries and its inverse, as whole lists of cells
(R39, R40). -/
theorem toList_of_tablePair {T I : Table} (h : TablePair T I 16) :
    IsPerm (T.toList.map fun x => x.toNat) 16 ∧ I.toList = inverse T.toList := by
  have hperm := h.perm
  have hinv := take_eq_inverse_of_tablePair le_rfl h
  rw [tableEntries, take_toList] at hperm
  rw [take_toList, take_toList] at hinv
  exact ⟨hperm, hinv⟩

/-- At the machine decryption and encryption undo each other, when the tables the topology needs are
valid (R155). -/
theorem cipher_roundTrip_of_inv {t : Topology} {s : State} (hinv : DatapathInv s)
    (htables : pipelineTablesOk t s) {B : Block} (hB : B.length = arity t) :
    decryptWith t s (encryptWith t s B) = B ∧ encryptWith t s (decryptWith t s B) = B := by
  have hk := length_keyBlock t s
  cases t with
  | toy =>
    obtain ⟨hS, hSi⟩ := toList_of_tablePair (hinv.sbox htables)
    simp only [encryptWith, decryptWith, hSi]
    exact ⟨decryptToy_encryptToy hB (hk _) (hk _) hS, encryptToy_decryptToy hB (hk _) (hk _) hS⟩
  | spn =>
    obtain ⟨hsv, hpv, hpt⟩ := htables
    obtain ⟨hS, hSi⟩ := toList_of_tablePair (hinv.sbox hsv)
    obtain ⟨hP, hPi⟩ := toList_of_tablePair (pboxPair_of_inv (t := .spn) hinv hpv hpt)
    simp only [encryptWith, decryptWith, hSi, hPi]
    exact ⟨decryptSpn_encryptSpn hB (hk _) (hk _) (hk _) (hk _) (hk _) hS hP,
      encryptSpn_decryptSpn hB (hk _) (hk _) (hk _) (hk _) (hk _) hS hP⟩

/-- `s` after a whole command on a Block and the host's copy of RES to BLK (R155). -/
def reloaded (i : Instr) (t : Topology) (s : State) : State :=
  { afterCommand i t s with blk := (afterCommand i t s).res }

/-- The copied Block is the result of the command. -/
theorem inputBlock_reloaded (i : Instr) (t : Topology) (s : State) :
    inputBlock t (reloaded i t s) = resultOf i t s :=
  blockOf_fitBlock_of_arity (length_resultOf i t s)

/-- A command on a Block and the copy change no key and no forward store. -/
theorem encryptWith_reloaded (i : Instr) (t : Topology) (s : State) :
    encryptWith t (reloaded i t s) = encryptWith t s := by
  cases t <;> rfl

/-- A command on a Block and the copy change no key and no inverse store. -/
theorem decryptWith_reloaded (i : Instr) (t : Topology) (s : State) :
    decryptWith t (reloaded i t s) = decryptWith t s := by
  cases t <;> rfl

theorem blk_len_of_tagsOk {t : Topology} {s : State} (h : pipelineTagsOk t s) :
    s.blk.len.toNat = arity t := by
  cases t <;> exact h.1

/-- The tags stay right when BLK is replaced by a register with the right tag (R183). -/
theorem pipelineTagsOk_of_blk {t : Topology} {s : State} {b : BlockReg}
    (h : pipelineTagsOk t s) (hb : b.len.toNat = arity t) :
    pipelineTagsOk t { s with blk := b } := by
  cases t <;> exact ⟨hb, h.2⟩

/-- The tag of a topology holds its arity (R20). -/
theorem toNat_ofNat_arity (t : Topology) : (BitVec.ofNat 3 (arity t)).toNat = arity t := by
  cases t <;> rfl

/-- After a pipeline and the copy of RES to BLK the checks of the next pipeline pass
(R155, R183). -/
theorem checksOk_reloaded (i : Instr) {t : Topology} {s : State} (htables : pipelineTablesOk t s)
    (htags : pipelineTagsOk t s) :
    pipelineTablesOk t (reloaded i t s) ∧ pipelineTagsOk t (reloaded i t s) := by
  have htags' := pipelineTagsOk_of_blk (b := (afterCommand i t s).res) htags (toNat_ofNat_arity t)
  cases t <;> exact ⟨htables, htags'⟩

/-- Two pipelines with the copy of RES to BLK between them give the Block in BLK back, when the
function of the second undoes that of the first. -/
theorem execTimes_roundTrip {i j : Instr} {t : Topology} {s : State} (hi : PipelineCommand i t)
    (hj : PipelineCommand j t) (hb : s.busy = false) (htables : pipelineTablesOk t s)
    (htags : pipelineTagsOk t s) (hundo : resultOf j t (reloaded i t s) = inputBlock t s) :
    ∃ u v, execTimes (stageCount t + 1) i s = .next u ∧
      execTimes (stageCount t + 1) j { u with blk := u.res } = .next v ∧
      v.res = regOf t (activeCells t s.blk.nib) := by
  obtain ⟨htables', htags'⟩ := checksOk_reloaded i htables htags
  refine ⟨_, _, execTimes_pipeline hi hb htables htags,
    execTimes_pipeline (s := reloaded i t s) hj rfl htables' htags', ?_⟩
  calc (afterCommand j t (reloaded i t s)).res
    _ = regOf t (fitBlock (resultOf j t (reloaded i t s))) := rfl
    _ = regOf t (activeCells t s.blk.nib) := by rw [hundo, inputBlock, fitBlock_blockOf]

/-- Settles O29: each of the two functions undoes the other under the keys and tables both commands
read. -/
theorem encThenDecReturnsBlock : Obligations.EncThenDecReturnsBlock := by
  intro t s hinv hb htables htags
  obtain ⟨hdec, henc⟩ := cipher_roundTrip_of_inv hinv htables (length_inputBlock t s)
  constructor
  · refine execTimes_roundTrip (pipelineCommand_enc t) (pipelineCommand_dec t) hb htables htags ?_
    rw [resultOf_dec, decryptOf_eq, inputBlock_reloaded, decryptWith_reloaded, resultOf_enc,
      encryptOf_eq, hdec]
  · refine execTimes_roundTrip (pipelineCommand_dec t) (pipelineCommand_enc t) hb htables htags ?_
    rw [resultOf_enc, encryptOf_eq, inputBlock_reloaded, encryptWith_reloaded, resultOf_dec,
      decryptOf_eq, henc]

/-- What ENC leaves in RES, for any Block in BLK with the tag the topology needs (R153). -/
theorem execTimes_enc_blk {t : Topology} {s : State} {b : BlockReg} (hb : s.busy = false)
    (htables : pipelineTablesOk t s) (htags : pipelineTagsOk t s) (hlen : b.len = s.blk.len) :
    ∃ v, execTimes (stageCount t + 1) (.enc t) { s with blk := b } = .next v ∧
      v.res = regOf t (fitBlock (encryptWith t s (blockOf (arity t) b.nib))) := by
  have htables' : pipelineTablesOk t { s with blk := b } := by cases t <;> exact htables
  have htags' : pipelineTagsOk t { s with blk := b } :=
    pipelineTagsOk_of_blk htags (by rw [hlen, blk_len_of_tagsOk htags])
  refine ⟨_, execTimes_pipeline (pipelineCommand_enc t) hb htables' htags', ?_⟩
  calc (afterCommand (.enc t) t { s with blk := b }).res
    _ = regOf t (fitBlock (resultOf (.enc t) t { s with blk := b })) := rfl
    _ = regOf t (fitBlock (encryptOf t { s with blk := b })) := by rw [resultOf_enc]
    _ = regOf t (fitBlock (encryptWith t s (blockOf (arity t) b.nib))) := by cases t <;> rfl

/-- RES holds the Block it was written from (R20). -/
theorem regOf_fitBlock_inj {t : Topology} {B C : Block} (hB : B.length = arity t)
    (hC : C.length = arity t) (h : regOf t (fitBlock B) = regOf t (fitBlock C)) : B = C := by
  rw [← toBlock_regOf hB, h, toBlock_regOf hC]

/-- Settles O56: decryption gives the Block of BLK back from RES, and finds one for every result. -/
theorem encryptionIsBijective : Obligations.EncryptionIsBijective := by
  intro t s hinv hb htables htags
  have hundo := fun (B : Block) (hB : B.length = arity t) =>
    cipher_roundTrip_of_inv hinv htables hB
  have hlength := fun v : Vector Nibble 4 => length_blockOf (arity_le t) v
  refine ⟨fun b u v hlen hu hv hres => ?_, fun c => ?_⟩
  · obtain ⟨u', hu', hures⟩ := execTimes_enc_blk (b := s.blk) hb htables htags rfl
    obtain ⟨v', hv', hvres⟩ := execTimes_enc_blk hb htables htags hlen
    obtain rfl : u' = u := Host.Outcome.next.inj (hu'.symm.trans hu)
    obtain rfl : v' = v := Host.Outcome.next.inj (hv'.symm.trans hv)
    rw [hures, hvres] at hres
    have hresult := regOf_fitBlock_inj (length_encryptWith s (hlength _))
      (length_encryptWith s (hlength _)) hres
    have hblock : blockOf (arity t) b.nib = blockOf (arity t) s.blk.nib := by
      rw [← (hundo _ (hlength b.nib)).1, ← hresult, (hundo _ (hlength s.blk.nib)).1]
    rw [← fitBlock_blockOf, hblock, fitBlock_blockOf]
  · have hplain := length_decryptWith s (hlength c)
    refine ⟨⟨s.blk.len, fitBlock (decryptWith t s (blockOf (arity t) c))⟩, ?_⟩
    obtain ⟨v, hv, hvres⟩ := execTimes_enc_blk hb htables htags
      (b := ⟨s.blk.len, fitBlock (decryptWith t s (blockOf (arity t) c))⟩) rfl
    refine ⟨v, rfl, hv, ?_⟩
    rw [hvres, blockOf_fitBlock_of_arity hplain, (hundo _ (hlength c)).2, fitBlock_blockOf]

end Sys2Proof.Machine

/-! SUPPORT. The traced pipelines ENCT and DECT: the snapshots in TRACE after every stage, the
traced and the untraced run side by side, and the decryption's Blocks as the encryption's in the
reversed order (44_tracer.md). -/

namespace Sys2Proof.Machine

/-! ## The snapshots of a traced pipeline -/

/-- Snapshot `n` is the Block in ST after `n` stages (R171). -/
theorem snapshotsOf_getD {i : Instr} (t : Topology) (s : State) {n : Nat}
    (hn : n ≤ (commandOf i).stages.length) :
    (snapshotsOf i t s).getD n [] = blockAfter i t s n := by
  have hlt : n < (commandOf i).stages.length + 1 := Nat.lt_succ_of_le hn
  simp [snapshotsOf, List.getD_eq_getElem?_getD, hlt]

/-- TRACE after `n` stages holds the snapshots so far and its old entries above (R170). -/
theorem traceAfter_getElem {i : Instr} (t : Topology) (s : State) {n : Nat}
    (hn : n ≤ (commandOf i).stages.length) (j : Fin 13) :
    (traceAfter i t s n)[j] =
      if j.val ≤ n then regOf t (fitBlock ((snapshotsOf i t s).getD j.val [])) else s.trace[j] := by
  simp only [traceAfter, Fin.getElem_fin, Vector.getElem_ofFn]
  split
  · rename_i hj
    rw [snapshotsOf_getD t s (hj.trans hn)]
  · rfl

/-- A traced command on a Block is accepted with the Block loaded and recorded (R145, R170). -/
theorem afterStages_zero_of_traced {i : Instr} (t : Topology) (s : State)
    (htr : (commandOf i).traced = true) : afterStages i t s 0 = acceptedTraced i t s := by
  have hst : fitBlock (blockAfter i t s 0) = activeCells t s.blk.nib := fitBlock_blockOf t _
  simp only [afterStages, htr, if_true, traceAfter_zero, hst, inputBlock, fitBlock_blockOf]
  rfl

/-- After `n` stages of a traced command ST is snapshot `n`, and TRACE and TLEN cover the snapshots
so far (R170, R171). -/
theorem afterStages_snapshots {i : Instr} (t : Topology) (s : State)
    (htr : (commandOf i).traced = true) {n : Nat} (hn : n ≤ (commandOf i).stages.length) :
    (afterStages i t s n).tlen.toNat = n + 1 ∧
    (afterStages i t s n).st = fitBlock ((snapshotsOf i t s).getD n []) ∧
    ∀ j : Fin 13, (afterStages i t s n).trace[j] =
      if j.val ≤ n then regOf t (fitBlock ((snapshotsOf i t s).getD j.val []))
      else s.trace[j] := by
  have hlen := length_stages_le i
  simp only [afterStages, htr, if_true, snapshotsOf_getD t s hn, true_and]
  exact ⟨toNat_counter (by omega), traceAfter_getElem t s hn⟩

/-- A traced command on a Block ends as an untraced one does, with its whole trace (R147, R170). -/
theorem afterCommand_of_traced {i : Instr} (t : Topology) (s : State)
    (htr : (commandOf i).traced = true) :
    afterCommand i t s =
      { finishedBlock i t (commandOf i).stages.length (fitBlock (resultOf i t s)) s with
        trace := traceAfter i t s (commandOf i).stages.length
        tlen := BitVec.ofNat 4 ((commandOf i).stages.length + 1) } := by
  simp only [afterCommand, afterStages, htr]
  rfl

/-- A traced pipeline: its accept step, the states between its stages, and its end, or its error
(R172, R173). -/
theorem exec_tracedPipeline {i : Instr} {t : Topology} (hp : PipelineCommand i t)
    (htr : (commandOf i).traced = true) {s : State} (hb : s.busy = false) :
    (pipelineTablesOk t s → pipelineTagsOk t s →
      exec i s = .next (acceptedTraced i t s) ∧
      (∀ n < stageCount t, ∃ u, execTimes n i (acceptedTraced i t s) = .next u ∧ u.busy = true ∧
        u.res = s.res ∧ u.tlen.toNat = n + 1 ∧ u.st = fitBlock ((snapshotsOf i t s).getD n []) ∧
        ∀ j : Fin 13, u.trace[j] =
          if j.val ≤ n then regOf t (fitBlock ((snapshotsOf i t s).getD j.val []))
          else s.trace[j]) ∧
      ∃ tr : Vector BlockReg 13,
        (∀ j : Fin 13, tr[j] =
          if j.val ≤ stageCount t then regOf t (fitBlock ((snapshotsOf i t s).getD j.val []))
          else s.trace[j]) ∧
        execTimes (stageCount t) i (acceptedTraced i t s) =
          .next { finishedBlock i t (stageCount t) (fitBlock (resultOf i t s)) s with
            trace := tr, tlen := BitVec.ofNat 4 (stageCount t + 1) }) ∧
    (¬ pipelineTablesOk t s → exec i s = .next (failedWith i 3 s)) ∧
    (pipelineTablesOk t s → ¬ pipelineTagsOk t s → exec i s = .next (failedWith i 2 s)) := by
  refine ⟨fun htables htags => ?_, exec_pipeline_fails hp hb⟩
  obtain ⟨haccept, hrun⟩ := exec_pipeline hp hb htables htags
  rw [← afterStages_zero_of_traced t s htr]
  refine ⟨haccept, fun n hn => ?_, traceAfter i t s (stageCount t), ?_, ?_⟩
  · rw [← hp.length] at hn
    exact ⟨_, execTimes_afterStages s hp.toBlockCommand hn, rfl, rfl,
      afterStages_snapshots t s htr hn.le⟩
  · exact traceAfter_getElem t s hp.length.ge
  · rwa [afterCommand_of_traced t s htr, hp.length] at hrun

/-- Settles O26: ENCT is a traced pipeline with the stages of ENC. -/
theorem enctWritesCiphertextAndTrace : Obligations.EnctWritesCiphertextAndTrace := by
  refine ⟨rfl, rfl, otherBytesAreIllegal_flag (by decide), fun t s hb => ?_⟩
  rw [← snapshotsOf_enct, ← resultOf_enc]
  exact exec_tracedPipeline (pipelineCommand_enct t) rfl hb

/-- Settles O27: DECT is a traced pipeline with the stages of DEC. -/
theorem dectWritesPlaintextAndTrace : Obligations.DectWritesPlaintextAndTrace := by
  refine ⟨rfl, rfl, otherBytesAreIllegal_flag (by decide), fun t s hb => ?_⟩
  rw [← snapshotsOf_dect, ← resultOf_dec]
  exact exec_tracedPipeline (pipelineCommand_dect t) rfl hb

/-! ## The traced and the untraced run side by side -/

/-- What a run of the traced command `i` may leave where the untraced one leaves `s`: its own byte
in IR, and another trace (R174). -/
def IsRetraced (i : Instr) (s s' : State) : Prop :=
  ∃ tr tl, s' = { s with ir := encode i, trace := tr, tlen := tl }

/-- Commands with one stage list take a Block through the same Blocks. -/
theorem blockAfter_congr {i j : Instr} (hstages : (commandOf j).stages = (commandOf i).stages) :
    blockAfter j = blockAfter i := by
  funext t s n
  rw [blockAfter, blockAfter, hstages]

/-- Before completion the two runs differ in IR, TRACE and TLEN alone (R146, R174). -/
theorem isRetraced_afterStages {i j : Instr}
    (hstages : (commandOf j).stages = (commandOf i).stages) (t : Topology) (s : State) (n : Nat) :
    IsRetraced j (afterStages i t s n) (afterStages j t s n) := by
  refine ⟨(afterStages j t s n).trace, (afterStages j t s n).tlen, ?_⟩
  simp only [afterStages, blockAfter_congr hstages]
  rfl

/-- After completion too, so RES ends equal (R147, R174). -/
theorem isRetraced_afterCommand {i j : Instr}
    (hstages : (commandOf j).stages = (commandOf i).stages) (t : Topology) (s : State) :
    IsRetraced j (afterCommand i t s) (afterCommand j t s) := by
  refine ⟨(afterCommand j t s).trace, (afterCommand j t s).tlen, ?_⟩
  simp only [afterCommand, afterStages, resultOf, hstages, blockAfter_congr hstages]
  rfl

/-- A failing command ends in its accept step, and accepting it once more fails the same way
(R182). -/
theorem execTimes_fails {i : Instr} {s : State} {e : ErrorCode} (hb : s.busy = false)
    (hcl : (commandOf i).clear = id) (hc : (commandOf i).check s = some e) (n : Nat) :
    execTimes (n + 1) i s = .next (failedWith i e.code s) := by
  induction n with
  | zero => exact execTimes_succ_of_next 0 (exec_fails_of_clear_id hb hcl hc)
  | succ n ih =>
    have hc' : (commandOf i).check (failedWith i e.code s) = some e := by
      rw [← hc]
      exact check_congr i rfl rfl rfl rfl rfl rfl rfl rfl rfl rfl rfl rfl
    exact execTimes_succ_right ih (exec_fails_of_clear_id (s := failedWith i e.code s) hb hcl hc')

/-- Two pipelines with one stage list leave, after the same number of steps up to completion, the
same state but for IR, TRACE and TLEN, also when their checks fail (R174). -/
theorem execTimes_retraced {i j : Instr} {t : Topology} {s : State} (hi : PipelineCommand i t)
    (hj : PipelineCommand j t) (hstages : (commandOf j).stages = (commandOf i).stages)
    (hb : s.busy = false) {n : Nat} (hn : n ≤ stageCount t) :
    ∃ u v, execTimes (n + 1) i s = .next u ∧ execTimes (n + 1) j s = .next v ∧
      IsRetraced j u v := by
  cases hcheck : pipelineCheck t s with
  | some e =>
    exact ⟨_, _, execTimes_fails hb hi.clear (by rw [hi.check, hcheck]) n,
      execTimes_fails hb hj.clear (by rw [hj.check, hcheck]) n, s.trace, s.tlen, rfl⟩
  | none =>
    obtain ⟨htables, htags⟩ := pipelineCheck_eq_none.mp hcheck
    rcases hn.lt_or_eq with hlt | rfl
    · have hrun {k : Instr} (hk : PipelineCommand k t) :
          execTimes (n + 1) k s = .next (afterStages k t s n) := by
        rw [execTimes_succ_of_next _ (exec_pipeline hk hb htables htags).1]
        exact execTimes_afterStages s hk.toBlockCommand (hk.length ▸ hlt)
      exact ⟨_, _, hrun hi, hrun hj, isRetraced_afterStages hstages t s n⟩
    · exact ⟨_, _, execTimes_pipeline hi hb htables htags, execTimes_pipeline hj hb htables htags,
        isRetraced_afterCommand hstages t s⟩

/-- The same with the state before the accept step included, where IR is still as it was (R174). -/
theorem exists_retraced_run {i j : Instr} {t : Topology} {s : State} (hi : PipelineCommand i t)
    (hj : PipelineCommand j t) (hstages : (commandOf j).stages = (commandOf i).stages)
    (hb : s.busy = false) {n : Nat} (hn : n ≤ stageCount t + 1) :
    ∃ u tr tl, execTimes n i s = .next u ∧
      execTimes n j s =
        .next { u with ir := if n = 0 then u.ir else encode j, trace := tr, tlen := tl } := by
  cases n with
  | zero => exact ⟨s, s.trace, s.tlen, rfl, rfl⟩
  | succ n =>
    obtain ⟨u, v, hu, hv, tr, tl, rfl⟩ :=
      execTimes_retraced hi hj hstages hb (Nat.le_of_succ_le_succ hn)
    exact ⟨u, tr, tl, hu, hv⟩

/-- Settles O30: the traced and the untraced command have one stage list and the same checks. -/
theorem traceIsObservational : Obligations.TraceIsObservational := fun t _ hb _ hn =>
  ⟨exists_retraced_run (pipelineCommand_enc t) (pipelineCommand_enct t) rfl hb hn,
    exists_retraced_run (pipelineCommand_dec t) (pipelineCommand_dect t) rfl hb hn⟩

/-! ## The decryption trace read backwards -/

/-- A stage is undone by its inverse stage, when the stores it reads hold a table and its inverse
(R126, R128, R131, R152). -/
theorem stageBlock_inverseStage {t : Topology} {s : State} {g g' : Stage} {B : Block}
    (hS : TablePair s.sbox s.sinv 16)
    (hP : g = .perm ∨ g = .permInv → TablePair s.pbox s.pinv (4 * arity t))
    (hg : inverseStage g = some g') (hB : B.length = arity t) :
    stageBlock t s (stageBlock t s B g) g' = B := by
  obtain ⟨hSperm, hSinv⟩ := toList_of_tablePair hS
  have hw := arity_le t
  have hPinv (h : g = .perm ∨ g = .permInv) :=
    take_eq_inverse_of_tablePair (by omega : 4 * arity t ≤ 16) (hP h)
  have hPperm (h : g = .perm ∨ g = .permInv) := (hP h).perm
  rw [← hB] at hPinv hPperm hw
  cases g with
  | cvtb | cvtn | blds | bldp => cases hg
  | kmix k =>
    cases hg
    exact xorBlocks_xorBlocks (hB.trans (length_keyBlock t s k).symm)
  | subs =>
    cases hg
    simpa only [stageBlock, hSinv] using substitute_inverse hSperm B
  | subsInv =>
    cases hg
    simpa only [stageBlock, hSinv] using substitute_of_inverse hSperm B
  | perm =>
    cases hg
    simpa only [stageBlock, ← hB, hPinv (.inl rfl)] using permute_inverse hw (hPperm (.inl rfl))
  | permInv =>
    cases hg
    simpa only [stageBlock, ← hB, hPinv (.inr rfl)] using permute_of_inverse hw (hPperm (.inr rfl))

/-- The S-box stores hold a table and its inverse whenever the checks of a pipeline pass
(R30, R39). -/
theorem sboxPair_of_tablesOk {t : Topology} {s : State} (hinv : DatapathInv s)
    (htables : pipelineTablesOk t s) : TablePair s.sbox s.sinv 16 := by
  cases t with
  | toy => exact hinv.sbox htables
  | spn => exact hinv.sbox htables.1

/-- The P-box stores hold a table and its inverse if a stage of the encryption reads them, which no
toy stage does (R31, R40). -/
theorem pboxPair_of_mem_encryptStages {t : Topology} {s : State} {g : Stage}
    (hinv : DatapathInv s) (htables : pipelineTablesOk t s) (hmem : g ∈ encryptStages t)
    (hg : g = .perm ∨ g = .permInv) : TablePair s.pbox s.pinv (4 * arity t) := by
  cases t with
  | toy => rcases hg with rfl | rfl <;> exact absurd hmem (by decide)
  | spn =>
    obtain ⟨-, hpv, hpt⟩ := htables
    exact pboxPair_of_inv hinv hpv hpt

/-- Stage `j` of the decryption is the inverse of the stage of the encryption that has as many
stages after it as `j` has before it (R152). -/
theorem exists_mirror_stage {t : Topology} {j n : Nat} (h : j + 1 + n = stageCount t) :
    ∃ g g', (encryptStages t)[n]? = some g ∧ (decryptStages t)[j]? = some g' ∧
      inverseStage g = some g' := by
  obtain ⟨hrev, henc, hdec⟩ := decryptStagesReverseEncryptStages t
  have hn : n < (encryptStages t).length := by omega
  have hj : j < (decryptStages t).length := by omega
  refine ⟨_, _, List.getElem?_eq_getElem hn, List.getElem?_eq_getElem hj, ?_⟩
  have hat := congrArg (fun l => l[j]?) hrev
  have hidx : (encryptStages t).length - 1 - j = n := by omega
  rw [List.getElem?_map, List.getElem?_map, List.getElem?_reverse (by omega), hidx,
    List.getElem?_eq_getElem hn, List.getElem?_eq_getElem hj] at hat
  exact (Option.some.inj hat).symm

/-- A command on a Block and the copy change no key and no store a stage reads. -/
theorem stageBlock_reloaded (i : Instr) (t : Topology) (s : State) :
    stageBlock t (reloaded i t s) = stageBlock t s := by
  funext B g
  cases g with
  | kmix k => cases k <;> rfl
  | _ => rfl

/-- After `j` stages of the decryption of a ciphertext ST holds the Block the encryption had with
`j` stages to go (R176). -/
theorem blockAfter_mirror {t : Topology} {s : State} (hinv : DatapathInv s)
    (htables : pipelineTablesOk t s) {j n : Nat} (h : j + n = stageCount t) :
    blockAfter (.dect t) t (reloaded (.enct t) t s) j = blockAfter (.enct t) t s n := by
  induction j generalizing n with
  | zero =>
    obtain rfl : n = (commandOf (.enct t)).stages.length := by
      rw [(pipelineCommand_enct t).length, ← h, Nat.zero_add]
    exact inputBlock_reloaded (.enct t) t s
  | succ j ih =>
    obtain ⟨g, g', hg, hg', hundo⟩ := exists_mirror_stage h
    calc blockAfter (.dect t) t (reloaded (.enct t) t s) (j + 1)
      _ = stageBlock t s (blockAfter (.dect t) t (reloaded (.enct t) t s) j) g' := by
        rw [blockAfter_succ (i := .dect t) hg', stageBlock_reloaded]
      _ = stageBlock t s (stageBlock t s (blockAfter (.enct t) t s n) g) g' := by
        rw [ih (n := n + 1) (by omega), blockAfter_succ (i := .enct t) hg]
      _ = blockAfter (.enct t) t s n :=
        stageBlock_inverseStage (sboxPair_of_tablesOk hinv htables)
          (pboxPair_of_mem_encryptStages hinv htables (List.mem_of_getElem? hg)) hundo
          (length_blockAfter _ t s n)

/-- The snapshots a traced pipeline leaves in TRACE (R170). -/
theorem trace_afterCommand {i : Instr} {t : Topology} (hp : PipelineCommand i t)
    (htr : (commandOf i).traced = true) (s : State) {j : Fin 13} (hj : j.val ≤ stageCount t) :
    (afterCommand i t s).trace[j] = regOf t (fitBlock (blockAfter i t s j.val)) := by
  simp [afterCommand_of_traced t s htr, traceAfter, hp.length, hj]

/-- Settles O31: each stage of DECT undoes the stage of ENCT at the mirrored place. -/
theorem decryptTraceMirrorsEncryptTrace : Obligations.DecryptTraceMirrorsEncryptTrace := by
  intro t s hinv hb htables htags
  obtain ⟨htables', htags'⟩ := checksOk_reloaded (.enct t) htables htags
  refine ⟨_, _, execTimes_pipeline (pipelineCommand_enct t) hb htables htags,
    execTimes_pipeline (s := reloaded (.enct t) t s) (pipelineCommand_dect t) rfl htables' htags',
    fun j n hjn => ?_⟩
  rw [trace_afterCommand (pipelineCommand_dect t) rfl _ (by omega),
    trace_afterCommand (pipelineCommand_enct t) rfl _ (by omega),
    blockAfter_mirror hinv htables hjn]

end Sys2Proof.Machine

/-! SUPPORT. Errors: every step answers, an accepted command meets no error, and a missing table is
reported before a wrong tag (60_exceptions.md rules R184, R186). -/

namespace Sys2Proof.Machine

/-! ## Every step answers a next state -/

/-- The controller's turn answers on an idle datapath, which it leaves, and on a running command
(R146, R186). -/
theorem exists_controllerTurn {s : State} (h : DatapathInv s) :
    ∃ t, controllerTurn s = .next t := by
  cases hb : s.busy with
  | false => exact ⟨s, by simp [controllerTurn, hb]⟩
  | true =>
    obtain ⟨t, ht, -⟩ := controllerTurn_next h hb
    exact ⟨t, ht⟩

/-- The accept step answers for every byte, legal or not (R145). -/
theorem exists_acceptByte {s : State} (v : Byte) (hb : s.busy = false) :
    ∃ t, acceptByte v s = .next t := by
  cases hv : decode v with
  | ok i => exact ⟨_, (acceptByte_ok s hv).trans (exec_idle i hb)⟩
  | error e => exact ⟨_, acceptByte_error s hv⟩

/-- A host write answers: dropped while BUSY = 1, else an accept step or a register write
(R70, R204). -/
theorem exists_hostWriteStep (r : BitVec 7) (v : Nat) (s : State) :
    ∃ t, hostWriteStep r v s = .next t := by
  cases hb : s.busy with
  | true => exact ⟨s, hostWriteStep_busy r v hb⟩
  | false =>
    unfold hostWriteStep
    split
    · exact exists_acceptByte _ hb
    · exact ⟨_, rfl⟩

/-- A WAIT on a running command gives the controller its turn, since DONE = 0 while it runs
(R28, R191). -/
theorem step_wait_of_inv {s : State} {rest : List Event} (h : DatapathInv s)
    (hb : s.busy = true) (hin : s.inputs = .wait :: rest) : step s = controllerTurn s := by
  obtain ⟨i, hr⟩ := h.running hb
  exact step_wait_busy hin hb hr.done

/-- The machine never stops in a state that meets the invariant (R186). -/
theorem exists_step {s : State} (h : DatapathInv s) : ∃ t, step s = .next t := by
  cases hin : s.inputs with
  | nil =>
    rw [step_of_inputs_nil hin]
    exact exists_controllerTurn h
  | cons e rest =>
    cases e with
    | write r v =>
      simp only [step, hin]
      exact exists_hostWriteStep r v _
    | controller =>
      rw [step_controller hin]
      exact exists_controllerTurn (datapathInv_inputs h rest)
    | wait =>
      cases hb : s.busy with
      | false => exact ⟨_, step_wait_idle hin hb⟩
      | true =>
        rw [step_wait_of_inv h hb hin]
        exact exists_controllerTurn h
    | readTrace => exact ⟨_, step_readTrace hin⟩
    | read r => exact ⟨hostRead r { s with inputs := rest }, by simp only [step, hin]⟩
    | reset => exact ⟨resetEvent { s with inputs := rest }, by simp only [step, hin]⟩

/-! ## A running command meets no error -/

/-- The controller's turn on a running command leaves ERR = 0 (R186). -/
theorem controllerTurn_err {s t : State} (h : DatapathInv s) (hb : s.busy = true)
    (ht : controllerTurn s = .next t) : t.err = 0 := by
  obtain ⟨i, hr⟩ := h.running hb
  rw [controllerTurn_busy hb hr.latched, exec_busy i hb] at ht
  obtain ⟨-, -, herr, -⟩ := controllerStep_of_running hr hb ht
  exact herr

/-- Settles O11: a running command has a stage to run and room for its snapshot, no stage raises an
error, and at most 12 stages are left. -/
theorem noInternalFault : Obligations.NoInternalFault := by
  refine ⟨fun s h => exists_step h, fun s t h hb hin ht => ?_, fun s h hb hin => ?_⟩
  · rcases hin with hin | ⟨rest, hin | hin⟩
    · rw [step_of_inputs_nil hin] at ht
      exact controllerTurn_err h hb ht
    · rw [step_controller hin] at ht
      exact controllerTurn_err (datapathInv_inputs h rest) hb ht
    · rw [step_wait_of_inv h hb hin] at ht
      exact controllerTurn_err h hb ht
  · obtain ⟨i, hr⟩ := h.running hb
    have hlen := length_stages_le i
    obtain ⟨n, t, hn, hrun, -, hend⟩ := run_running_to_done 12 h hr hb (.inl hin) (by omega)
    exact ⟨n, t, hn, hrun, hend⟩

/-! ## A missing table is reported first -/

/-- No pipeline runs without an S-box (R183). -/
theorem not_pipelineTablesOk_of_svalid {t : Topology} {s : State} (h : s.svalid = false) :
    ¬ pipelineTablesOk t s := by
  cases t <;> simp [pipelineTablesOk, h]

/-- No SPN pipeline runs without an SPN P-box (R183). -/
theorem not_pipelineTablesOk_of_pbox {s : State} (h : s.pvalid = false ∨ s.pt = false) :
    ¬ pipelineTablesOk .spn s := by
  rintro ⟨-, hp, ht⟩
  simp [hp, ht] at h

/-- All four pipelines of a topology report a table they miss, whatever the tags hold (R184). -/
theorem exec_pipelines_of_not_tables {t : Topology} {s : State} (hb : s.busy = false)
    (h : ¬ pipelineTablesOk t s) :
    ∀ i ∈ [Instr.enc t, .enct t, .dec t, .dect t], exec i s = .next (failedWith i 3 s) := by
  have hfails : ∀ i, PipelineCommand i t → exec i s = .next (failedWith i 3 s) :=
    fun _ hp => (exec_pipeline_fails hp hb).1 h
  simp only [List.forall_mem_cons, List.not_mem_nil, false_imp_iff, implies_true, and_true]
  exact ⟨hfails _ (pipelineCommand_enc t), hfails _ (pipelineCommand_enct t),
    hfails _ (pipelineCommand_dec t), hfails _ (pipelineCommand_dect t)⟩

/-- Settles O13: in the check lists of SUB, SUBI, PERM, PERMI and the pipelines the tables stand
before the tags. -/
theorem missingTableIsReportedFirst : Obligations.MissingTableIsReportedFirst := by
  refine ⟨fun t s hb hs => ?_, fun t s hb hp => ?_, fun s hb hp =>
    exec_pipelines_of_not_tables hb (not_pipelineTablesOk_of_pbox hp)⟩
  · have hnot : ¬ s.svalid = true := by rw [hs]; decide
    obtain ⟨-, hsub, -⟩ :=
      exec_tablePrimitive (primitiveCommand_sub t) hb (substitutionCheck_eq t s)
    obtain ⟨-, hsubi, -⟩ :=
      exec_tablePrimitive (primitiveCommand_subi t) hb (substitutionCheck_eq t s)
    exact List.forall_mem_cons.mpr ⟨hsub hnot, List.forall_mem_cons.mpr ⟨hsubi hnot,
      exec_pipelines_of_not_tables hb (not_pipelineTablesOk_of_svalid hs)⟩⟩
  · obtain ⟨-, hperm, -⟩ :=
      exec_tablePrimitive (primitiveCommand_perm t) hb (permutationCheck_eq t s)
    obtain ⟨-, hpermi, -⟩ :=
      exec_tablePrimitive (primitiveCommand_permi t) hb (permutationCheck_eq t s)
    exact List.forall_mem_cons.mpr ⟨hperm (not_pboxReady hp),
      List.forall_mem_singleton.mpr (hpermi (not_pboxReady hp))⟩

end Sys2Proof.Machine

/-! SUPPORT. Reset and hazards: the values a reset leaves, a reset event as one step, and host writes
that meet a running command (70_reset_and_hazards.md rules R200, R201, R204). -/

namespace Sys2Proof.Machine

/-! ## What a reset leaves -/

/-- STATUS reads 0 where each of its fields is 0 (R34, R201). -/
theorem readRegister_status_of_zero {s : State} (hb : s.busy = false) (hd : s.done = false)
    (he : s.err = 0) (hs : s.svalid = false) (hp : s.pvalid = false) (ht : s.pt = false) :
    readRegister .status s = 0 := by
  simp [readRegister, State.statusWord, hb, hd, he, hs, hp, ht]

/-- Settles O6: both kinds of reset write each field as a constant, whatever the state was; the
word of STATUS follows from its fields, and that of CMD is IR. -/
theorem resetLeavesStatedValues : Obligations.ResetLeavesStatedValues := by
  rintro s (rfl | ⟨u, rfl⟩) <;>
    exact ⟨rfl, rfl, rfl, rfl, rfl, rfl,
      readRegister_status_of_zero rfl rfl rfl rfl rfl rfl,
      rfl, rfl, rfl, rfl, rfl, rfl, rfl, rfl, rfl, rfl, rfl, rfl, rfl, rfl⟩

/-! ## The step of a reset event -/

/-- A reset event leaves the host's pending inputs, which are not of the datapath (R200). -/
@[simp] theorem resetEvent_inputs (s : State) : (resetEvent s).inputs = s.inputs := rfl

/-- A reset event abandons a running command (R200). -/
@[simp] theorem resetEvent_busy (s : State) : (resetEvent s).busy = false := rfl

/-- A pending reset event is the next step, busy or idle (R200). -/
theorem step_reset {s : State} {rest : List Event} (hin : s.inputs = .reset :: rest) :
    step s = .next (resetEvent { s with inputs := rest }) := by
  simp only [step, hin]

/-- Settles O7: the step's arm for a reset event does not read the datapath. -/
theorem resetEventAlwaysCompletes : Obligations.ResetEventAlwaysCompletes :=
  fun _ _ hin => ⟨step_reset hin, resetEvent_inputs _, resetEvent_busy _⟩

/-! ## Host writes to a running command -/

/-- While BUSY = 1 the step of a host write only takes the write away (R204). -/
theorem step_write_busy {s : State} {r : BitVec 7} {v : Nat} {rest : List Event}
    (hb : s.busy = true) (hin : s.inputs = .write r v :: rest) :
    step s = .next { s with inputs := rest } := by
  simp only [step, hin]
  exact hostWriteStep_busy (s := { s with inputs := rest }) r v hb

/-- Settles O39: while BUSY = 1 a write is neither an accept nor a register write, whatever its
number and value. -/
theorem writesWhileBusyAreDropped : Obligations.WritesWhileBusyAreDropped :=
  fun _ _ _ _ hb hin => step_write_busy hb hin

end Sys2Proof.Machine
